-- ==== Sys2Proof/Word.lean ====
section
/-! DEFINITION. The word types of the VSTSID CORE synthesis block (00_scope.md R9, R10). -/

namespace Sys2Proof

/-- A byte of the host bus (20_memory.md R71). -/
abbrev Byte := BitVec 8

/-- A 32-bit register or response word; u32 arithmetic wraps (10_state.md R31). -/
abbrev Word := BitVec 32

/-- A 64-bit command word (30_encoding.md R90). -/
abbrev CommandWord := BitVec 64

/-- `F`: a binary32 value, held as its 32-bit pattern (00_scope.md R10). `f32bits` and `f32` are the identity. -/
abbrev F := BitVec 32

end Sys2Proof
end

