-- ==== Sys2Proof/Config.lean ====
section
/-! DEFINITION. The configuration parameters of 00_scope.md R7 and the free values of the model.

The parameters are plain data, one record a block carries (`State.cfg`), so that every statement about all states is
a statement about all configurations (log 1). A parameter that is a function is a choice between the law the spec
gives and a law nothing is known about, an opaque constant (log 2). -/

namespace Sys2Proof

/-- Which `sinF` and `tanF` the block has (R7, R11): the correctly rounded reference, or another pair. -/
inductive TrigLaw
  | reference
  | custom
  deriving DecidableEq, Repr

/-- `PWM_WIDTH` (R7): the same width at every counter value, or another function of the counter. -/
inductive PwmLaw
  | constant (width : F)
  | custom
  deriving DecidableEq, Repr

/-- `LFO_SWEEP` (R7): the default of 47_filter.md R294, or another function. -/
inductive SweepLaw
  | linear
  | custom
  deriving DecidableEq, Repr

/-- The parameters of R7 (R6 fixes the LFO table's length at 128). `WAVE_ROM_LEN` is the length of `triRom`. -/
structure Config where
  trig            : TrigLaw
  numVoices       : Nat
  maxChannels     : Nat
  maxBlock        : Nat
  respDepth       : Nat
  fsMin           : F
  fsMax           : F
  triRom          : List F
  pulseHi         : F
  pulseLo         : F
  pwmWidth        : PwmLaw
  bendMin         : F
  bendMax         : F
  glideMaxSeconds : F
  rmMinHz         : F
  rmMaxHz         : F
  rmFineHz        : F
  rmFeedback      : F
  filterMinCutoff : F
  filterMaxCutoff : F
  nyqEps          : F
  resMin          : F
  resMax          : F
  lfoRom          : List F
  lfoRateMin      : F
  lfoRateMax      : F
  lfoSweep        : SweepLaw
  deriving DecidableEq, Repr

/-- The rounded operations of R10. -/
inductive FOp
  | add
  | sub
  | mul
  | div
  deriving DecidableEq, Repr

/-- FREE VALUE. The payload of the NaN an operation produces from these operands: sign bit and 22 fraction bits below
the quiet bit. Only NaN-ness is normative (20_memory.md R85, 93 row 12; log 4). -/
opaque Config.nanPayload : FOp → F → F → BitVec 23

/-- FREE VALUES. R11's primitives on operands R11 does not define them for (log 5). -/
opaque Config.clampOutside : F → F → F → F
opaque Config.minOutside : F → F → F
opaque Config.maxOutside : F → F → F
opaque Config.fmodOutside : F → F → F
opaque Config.floorOutside : F → Nat
opaque Config.sinOutside : F → F
opaque Config.tanOutside : F → F

/-- FREE VALUE. What the register glideRem reads with N steps left where N wraps to 0 in a u32 (10_state.md R31), which R44
rules out; the model takes it nonzero (log 12). -/
opaque Config.glideWrapped : Nat → Word

/-- FREE VALUES. The function parameters of a block whose law is `custom` (log 2). -/
opaque Config.customSin : F → F
opaque Config.customTan : F → F
opaque Config.customPwmWidth : Word → F
opaque Config.customSweep : F → F → F → F → F

end Sys2Proof
end

