-- ==== Sys2Proof/Syntax.lean ====
section
/-! DEFINITION. The commands of the block (30_encoding.md): one constructor of `Instr` per row of the opcode map R95.

"A decoder selects by OP alone; the format then fixes the constraints on SLOT and ARG" (R95), and those constraints are
checked when the command executes, after READY (40_control.md R120). So a command keeps the SLOT, RSV and ARG it was
written with (log 10). -/

namespace Sys2Proof

/-- The operand fields of a command word, for every format (R91). -/
structure Fields where
  slot : BitVec 8
  rsv  : BitVec 16
  arg  : BitVec 32
  deriving DecidableEq, Repr

/-- The formats of R92. -/
inductive Format
  | z
  | gf
  | gu
  | v
  | vf
  | vu
  | b
  | q
  deriving DecidableEq, Repr

/-- The opcodes of R95, by name. -/
inductive Opcode
  | nop
  | init
  | stopAll
  | clearStatus
  | get
  | setAttack
  | setDecay
  | setSustain
  | setRelease
  | setPitchBend
  | setGlide
  | voiceStart
  | voiceRelease
  | voiceKill
  | voiceSetFreq
  | voiceSetVolume
  | voiceSetMute
  | voiceGlide
  | setRmRate
  | rmBlock
  | setCutoff
  | setResonance
  | setLfoEnable
  | filtBlock
  | setLfoRate
  | setLfoDepth
  | lfoPeek
  | synthBlock
  deriving DecidableEq, Repr

/-- The registers GET can select (10_state.md R54), by name. -/
inductive Selector
  | status
  | fs
  | attack
  | decay
  | sustain
  | release
  | bend
  | glide
  | rmRate
  | rmIncr
  | rmPhase
  | rmPrev
  | cutoff
  | resonance
  | tempCutoff
  | lfoEn
  | lfoRate
  | lfoDepth
  | lfoAcc
  | a1
  | a2
  | a3
  | b1
  | b2
  | fdIn1
  | fdIn2
  | fdOut1
  | fdOut2
  | activeMask
  | config
  | vState
  | vFreq
  | vBaseFreq
  | vVolume
  | vPhase
  | vPwmCnt
  | vEnv
  | vSustain
  | vAttackInc
  | vDecayInc
  | vReleaseInc
  | vGlideRem
  | vGlideInc
  | vGlideTarget
  | vRegPos
  | vAttackVal
  | vCurVal
  | vRelVal
  deriving DecidableEq, Repr

/-- The commands: one constructor per row of the opcode map (R95), each with its operand fields. -/
inductive Instr
  /-- `NOP` -/
  | nop (f : Fields)
  /-- `INIT` -/
  | init (f : Fields)
  /-- `STOP_ALL` -/
  | stopAll (f : Fields)
  /-- `CLEAR_STATUS` -/
  | clearStatus (f : Fields)
  /-- `GET` -/
  | get (f : Fields)
  /-- `SET_ATTACK` -/
  | setAttack (f : Fields)
  /-- `SET_DECAY` -/
  | setDecay (f : Fields)
  /-- `SET_SUSTAIN` -/
  | setSustain (f : Fields)
  /-- `SET_RELEASE` -/
  | setRelease (f : Fields)
  /-- `SET_PITCH_BEND` -/
  | setPitchBend (f : Fields)
  /-- `SET_GLIDE` -/
  | setGlide (f : Fields)
  /-- `VOICE_START` -/
  | voiceStart (f : Fields)
  /-- `VOICE_RELEASE` -/
  | voiceRelease (f : Fields)
  /-- `VOICE_KILL` -/
  | voiceKill (f : Fields)
  /-- `VOICE_SET_FREQ` -/
  | voiceSetFreq (f : Fields)
  /-- `VOICE_SET_VOLUME` -/
  | voiceSetVolume (f : Fields)
  /-- `VOICE_SET_MUTE` -/
  | voiceSetMute (f : Fields)
  /-- `VOICE_GLIDE` -/
  | voiceGlide (f : Fields)
  /-- `SET_RM_RATE` -/
  | setRmRate (f : Fields)
  /-- `RM_BLOCK` -/
  | rmBlock (f : Fields)
  /-- `SET_CUTOFF` -/
  | setCutoff (f : Fields)
  /-- `SET_RESONANCE` -/
  | setResonance (f : Fields)
  /-- `SET_LFO_ENABLE` -/
  | setLfoEnable (f : Fields)
  /-- `FILT_BLOCK` -/
  | filtBlock (f : Fields)
  /-- `SET_LFO_RATE` -/
  | setLfoRate (f : Fields)
  /-- `SET_LFO_DEPTH` -/
  | setLfoDepth (f : Fields)
  /-- `LFO_PEEK` -/
  | lfoPeek (f : Fields)
  /-- `SYNTH_BLOCK` -/
  | synthBlock (f : Fields)
  deriving DecidableEq, Repr

/-- The opcode of a command. -/
def Instr.opcode : Instr → Opcode
  | .nop _ => .nop
  | .init _ => .init
  | .stopAll _ => .stopAll
  | .clearStatus _ => .clearStatus
  | .get _ => .get
  | .setAttack _ => .setAttack
  | .setDecay _ => .setDecay
  | .setSustain _ => .setSustain
  | .setRelease _ => .setRelease
  | .setPitchBend _ => .setPitchBend
  | .setGlide _ => .setGlide
  | .voiceStart _ => .voiceStart
  | .voiceRelease _ => .voiceRelease
  | .voiceKill _ => .voiceKill
  | .voiceSetFreq _ => .voiceSetFreq
  | .voiceSetVolume _ => .voiceSetVolume
  | .voiceSetMute _ => .voiceSetMute
  | .voiceGlide _ => .voiceGlide
  | .setRmRate _ => .setRmRate
  | .rmBlock _ => .rmBlock
  | .setCutoff _ => .setCutoff
  | .setResonance _ => .setResonance
  | .setLfoEnable _ => .setLfoEnable
  | .filtBlock _ => .filtBlock
  | .setLfoRate _ => .setLfoRate
  | .setLfoDepth _ => .setLfoDepth
  | .lfoPeek _ => .lfoPeek
  | .synthBlock _ => .synthBlock

/-- The operand fields of a command. -/
def Instr.fields : Instr → Fields
  | .nop f => f
  | .init f => f
  | .stopAll f => f
  | .clearStatus f => f
  | .get f => f
  | .setAttack f => f
  | .setDecay f => f
  | .setSustain f => f
  | .setRelease f => f
  | .setPitchBend f => f
  | .setGlide f => f
  | .voiceStart f => f
  | .voiceRelease f => f
  | .voiceKill f => f
  | .voiceSetFreq f => f
  | .voiceSetVolume f => f
  | .voiceSetMute f => f
  | .voiceGlide f => f
  | .setRmRate f => f
  | .rmBlock f => f
  | .setCutoff f => f
  | .setResonance f => f
  | .setLfoEnable f => f
  | .filtBlock f => f
  | .setLfoRate f => f
  | .setLfoDepth f => f
  | .lfoPeek f => f
  | .synthBlock f => f

end Sys2Proof
end

