-- ==== Sys2Proof/Decode.lean ====
section
/-! DEFINITION. The encoding of 30_encoding.md: opcode map, formats, GET selectors, the decoder (total, on any bytes)
and the encoder. -/

namespace Sys2Proof

/-! ## The opcode map (R95) -/

/-- The OP byte of an opcode. -/
def Opcode.code : Opcode → BitVec 8
  | .nop => 0x00
  | .init => 0x01
  | .stopAll => 0x02
  | .clearStatus => 0x03
  | .get => 0x04
  | .setAttack => 0x10
  | .setDecay => 0x11
  | .setSustain => 0x12
  | .setRelease => 0x13
  | .setPitchBend => 0x14
  | .setGlide => 0x15
  | .voiceStart => 0x20
  | .voiceRelease => 0x21
  | .voiceKill => 0x22
  | .voiceSetFreq => 0x23
  | .voiceSetVolume => 0x24
  | .voiceSetMute => 0x25
  | .voiceGlide => 0x26
  | .setRmRate => 0x30
  | .rmBlock => 0x31
  | .setCutoff => 0x38
  | .setResonance => 0x39
  | .setLfoEnable => 0x3A
  | .filtBlock => 0x3B
  | .setLfoRate => 0x40
  | .setLfoDepth => 0x41
  | .lfoPeek => 0x42
  | .synthBlock => 0x50

/-- The format column of R95. -/
def Opcode.format : Opcode → Format
  | .nop => .z
  | .init => .gf
  | .stopAll => .z
  | .clearStatus => .gu
  | .get => .q
  | .setAttack => .gf
  | .setDecay => .gf
  | .setSustain => .gf
  | .setRelease => .gf
  | .setPitchBend => .gf
  | .setGlide => .gf
  | .voiceStart => .vf
  | .voiceRelease => .v
  | .voiceKill => .v
  | .voiceSetFreq => .vf
  | .voiceSetVolume => .vf
  | .voiceSetMute => .vu
  | .voiceGlide => .vf
  | .setRmRate => .gf
  | .rmBlock => .b
  | .setCutoff => .gf
  | .setResonance => .gf
  | .setLfoEnable => .gu
  | .filtBlock => .b
  | .setLfoRate => .gf
  | .setLfoDepth => .gf
  | .lfoPeek => .z
  | .synthBlock => .b

/-- Exactly three opcodes respond (R106). -/
def Opcode.responds : Opcode → Bool
  | .get | .lfoPeek | .synthBlock => true
  | _ => false

/-- `hasFOperand`: true exactly for formats GF and VF (R120). -/
def Opcode.hasFOperand (op : Opcode) : Bool :=
  match op.format with
  | .gf | .vf => true
  | _ => false

/-- Every opcode, in the order of R95. -/
def Opcode.all : List Opcode :=
  [.nop, .init, .stopAll, .clearStatus, .get, .setAttack, .setDecay, .setSustain, .setRelease, .setPitchBend,
   .setGlide, .voiceStart, .voiceRelease, .voiceKill, .voiceSetFreq, .voiceSetVolume, .voiceSetMute,
   .voiceGlide, .setRmRate, .rmBlock, .setCutoff, .setResonance, .setLfoEnable, .filtBlock, .setLfoRate,
   .setLfoDepth, .lfoPeek, .synthBlock]

/-- The opcode whose OP byte is `b`; `none` for a reserved byte (R96). -/
def Opcode.ofCode (b : BitVec 8) : Option Opcode := Opcode.all.find? fun o => o.code == b

/-- The command with this opcode and these fields. -/
def Opcode.instr (op : Opcode) (f : Fields) : Instr :=
  match op with
  | .nop => .nop f
  | .init => .init f
  | .stopAll => .stopAll f
  | .clearStatus => .clearStatus f
  | .get => .get f
  | .setAttack => .setAttack f
  | .setDecay => .setDecay f
  | .setSustain => .setSustain f
  | .setRelease => .setRelease f
  | .setPitchBend => .setPitchBend f
  | .setGlide => .setGlide f
  | .voiceStart => .voiceStart f
  | .voiceRelease => .voiceRelease f
  | .voiceKill => .voiceKill f
  | .voiceSetFreq => .voiceSetFreq f
  | .voiceSetVolume => .voiceSetVolume f
  | .voiceSetMute => .voiceSetMute f
  | .voiceGlide => .voiceGlide f
  | .setRmRate => .setRmRate f
  | .rmBlock => .rmBlock f
  | .setCutoff => .setCutoff f
  | .setResonance => .setResonance f
  | .setLfoEnable => .setLfoEnable f
  | .filtBlock => .filtBlock f
  | .setLfoRate => .setLfoRate f
  | .setLfoDepth => .setLfoDepth f
  | .lfoPeek => .lfoPeek f
  | .synthBlock => .synthBlock f

/-! ## The GET selectors (10_state.md R54) -/

/-- The selector byte. -/
def Selector.code : Selector → BitVec 8
  | .status => 0x00
  | .fs => 0x01
  | .attack => 0x02
  | .decay => 0x03
  | .sustain => 0x04
  | .release => 0x05
  | .bend => 0x06
  | .glide => 0x07
  | .rmRate => 0x08
  | .rmIncr => 0x09
  | .rmPhase => 0x0A
  | .rmPrev => 0x0B
  | .cutoff => 0x0C
  | .resonance => 0x0D
  | .tempCutoff => 0x0E
  | .lfoEn => 0x0F
  | .lfoRate => 0x10
  | .lfoDepth => 0x11
  | .lfoAcc => 0x12
  | .a1 => 0x13
  | .a2 => 0x14
  | .a3 => 0x15
  | .b1 => 0x16
  | .b2 => 0x17
  | .fdIn1 => 0x18
  | .fdIn2 => 0x19
  | .fdOut1 => 0x1A
  | .fdOut2 => 0x1B
  | .activeMask => 0x1C
  | .config => 0x1D
  | .vState => 0x20
  | .vFreq => 0x21
  | .vBaseFreq => 0x22
  | .vVolume => 0x23
  | .vPhase => 0x24
  | .vPwmCnt => 0x25
  | .vEnv => 0x26
  | .vSustain => 0x27
  | .vAttackInc => 0x28
  | .vDecayInc => 0x29
  | .vReleaseInc => 0x2A
  | .vGlideRem => 0x2B
  | .vGlideInc => 0x2C
  | .vGlideTarget => 0x2D
  | .vRegPos => 0x2E
  | .vAttackVal => 0x2F
  | .vCurVal => 0x30
  | .vRelVal => 0x31

/-- Every selector, in the order of R54. -/
def Selector.all : List Selector :=
  [.status, .fs, .attack, .decay, .sustain, .release, .bend, .glide, .rmRate, .rmIncr, .rmPhase, .rmPrev,
   .cutoff, .resonance, .tempCutoff, .lfoEn, .lfoRate, .lfoDepth, .lfoAcc, .a1, .a2, .a3, .b1, .b2, .fdIn1,
   .fdIn2, .fdOut1, .fdOut2, .activeMask, .config, .vState, .vFreq, .vBaseFreq, .vVolume, .vPhase, .vPwmCnt,
   .vEnv, .vSustain, .vAttackInc, .vDecayInc, .vReleaseInc, .vGlideRem, .vGlideInc, .vGlideTarget, .vRegPos,
   .vAttackVal, .vCurVal, .vRelVal]

/-- The selector whose byte is `b`; `none` for a reserved byte. -/
def Selector.ofCode (b : BitVec 8) : Option Selector := Selector.all.find? fun r => r.code == b

/-- How many SLOT values a selector takes, from 0 (the SLOT column of R54). -/
def Selector.slotCount (c : Config) : Selector → Nat
  | .rmPrev => 2
  | .fdIn1 | .fdIn2 | .fdOut1 | .fdOut2 => c.maxChannels
  | .vState | .vFreq | .vBaseFreq | .vVolume | .vPhase | .vPwmCnt | .vEnv | .vSustain | .vAttackInc
  | .vDecayInc | .vReleaseInc | .vGlideRem | .vGlideInc | .vGlideTarget | .vRegPos | .vAttackVal | .vCurVal
  | .vRelVal => c.numVoices
  | _ => 1

/-- The selector of a GET command: ARG[7:0], defined only with ARG[31:8] = 0 (R54, R92). -/
def Fields.selector (f : Fields) : Option Selector :=
  if f.arg.extractLsb' 8 24 = 0 then Selector.ofCode (f.arg.extractLsb' 0 8) else none

/-- `formatOK` (40_control.md R120): the decode constraints of R92. -/
def formatOK (c : Config) (op : Opcode) (f : Fields) : Bool :=
  match op.format with
  | .z | .gf | .gu => f.slot == 0
  | .v | .vf | .vu => decide (f.slot.toNat < c.numVoices)
  | .b => decide (f.slot.toNat ≤ c.maxChannels) && decide (f.arg.toNat ≤ c.maxBlock)
  | .q =>
    match f.selector with
    | some r => decide (f.slot.toNat < r.slotCount c)
    | none => false

/-! ## Decoding -/

/-- Why bytes are no command. -/
inductive DecodeError
  /-- OP is not in the opcode map (R96). -/
  | reservedOpcode (op : BitVec 8)
  /-- Not the eight bytes of one command (R90). -/
  | notOneCommand
  deriving DecidableEq, Repr

/-- The fields of a command word (R91). -/
def fieldsOfWord (w : CommandWord) : Fields :=
  { slot := w.extractLsb' 8 8, rsv := w.extractLsb' 16 16, arg := w.extractLsb' 32 32 }

/-- The decoder: OP alone selects the command (R95, R96). -/
def decode (w : CommandWord) : Except DecodeError Instr :=
  match Opcode.ofCode (w.extractLsb' 0 8) with
  | some op => .ok (op.instr (fieldsOfWord w))
  | none => .error (.reservedOpcode (w.extractLsb' 0 8))

/-- The command word whose little-endian bytes are these (20_memory.md R74). -/
def wordOfBytes (b0 b1 b2 b3 b4 b5 b6 b7 : Byte) : CommandWord := b7 ++ b6 ++ b5 ++ b4 ++ b3 ++ b2 ++ b1 ++ b0

/-- The little-endian bytes of a command word (20_memory.md R74). -/
def bytesOfWord (w : CommandWord) : List Byte := (List.range 8).map fun k => w.extractLsb' (8 * k) 8

/-- Decoding of a byte stream: one command is exactly eight bytes. -/
def decodeBytes : List Byte → Except DecodeError Instr
  | [b0, b1, b2, b3, b4, b5, b6, b7] => decode (wordOfBytes b0 b1 b2 b3 b4 b5 b6 b7)
  | _ => .error .notOneCommand

/-- The command word whose table bits are `w`: bits `nbits` and above are zero. -/
def tableWord (nbits w : Nat) : CommandWord := BitVec.ofNat 64 (w % 2 ^ nbits)

/-- The instruction the decoder reads from the bytes of a table word. -/
def decodeTableWord (nbits w : Nat) : Option Instr :=
  match decodeBytes (bytesOfWord (tableWord nbits w)) with
  | .ok i => some i
  | .error _ => none

/-! ## Encoding -/

/-- The word of a command: `{ARG, RSV, SLOT, OP}` (R91). -/
def encode (i : Instr) : CommandWord := i.fields.arg ++ i.fields.rsv ++ i.fields.slot ++ i.opcode.code

/-- The fields of a command with no SLOT, no ARG and RSV = 0. -/
def Fields.none : Fields := { slot := 0, rsv := 0, arg := 0 }

end Sys2Proof
end

