-- ==== Sys2Proof/Machine/Float.lean ====
section
/-! DEFINITION. IEEE 754 binary32 arithmetic on patterns (00_scope.md R10, R11): round to nearest, ties to even,
subnormals kept, no trapping; each operation is rounded once.

A finite pattern is an integer number of *units* of 2^-149. Every operation computes its exact result as a fraction of
units and rounds it once with `roundUnits`. -/

namespace Sys2Proof.Machine

/-! ## Fields of a pattern -/

/-- The sign bit. -/
def fNeg (a : F) : Bool := a.msb

/-- The biased exponent field. -/
def fExp (a : F) : Nat := a.toNat / 2 ^ 23 % 256

/-- The fraction field. -/
def fFrac (a : F) : Nat := a.toNat % 2 ^ 23

/-- `isNaN` (R11): exponent all ones, fraction nonzero, either sign (40_control.md R121). -/
def isNaN (a : F) : Bool := fExp a == 255 && fFrac a != 0

/-- ±Inf. -/
def isInf (a : F) : Bool := fExp a == 255 && fFrac a == 0

/-- `isFinite` (R11). -/
def isFinite (a : F) : Bool := fExp a != 255

/-- The magnitude of a finite pattern, in units of 2^-149. -/
def fUnits (a : F) : Nat := if fExp a = 0 then fFrac a else (2 ^ 23 + fFrac a) * 2 ^ (fExp a - 1)

/-- The pattern with this sign and these 31 magnitude bits. -/
def fPack (neg : Bool) (mag : Nat) : F := BitVec.ofNat 32 ((if neg then 2 ^ 31 else 0) + mag)

/-- +0.0, 0.5, 1.0, 2.0, 128.0, −0.5 and the infinity of a sign. -/
def fZero : F := 0x00000000
def fHalf : F := 0x3F000000
def fOne : F := 0x3F800000
def fTwo : F := 0x40000000
def f128 : F := 0x43000000
def fMinusHalf : F := 0xBF000000
def fInf (neg : Bool) : F := fPack neg 0x7F800000

/-- `PI_F` and `TWO_PI_F` (R10). -/
def fPi : F := 0x40490FDB
def fTwoPi : F := 0x40C90FDB

/-- A quiet NaN with this sign and payload: the form of every NaN that arithmetic produces (20_memory.md R85). -/
def quietNaN (payload : BitVec 23) : F := payload.extractLsb' 22 1 ++ (0x1FF : BitVec 9) ++ payload.extractLsb' 0 22

/-- The NaN an operation produces from these operands; its payload is free (log 4). -/
def fNaN (op : FOp) (a b : F) : F := quietNaN (Config.nanPayload op a b)

/-! ## Rounding -/

/-- The magnitude bits of `num / den` units rounded to nearest, ties to even; the bits of +Inf on overflow. `e` is the
exponent step of the result, `q` its significand: the bits are `e · 2^23 + q` for normal, subnormal and carried-out
significands alike. -/
def roundUnits (num den : Nat) : Nat :=
  let e := (num / den).log2 - 23
  let d := den * 2 ^ e
  let q := num / d
  let r := num % d
  let up := decide (d < 2 * r) || (decide (d = 2 * r) && q % 2 == 1)
  min (e * 2 ^ 23 + q + (if up then 1 else 0)) 0x7F800000

/-! ## The four operations (R10) -/

/-- The sum of two finite values with these signs and units. An exact zero sum of opposite signs is +0.0. -/
def addUnits (na : Bool) (ua : Nat) (nb : Bool) (ub : Nat) : F :=
  if na = nb then fPack na (roundUnits (ua + ub) 1)
  else if ub < ua then fPack na (roundUnits (ua - ub) 1)
  else if ua < ub then fPack nb (roundUnits (ub - ua) 1)
  else fZero

/-- The sum of `a` and `b`, the latter with its sign replaced by `nb`; `op` names the operation for a NaN result. -/
def addSigned (op : FOp) (a b : F) (nb : Bool) : F :=
  if isNaN a || isNaN b then fNaN op a b
  else if isInf a then (if isInf b && fNeg a != nb then fNaN op a b else fInf (fNeg a))
  else if isInf b then fInf nb
  else addUnits (fNeg a) (fUnits a) nb (fUnits b)

/-- a + b -/
def fAdd (a b : F) : F := addSigned .add a b (fNeg b)

/-- a − b -/
def fSub (a b : F) : F := addSigned .sub a b (!fNeg b)

/-- a × b -/
def fMul (a b : F) : F :=
  let neg := fNeg a != fNeg b
  if isNaN a || isNaN b then fNaN .mul a b
  else if isInf a || isInf b then
    (if (isFinite a && fUnits a == 0) || (isFinite b && fUnits b == 0) then fNaN .mul a b else fInf neg)
  else fPack neg (roundUnits (fUnits a * fUnits b) (2 ^ 149))

/-- a ÷ b -/
def fDiv (a b : F) : F :=
  let neg := fNeg a != fNeg b
  if isNaN a || isNaN b then fNaN .div a b
  else if isInf a then (if isInf b then fNaN .div a b else fInf neg)
  else if isInf b then fPack neg 0
  else if fUnits b = 0 then (if fUnits a = 0 then fNaN .div a b else fInf neg)
  else fPack neg (roundUnits (fUnits a * 2 ^ 149) (fUnits b))

/-! ## Comparisons -/

/-- A non-NaN value's place in the IEEE order; −0.0 and +0.0 share one place. -/
def fKey (a : F) : Int := if fNeg a then -((a.toNat % 2 ^ 31 : Nat) : Int) else ((a.toNat % 2 ^ 31 : Nat) : Int)

/-- Neither operand is a NaN: IEEE comparisons with a NaN are false. -/
def fOrdered (a b : F) : Bool := !isNaN a && !isNaN b

/-- a < b -/
def fLt (a b : F) : Bool := fOrdered a b && decide (fKey a < fKey b)

/-- a ≤ b -/
def fLe (a b : F) : Bool := fOrdered a b && decide (fKey a ≤ fKey b)

/-- a == b: −0.0 equals +0.0 -/
def fEq (a b : F) : Bool := fOrdered a b && decide (fKey a = fKey b)

/-! ## Primitives of R11 -/

/-- `clamp(v, lo, hi)`: `lo` if `v < lo`, else `hi` if `v > hi`, else `v`. Open where an operand is NaN (log 5). -/
def fClamp (v lo hi : F) : F :=
  if isNaN v || isNaN lo || isNaN hi then Config.clampOutside v lo hi
  else if fLt v lo then lo
  else if fLt hi v then hi
  else v

/-- `min(a, b)`: `a` if `a ≤ b` else `b`. Open where an operand is NaN (log 5). -/
def fMin (a b : F) : F :=
  if isNaN a || isNaN b then Config.minOutside a b else if fLe a b then a else b

/-- `max(a, b)`: `a` if `a ≥ b` else `b`. Open where an operand is NaN (log 5). -/
def fMax (a b : F) : F :=
  if isNaN a || isNaN b then Config.maxOutside a b else if fLe b a then a else b

/-- `floorN(v)` for finite `v ≥ 0`: the greatest natural ≤ v. Open elsewhere (log 5). -/
def floorN (v : F) : Nat :=
  if isFinite v && fLe fZero v then fUnits v / 2 ^ 149 else Config.floorOutside v

/-- `fmodF(a, b)` for finite `a ≥ 0` and `b > 0`: the exact IEEE remainder with truncation. Elsewhere the result is open, but
for `b > 0` it too lies in [0, b), the range R11 gives a result and the phase rules rely on (42_oscillator.md R193,
46_ring_modulator.md R265): the free value where that lies there, else 0.0, so any value of the range is possible (log 5). -/
def fMod (a b : F) : F :=
  if isFinite a && isFinite b && fLe fZero a && fLt fZero b then
    fPack (fNeg a) (roundUnits (fUnits a % fUnits b) 1)
  else
    let r := Config.fmodOutside a b
    if fLt fZero b && !(fLe fZero r && fLt r b) then fZero else r

/-- `toF(n)`: a natural rounded to nearest-even. -/
def toF (n : Nat) : F := fPack false (roundUnits (n * 2 ^ 149) 1)

end Sys2Proof.Machine
end

