-- ==== Sys2Proof/Machine/Trig.lean ====
section
/-! DEFINITION. `sinF` and `tanF` (00_scope.md R7, R11). The reference is correct rounding of the real function; it is
computed here with 448 fraction bits by range reduction to [0, π/2) and the Taylor series, then rounded once. That 448
bits always decide the rounding is not proved (log 3). -/

namespace Sys2Proof.Machine

/-- Fraction bits of the fixed-point numbers below. -/
def trigBits : Nat := 448

/-- π with `trigBits` fraction bits, truncated. -/
def piFixed : Nat :=
  0x3243f6a8885a308d313198a2e03707344a4093822299f31d0082efa98ec4e6c89452821e638d01377be5466cf34e90c6cc0ac29b7c97c50dd

/-- The alternating series `t − t' + t'' − …` whose first term `t` has degree `j`; each next term is the one before
times r² / ((j+1)(j+2)). -/
def altSeries (r2 : Nat) : Nat → Nat → Nat → Nat
  | 0, _, _ => 0
  | fuel + 1, j, t => t - altSeries r2 fuel (j + 2) (t * r2 / (2 ^ trigBits * ((j + 1) * (j + 2))))

/-- sin r for fixed-point r in [0, π/2). -/
def sinFixed (r : Nat) : Nat := altSeries (r * r / 2 ^ trigBits) 60 1 r

/-- cos r for fixed-point r in [0, π/2). -/
def cosFixed (r : Nat) : Nat := altSeries (r * r / 2 ^ trigBits) 60 0 (2 ^ trigBits)

/-- sin and cos of `units · 2^-149`, each as a sign and a fixed-point magnitude. -/
def sinCosUnits (units : Nat) : (Bool × Nat) × (Bool × Nat) :=
  let x := units * 2 ^ (trigBits - 149)
  let k := 2 * x / piFixed
  let r := x - k * piFixed / 2
  match k % 4 with
  | 0 => ((false, sinFixed r), (false, cosFixed r))
  | 1 => ((false, cosFixed r), (true, sinFixed r))
  | 2 => ((true, sinFixed r), (true, cosFixed r))
  | _ => ((true, cosFixed r), (false, sinFixed r))

/-- The reference sine of a finite value; ±0.0 at ±0.0. -/
def sinReference (v : F) : F :=
  let s := (sinCosUnits (fUnits v)).1
  fPack (fNeg v != s.1) (roundUnits (s.2 * 2 ^ 149) (2 ^ trigBits))

/-- The reference tangent of a finite value; ±0.0 at ±0.0. -/
def tanReference (v : F) : F :=
  let sc := sinCosUnits (fUnits v)
  fPack (fNeg v != (sc.1.1 != sc.2.1)) (roundUnits (sc.1.2 * 2 ^ 149) sc.2.2)

/-- `sinF` of a configuration: total on finite inputs (R7), open on others (log 5). -/
def sinF (c : Config) (v : F) : F :=
  if isFinite v then
    match c.trig with
    | .reference => sinReference v
    | .custom => Config.customSin v
  else Config.sinOutside v

/-- `tanF` of a configuration: total on finite inputs (R7), open on others (log 5). -/
def tanF (c : Config) (v : F) : F :=
  if isFinite v then
    match c.trig with
    | .reference => tanReference v
    | .custom => Config.customTan v
  else Config.tanOutside v

end Sys2Proof.Machine
end

