-- ==== Sys2Proof/Machine/TestConfig.lean ====
section
/-! DEFINITION. TC1, the one configuration the spec gives values for (95_test_vectors.md section 1). It is a test
configuration, not a production one; `State.reset` carries it (log 1). -/

namespace Sys2Proof.Machine

/-- The triangle of TC1: `k < 64 ? −1 + k/32 : 3 − k/32`, exact in F. -/
def tc1Triangle (k : Nat) : F :=
  if k < 64 then fSub (fDiv (toF k) (toF 32)) fOne else fSub (toF 3) (fDiv (toF k) (toF 32))

/-- TC1. -/
def tc1 : Config where
  trig            := .reference
  numVoices       := 4
  maxChannels     := 2
  maxBlock        := 64
  respDepth       := 16
  fsMin           := 0x447A0000
  fsMax           := 0x48BB8000
  triRom          := (List.range 128).map tc1Triangle
  pulseHi         := 0x3F800000
  pulseLo         := 0xBF800000
  pwmWidth        := .constant 0x3F000000
  bendMin         := 0x3F000000
  bendMax         := 0x40000000
  glideMaxSeconds := 0x3F800000
  rmMinHz         := 0x00000000
  rmMaxHz         := 0x44000000
  rmFineHz        := 0x00000000
  rmFeedback      := 0x00000000
  filterMinCutoff := 0x41800000
  filterMaxCutoff := 0x46800000
  nyqEps          := 0x3F800000
  resMin          := 0x3E000000
  resMax          := 0x3FC00000
  lfoRom          := (List.range 128).map tc1Triangle
  lfoRateMin      := 0x00000000
  lfoRateMax      := 0x44000000
  lfoSweep        := .linear

end Sys2Proof.Machine
end

