-- ==== Sys2Proof/Machine/State.lean ====
section
/-! DEFINITION. The state of the block (10_state.md), grouped by unit as the spec groups it, and its power-on value. -/

namespace Sys2Proof.Machine

/-- FS and the constants INIT derives from it (10_state.md R35, 00_scope.md R8). -/
structure RateRegs where
  fs              : F
  envMaxSamples   : Nat
  glideMaxSamples : Nat
  lfoSpe          : F
  nyqLimit        : F
  deriving DecidableEq, Repr

/-- The voice-global parameters (10_state.md R34). -/
structure ParamRegs where
  attack  : F
  decay   : F
  sustain : F
  release : F
  bend    : F
  glide   : F
  deriving DecidableEq, Repr

/-- The ring-modulator registers (10_state.md R36, R49). -/
structure RmRegs where
  rate  : F
  incr  : F
  phase : F
  prev0 : F
  prev1 : F
  deriving DecidableEq, Repr

/-- The filter registers (10_state.md R37). -/
structure FilterRegs where
  cutoff     : F
  resonance  : F
  tempCutoff : F
  a1         : F
  a2         : F
  a3         : F
  b1         : F
  b2         : F
  deriving DecidableEq, Repr

/-- The LFO registers (10_state.md R39). -/
structure LfoRegs where
  en    : Bool
  rate  : F
  depth : F
  acc   : F
  deriving DecidableEq, Repr

/-- The filter delay registers of one channel, `FD[c]` (10_state.md R48). -/
structure Delay where
  in1  : F
  in2  : F
  out1 : F
  out2 : F
  deriving DecidableEq, Repr

/-- The envelope states of a slot (10_state.md R43, 43_envelope.md R210). -/
inductive EnvState
  | free
  | attack
  | decay
  | sustain
  | release
  deriving DecidableEq, Repr

/-- A voice slot `V[s]` (10_state.md R43). envLevel and regPos are derived, not stored. -/
structure Voice where
  state        : EnvState
  muted        : Bool
  glideEn      : Bool
  decayEn      : Bool
  freq         : F
  baseFreq     : F
  volume       : F
  phase        : F
  pwmCounter   : Word
  sustain      : F
  attackInc    : F
  decayInc     : F
  releaseInc   : F
  /-- The glide steps still to take (R230): the whole count, of which the u32 register glideRem is a view (log 12). -/
  glideRem     : Nat
  glideInc     : F
  glideTarget  : F
  attackValue  : F
  currentValue : F
  releaseValue : F
  deriving DecidableEq, Repr

/-- Buffer memory: the written bytes by bus address, in the canonical form `Memory.wf`. A byte with no entry reads as
`Memory.unlisted` (log 7, log 11). -/
abbrev Memory := List Host.Cell

/-- What a byte with no entry reads as (log 7). -/
def Memory.unlisted : Byte := 0x00

/-- The canonical form: addresses strictly rising, and no entry equal to what an unlisted byte reads as. -/
def Memory.wf : Memory → Bool
  | [] => true
  | [(_, v)] => v != Memory.unlisted
  | (a, v) :: (b, w) :: t => decide (a < b) && v != Memory.unlisted && Memory.wf ((b, w) :: t)

/-- The width of a host bus access, in bytes (log 16). -/
inductive Width
  | w1
  | w2
  | w4
  | w8
  deriving DecidableEq, Repr

/-- One host bus access (20_memory.md R84, 70_reset_and_hazards.md R369). -/
inductive HostAccess
  | read (addr : BitVec 32) (width : Width)
  | write (addr : BitVec 32) (width : Width) (data : BitVec 64)
  deriving DecidableEq, Repr

/-- The machine. `cfg`, `pending` and `replies` are the model's own fields: the configuration (log 1), the host accesses
still to come, oldest first (log 8), and the words host reads have returned, oldest first (log 9). -/
structure State where
  cfg     : Config
  status  : Word
  rate    : RateRegs
  params  : ParamRegs
  rm      : RmRegs
  filt    : FilterRegs
  lfo     : LfoRegs
  voices  : List Voice
  delays  : List Delay
  regList : List Nat
  fifo    : List Word
  buf     : Memory
  pending : List HostAccess
  replies : List (BitVec 64)
  deriving DecidableEq, Repr

/-- Why the machine stops with a fault: never. Every event is a defined transition that sets a STATUS bit, and none is
a trap, a stuck state or a hang (60_exceptions.md R337, R346; log 18). -/
inductive Fault
  deriving DecidableEq, Repr

/-- Why an instruction is refused. -/
inductive Refusal
  /-- Raised by `exec` for an instruction without a meaning; none is left. Safe: the run stops. -/
  | notModelled (mnemonic : String)
  deriving DecidableEq, Repr

/-- A delay register file entry of zeros (10_state.md R48). -/
def Delay.zero : Delay := { in1 := 0, in2 := 0, out1 := 0, out2 := 0 }

/-- A voice slot with every field at zero and state FREE (log 6). -/
def Voice.zero : Voice where
  state        := .free
  muted        := false
  glideEn      := false
  decayEn      := false
  freq         := 0
  baseFreq     := 0
  volume       := 0
  phase        := 0
  pwmCounter   := 0
  sustain      := 0
  attackInc    := 0
  decayInc     := 0
  releaseInc   := 0
  glideRem     := 0
  glideInc     := 0
  glideTarget  := 0
  attackValue  := 0
  currentValue := 0
  releaseValue := 0

/-- Power-on of a block with configuration `c` whose buffer memory happens to hold `buf` (10_state.md R68): STATUS = 0,
an empty response FIFO; the registers the spec leaves unspecified are zero, FREE or empty (log 6). -/
def State.powerOn (c : Config) (buf : Memory) : State where
  cfg     := c
  status  := 0
  rate    := { fs := 0, envMaxSamples := 0, glideMaxSamples := 0, lfoSpe := 0, nyqLimit := 0 }
  params  := { attack := 0, decay := 0, sustain := 0, release := 0, bend := 0, glide := 0 }
  rm      := { rate := 0, incr := 0, phase := 0, prev0 := 0, prev1 := 0 }
  filt    := { cutoff := 0, resonance := 0, tempCutoff := 0, a1 := 0, a2 := 0, a3 := 0, b1 := 0, b2 := 0 }
  lfo     := { en := false, rate := 0, depth := 0, acc := 0 }
  voices  := List.replicate c.numVoices Voice.zero
  delays  := List.replicate c.maxChannels Delay.zero
  regList := []
  fifo    := []
  buf     := buf
  pending := []
  replies := []

/-- The machine right after reset: power-on (70_reset_and_hazards.md R360), of the test configuration TC1 (log 1), with
every byte of BUF as an unlisted byte reads (log 7). -/
def State.reset : State := State.powerOn tc1 []

end Sys2Proof.Machine
end

