-- ==== Sys2Proof/Machine/Ops.lean ====
section
/-! DEFINITION. The named operations over memory and registers, raising an event, rejecting a command and responding. -/

namespace Sys2Proof.Machine

/-! ## Bounded loops -/

/-- `for i < n: s <- body i s`, in rising order of i (00_scope.md R13). -/
def forUpTo {σ : Type} : Nat → (Nat → σ → σ) → σ → σ
  | 0, _, s => s
  | n + 1, body, s => body n (forUpTo n body s)

/-! ## Memory -/

/-- The byte at an address. -/
def Memory.readByte : Memory → Nat → Byte
  | [], _ => Memory.unlisted
  | (b, w) :: t, a => if a = b then w else Memory.readByte t a

/-- Store one byte, keeping the canonical form. -/
def Memory.writeByte : Memory → Nat → Byte → Memory
  | [], a, v => if v = Memory.unlisted then [] else [(a, v)]
  | (b, w) :: t, a, v =>
    if a < b then (if v = Memory.unlisted then (b, w) :: t else (a, v) :: (b, w) :: t)
    else if a = b then (if v = Memory.unlisted then t else (b, v) :: t)
    else (b, w) :: Memory.writeByte t a v

/-- The 32-bit word whose little-endian bytes start at an address (20_memory.md R74). -/
def Memory.readWord (m : Memory) (a : Nat) : Word :=
  m.readByte (a + 3) ++ m.readByte (a + 2) ++ m.readByte (a + 1) ++ m.readByte a

/-- Store a 32-bit word as little-endian bytes (20_memory.md R74). -/
def Memory.writeWord (m : Memory) (a : Nat) (v : Word) : Memory :=
  (((m.writeByte a (v.extractLsb' 0 8)).writeByte (a + 1) (v.extractLsb' 8 8)).writeByte (a + 2)
    (v.extractLsb' 16 8)).writeByte (a + 3) (v.extractLsb' 24 8)

/-- BUF_BASE (20_memory.md R71). -/
def bufBase : Nat := 0x00010000

/-- The bus address of BUF[c][i] (20_memory.md R71). -/
def bufAddr (cfg : Config) (c i : Nat) : Nat := bufBase + 4 * (c * cfg.maxBlock + i)

/-- BUF[c][i] -/
def State.readBuf (s : State) (c i : Nat) : F := s.buf.readWord (bufAddr s.cfg c i)

/-- BUF[c][i] <- v -/
def State.writeBuf (s : State) (c i : Nat) (v : F) : State :=
  { s with buf := s.buf.writeWord (bufAddr s.cfg c i) v }

/-! ## Register files -/

/-- V[k]; a slot the block does not have reads as an all-zero slot (log 13). -/
def State.voice (s : State) (k : Nat) : Voice := s.voices.getD k Voice.zero

/-- V[k] <- v; discarded for a slot the block does not have. -/
def State.setVoice (s : State) (k : Nat) (v : Voice) : State := { s with voices := s.voices.set k v }

/-- FD[c]; a channel the block does not have reads as zeros (log 13). -/
def State.delay (s : State) (c : Nat) : Delay := s.delays.getD c Delay.zero

/-- FD[c] <- d; discarded for a channel the block does not have. -/
def State.setDelay (s : State) (c : Nat) (d : Delay) : State := { s with delays := s.delays.set c d }

/-- RM_PREV[c], c ∈ {0, 1} (10_state.md R36). -/
def RmRegs.prev (r : RmRegs) (c : Nat) : F := if c = 0 then r.prev0 else r.prev1

/-- RM_PREV[c] <- y, c ∈ {0, 1}. -/
def RmRegs.setPrev (r : RmRegs) (c : Nat) (y : F) : RmRegs :=
  if c = 0 then { r with prev0 := y } else { r with prev1 := y }

/-- V[k].state <- FREE; remove k from REG_LIST. The slot's other fields keep their values (10_state.md R44, R50). -/
def State.retire (s : State) (k : Nat) : State :=
  { s.setVoice k { s.voice k with state := .free } with regList := s.regList.erase k }

/-- `FD[c] <- 0` for every channel, `RM_PREV[0], RM_PREV[1] <- 0` and `REG_LIST <- empty`: what INIT and STOP_ALL share
(40_control.md R122, R124). -/
def State.silence (s : State) : State :=
  { s with
    delays := List.replicate s.cfg.maxChannels Delay.zero
    rm := { s.rm with prev0 := fZero, prev1 := fZero }
    regList := [] }

/-! ## Events, responses and rejections: what this block has in place of taking an exception (60_exceptions.md R337) -/

/-- The six error events (60_exceptions.md R330, R331). -/
inductive Event
  | badOp
  | nanArg
  | nonFinite
  | noInit
  | badAcc
  | respOvf
  deriving DecidableEq, Repr

/-- The cause code, which is the STATUS bit number (R330, R331). -/
def Event.code : Event → Nat
  | .badOp => 0
  | .nanArg => 1
  | .nonFinite => 2
  | .noInit => 3
  | .badAcc => 4
  | .respOvf => 5

/-- `raise E`: set the sticky bit and nothing else (00_scope.md R12, 60_exceptions.md R330, R335). -/
def State.raise (s : State) (e : Event) : State := { s with status := s.status ||| BitVec.twoPow 32 e.code }

/-- READY, STATUS bit 31 (10_state.md R33). -/
def State.ready (s : State) : Bool := s.status.getLsbD 31

/-- `respond(w)`: push to the FIFO, or drop the word and raise RESPOVF when it holds RESP_DEPTH words (10_state.md
R51). -/
def State.respond (s : State) (w : Word) : State :=
  if s.fifo.length < s.cfg.respDepth then { s with fifo := s.fifo ++ [w] } else s.raise .respOvf

/-- The response of a rejected command (30_encoding.md R106). -/
def rejectWord : Word := 0xFFFFFFFF

/-- `reject E`: raise E, ignore the command, and respond 0xFFFFFFFF if the opcode responds (00_scope.md R12). -/
def State.reject (s : State) (e : Event) (op : Opcode) : State :=
  if op.responds then (s.raise e).respond rejectWord else s.raise e

end Sys2Proof.Machine
end

