-- ==== Sys2Proof/Machine/Flags.lean ====
section
/-! DEFINITION. Every computation of STATUS bits and of the derived status words. -/

namespace Sys2Proof.Machine

/-- STATUS[5:0], the sticky bits (10_state.md R33). -/
def stickyMask : Word := 0x0000003F

/-- STATUS bit 31. -/
def readyMask : Word := 0x80000000

/-- STATUS after INIT: bits 5:0 cleared, READY set (40_control.md R122). -/
def initStatus (status : Word) : Word := (status &&& ~~~stickyMask) ||| readyMask

/-- STATUS after CLEAR_STATUS with this mask: only bits 5:0 of the mask act (40_control.md R125). -/
def clearedStatus (status mask : Word) : Word := status &&& ~~~(mask &&& stickyMask)

/-- Some sample of BUF[c][i], c < k, i < n, is NaN or ±Inf. -/
def State.regionNonFinite (s : State) (k n : Nat) : Bool :=
  (List.range k).any fun c => (List.range n).any fun i => !isFinite (s.readBuf c i)

/-- The channels a block command processes and `checkFinite` looks at: min(nc, 2) for RM_BLOCK, none when RM_RATE = 0.0
(60_exceptions.md R333). -/
def State.checkedChannels (s : State) (op : Opcode) (nc : Nat) : Nat :=
  match op with
  | .rmBlock => if fEq s.rm.rate fZero then 0 else min nc 2
  | _ => nc

/-- `checkFinite(op, nc, n)` (60_exceptions.md R333). -/
def State.checkFinite (s : State) (op : Opcode) (nc n : Nat) : State :=
  if s.regionNonFinite (s.checkedChannels op nc) n then s.raise .nonFinite else s

/-- ACTIVE_MASK: bit k is 1 iff V[k] is not FREE (10_state.md R40). -/
def State.activeMask (s : State) : Word :=
  BitVec.ofNat 32 ((List.range s.cfg.numVoices).foldl
    (fun m k => if (s.voice k).state = .free then m else m + 2 ^ k) 0)

/-- CONFIG = {MAX_BLOCK[15:0], MAX_CHANNELS[7:0], NUM_VOICES[7:0]} (10_state.md R41). -/
def configWord (c : Config) : Word :=
  BitVec.ofNat 16 c.maxBlock ++ BitVec.ofNat 8 c.maxChannels ++ BitVec.ofNat 8 c.numVoices

/-- The encoding of a slot's state (10_state.md R43). -/
def EnvState.code : EnvState → BitVec 3
  | .free => 0
  | .attack => 1
  | .decay => 2
  | .sustain => 3
  | .release => 4

/-- V_STATE (10_state.md R46). -/
def Voice.stateWord (v : Voice) : Word :=
  (0 : BitVec 21) ++ BitVec.ofBool v.decayEn ++ BitVec.ofBool v.glideEn ++ BitVec.ofBool v.muted ++ (0 : BitVec 5) ++
    v.state.code

end Sys2Proof.Machine
end

