-- ==== Sys2Proof/Machine/Operands.lean ====
section
/-! DEFINITION. Operands, the registers GET reads, and command acceptance (40_control.md R120). -/

namespace Sys2Proof.Machine

/-! ## Operand views (30_encoding.md R93): no field is extended, shifted or scaled -/

/-- An F operand: ARG taken as a binary32 pattern. -/
def operandF (f : Fields) : F := f.arg

/-- A u32 operand. -/
def operandU (f : Fields) : Word := f.arg

/-- The voice slot index of formats V, VF and VU. -/
def operandSlot (f : Fields) : Nat := f.slot.toNat

/-- The channel count nc of format B. -/
def operandChannels (f : Fields) : Nat := f.slot.toNat

/-- The block size n of format B. -/
def operandSize (f : Fields) : Nat := f.arg.toNat

/-! ## Registers read by GET (10_state.md R54) -/

/-- A boolean register read as a word. -/
def boolWord (b : Bool) : Word := if b then 1 else 0

/-- envLevel (10_state.md R45). -/
def Voice.envLevel (v : Voice) : F :=
  match v.state with
  | .attack => v.attackValue
  | .decay | .sustain => v.currentValue
  | .release => v.releaseValue
  | .free => fZero

/-- The u32 register glideRem of a count of steps still to take: the count modulo 2^32 (10_state.md R31). Where that is 0 and
steps are left, R44 rules the 0 out, and the register reads a free nonzero value (log 12). -/
def glideRegister (steps : Nat) : Word :=
  let wrapped := BitVec.ofNat 32 steps
  let free := Config.glideWrapped steps
  if steps ≠ 0 ∧ wrapped = 0 then (if free = 0 then 1 else free) else wrapped

/-- regPos: the slot's position in REG_LIST, 0 the oldest; 0xFFFFFFFF if FREE (10_state.md R43). -/
def State.regPos (s : State) (k : Nat) : Word :=
  if (s.voice k).state = .free then 0xFFFFFFFF else BitVec.ofNat 32 (s.regList.idxOf k)

/-- The value of a selector with SLOT = k (10_state.md R54). -/
def State.register (s : State) (k : Nat) : Selector → Word
  | .status => s.status
  | .fs => s.rate.fs
  | .attack => s.params.attack
  | .decay => s.params.decay
  | .sustain => s.params.sustain
  | .release => s.params.release
  | .bend => s.params.bend
  | .glide => s.params.glide
  | .rmRate => s.rm.rate
  | .rmIncr => s.rm.incr
  | .rmPhase => s.rm.phase
  | .rmPrev => s.rm.prev k
  | .cutoff => s.filt.cutoff
  | .resonance => s.filt.resonance
  | .tempCutoff => s.filt.tempCutoff
  | .lfoEn => boolWord s.lfo.en
  | .lfoRate => s.lfo.rate
  | .lfoDepth => s.lfo.depth
  | .lfoAcc => s.lfo.acc
  | .a1 => s.filt.a1
  | .a2 => s.filt.a2
  | .a3 => s.filt.a3
  | .b1 => s.filt.b1
  | .b2 => s.filt.b2
  | .fdIn1 => (s.delay k).in1
  | .fdIn2 => (s.delay k).in2
  | .fdOut1 => (s.delay k).out1
  | .fdOut2 => (s.delay k).out2
  | .activeMask => s.activeMask
  | .config => configWord s.cfg
  | .vState => (s.voice k).stateWord
  | .vFreq => (s.voice k).freq
  | .vBaseFreq => (s.voice k).baseFreq
  | .vVolume => (s.voice k).volume
  | .vPhase => (s.voice k).phase
  | .vPwmCnt => (s.voice k).pwmCounter
  | .vEnv => (s.voice k).envLevel
  | .vSustain => (s.voice k).sustain
  | .vAttackInc => (s.voice k).attackInc
  | .vDecayInc => (s.voice k).decayInc
  | .vReleaseInc => (s.voice k).releaseInc
  | .vGlideRem => glideRegister (s.voice k).glideRem
  | .vGlideInc => (s.voice k).glideInc
  | .vGlideTarget => (s.voice k).glideTarget
  | .vRegPos => s.regPos k
  | .vAttackVal => (s.voice k).attackValue
  | .vCurVal => (s.voice k).currentValue
  | .vRelVal => (s.voice k).releaseValue

/-! ## Sample counts -/

/-- `Samples(p, MAX) = max(1, floorN(p × toF(MAX)))` (41_voice.md R149). A zero duration takes one sample for every MAX
(44_portamento.md R236), one whose toF overflows, which makes the product a NaN, included (log 5). -/
def samples (p : F) (maxSamples : Nat) : Nat :=
  if fEq p fZero then 1 else max 1 (floorN (fMul p (toF maxSamples)))

/-! ## Acceptance -/

/-- The commands accepted while READY = 0: NOP, INIT, and GET with SLOT = 0 and ARG = 0 (40_control.md R120). -/
def allowedBeforeInit (op : Opcode) (f : Fields) : Bool :=
  match op with
  | .nop | .init => true
  | .get => f.slot == 0 && f.arg == 0
  | _ => false

/-- The first failing check of R120 after the opcode itself (60_exceptions.md R334); `none` if the command runs. -/
def State.rejection (s : State) (op : Opcode) (f : Fields) : Option Event :=
  if !s.ready && !allowedBeforeInit op f then some .noInit
  else if f.rsv != 0 then some .badOp
  else if !formatOK s.cfg op f then some .badOp
  else if op.hasFOperand && isNaN (operandF f) then some .nanArg
  else none

/-- The opcodes after which `checkFinite` runs (40_control.md R120). -/
def isBlockCommand : Opcode → Bool
  | .synthBlock | .rmBlock | .filtBlock => true
  | _ => false

/-- `execute(w)` once the opcode is known (40_control.md R120): the checks, then `perform`, then the non-finite check
of a block command. It always completes (60_exceptions.md R346). -/
def accept (op : Opcode) (f : Fields) (s : State) (perform : State → State) : Host.Outcome State Fault Refusal :=
  .next (match s.rejection op f with
    | some e => s.reject e op
    | none =>
      if isBlockCommand op then (perform s).checkFinite op (operandChannels f) (operandSize f) else perform s)

end Sys2Proof.Machine
end

