-- ==== Sys2Proof/Machine/Bus.lean ====
section
/-! DEFINITION. Host bus accesses (20_memory.md R71–R74, R84) and the rejection of a reserved opcode. -/

namespace Sys2Proof.Machine

/-- The size of an access in bytes. -/
def Width.bytes : Width → Nat
  | .w1 => 1
  | .w2 => 2
  | .w4 => 4
  | .w8 => 8

/-- The locations of the host bus map (R71). -/
inductive Location
  | cmd
  | resp
  | respCount
  | statusMirror
  | buf (c i : Nat)
  deriving DecidableEq, Repr

/-- The location that holds a byte address; `none` for a reserved or unmapped address (R71). -/
def locate (cfg : Config) (a : Nat) : Option Location :=
  if a < 0x8 then some .cmd
  else if a < 0xC then some .resp
  else if a < 0x10 then some .respCount
  else if a < 0x14 then some .statusMirror
  else if a < bufBase then none
  else
    let k := (a - bufBase) / 4
    if k < cfg.maxChannels * cfg.maxBlock then some (.buf (k / cfg.maxBlock) (k % cfg.maxBlock)) else none

/-- The width of a location in bytes (R71). -/
def Location.bytes : Location → Nat
  | .cmd => 8
  | _ => 4

/-- What a read may address: everything but CMD (R71). -/
def Location.readable : Location → Bool
  | .cmd => false
  | _ => true

/-- What a write may address: CMD and BUF (R71). -/
def Location.writable : Location → Bool
  | .cmd | .buf _ _ => true
  | _ => false

/-- The location an aligned access of the location's own width addresses (the first, second and fourth conditions of
R73). -/
def target (cfg : Config) (addr : BitVec 32) (w : Width) : Option Location :=
  match locate cfg addr.toNat with
  | some l => if w.bytes = l.bytes ∧ addr.toNat % w.bytes = 0 then some l else none
  | none => none

/-- A refused read: BADACC, and the host gets 0 (R73). -/
def refusedRead (s : State) : BitVec 64 × State := (0, s.raise .badAcc)

/-- `MemRead` (R84): the word the host gets, zero-extended, and the state after. Only a RESP read has a side effect
(R72, R78). -/
def hostRead (addr : BitVec 32) (w : Width) (s : State) : BitVec 64 × State :=
  match target s.cfg addr w with
  | some .resp =>
    match s.fifo with
    | word :: rest => (word.setWidth 64, { s with fifo := rest })
    | [] => refusedRead s
  | some .respCount => (BitVec.ofNat 64 (s.fifo.length % 2 ^ 32), s)
  | some .statusMirror => (s.status.setWidth 64, s)
  | some (.buf c i) => ((s.readBuf c i).setWidth 64, s)
  | some .cmd => refusedRead s
  | none => refusedRead s

/-- The command a write carries, if it is a write of one command word to CMD (R71). -/
def commandOf (cfg : Config) : HostAccess → Option CommandWord
  | .read _ _ => none
  | .write addr w data => if target cfg addr w = some .cmd then some data else none

/-- `MemWrite` to anything but CMD (R84): a BUF write stores the pattern exactly; anything else is refused with BADACC
and changes nothing else (R73, R85). -/
def hostWrite (addr : BitVec 32) (w : Width) (data : BitVec 64) (s : State) : State :=
  match target s.cfg addr w with
  | some (.buf c i) => s.writeBuf c i (data.setWidth 32)
  | _ => s.raise .badAcc

/-- A host access that carries no command; a read's result goes to `replies` (log 9). -/
def busAccess (a : HostAccess) (s : State) : State :=
  match a with
  | .read addr w =>
    let r := hostRead addr w s
    { r.2 with replies := r.2.replies ++ [r.1] }
  | .write addr w data => hostWrite addr w data s

/-- A command with a reserved opcode: BADOP, nothing else, and no response word (30_encoding.md R96, R120). -/
def rejectReserved (s : State) : State := s.raise .badOp

/-- The host access that writes a command word to CMD. -/
def commandWrite (w : CommandWord) : HostAccess := .write 0 .w8 w

end Sys2Proof.Machine
end

