-- ==== Sys2Proof/Machine/Lfo.lean ====
section
/-! DEFINITION. The LFO (48_lfo.md): SET_LFO_RATE, SET_LFO_DEPTH, LFO_PEEK. -/

namespace Sys2Proof.Machine

/-- The table index of an accumulator value (R313). -/
def lfoIndex (lfoSpe acc : F) : Nat := min 127 (floorN (fDiv acc lfoSpe))

/-- The accumulator after one advance: one subtraction of FS wraps it (R313). DESIGN CHOICE (log 20): where the sum of R313
overflows to +Inf, which takes an FS above 2^127, the pseudocode is followed and LFO_ACC stays +Inf, outside the [0.0, FS] that
R314 derives; and where LFO_RATE is below half an ulp of the sum (log 21) LFO_ACC stays as it is, whatever period R315
derives. -/
def lfoAdvance (fs rate acc : F) : F :=
  let sum := fAdd acc rate
  if fLe fs sum then fSub sum fs else sum

/-- `LfoPeek()` (R313): the current table entry, and the state with the accumulator advanced. -/
def lfoPeek (s : State) : F × State :=
  (s.cfg.lfoRom.getD (lfoIndex s.rate.lfoSpe s.lfo.acc) fZero,
    { s with lfo := { s.lfo with acc := lfoAdvance s.rate.fs s.lfo.rate s.lfo.acc } })

/-- SET_LFO_RATE (R310). -/
def execSetLfoRate (f : Fields) (s : State) : Host.Outcome State Fault Refusal :=
  accept .setLfoRate f s fun s =>
    { s with lfo := { s.lfo with rate := fClamp (operandF f) s.cfg.lfoRateMin s.cfg.lfoRateMax } }

/-- SET_LFO_DEPTH (R311). -/
def execSetLfoDepth (f : Fields) (s : State) : Host.Outcome State Fault Refusal :=
  accept .setLfoDepth f s fun s => { s with lfo := { s.lfo with depth := fClamp (operandF f) fZero fOne } }

/-- LFO_PEEK (R312). -/
def execLfoPeek (f : Fields) (s : State) : Host.Outcome State Fault Refusal :=
  accept .lfoPeek f s fun s => (lfoPeek s).2.respond (lfoPeek s).1

end Sys2Proof.Machine
end

