-- ==== Sys2Proof/Machine/Filter.lean ====
section
/-! DEFINITION. The two-pole resonant filter (47_filter.md): SET_CUTOFF, SET_RESONANCE, SET_LFO_ENABLE, FILT_BLOCK. -/

namespace Sys2Proof.Machine

/-- The five coefficients of `FilterCoeffs` (R280). -/
structure Coeffs where
  a1 : F
  a2 : F
  a3 : F
  b1 : F
  b2 : F
  deriving DecidableEq, Repr

/-- `FilterCoeffs(f, r)` at sample rate `fs` (R280). DESIGN CHOICE (log 20): where an operation overflows or underflows, which
takes sample rates near the ends of binary32, the pseudocode is followed, whatever R282 derives of the argument and the
coefficients. -/
def filterCoeffs (cfg : Config) (fs f r : F) : Coeffs :=
  let c := fDiv fOne (tanF cfg (fDiv (fMul fPi f) fs))
  let a1 := fDiv fOne (fAdd (fAdd fOne (fMul r c)) (fMul c c))
  { a1 := a1
    a2 := fMul fTwo a1
    a3 := a1
    b1 := fMul (fMul fTwo (fSub fOne (fMul c c))) a1
    b2 := fMul (fAdd (fSub fOne (fMul r c)) (fMul c c)) a1 }

/-- `UpdateCoeffs()` (R281). -/
def updateCoeffs (cfg : Config) (fs : F) (x : FilterRegs) : FilterRegs :=
  let k := filterCoeffs cfg fs x.tempCutoff x.resonance
  { x with a1 := k.a1, a2 := k.a2, a3 := k.a3, b1 := k.b1, b2 := k.b2 }

/-- `LFO_SWEEP` of a configuration; the default of R294. -/
def lfoSweep (cfg : Config) (u depth cmin cmax : F) : F :=
  match cfg.lfoSweep with
  | .linear => fAdd cmin (fMul (fMul u depth) (fSub cmax cmin))
  | .custom => Config.customSweep u depth cmin cmax

/-- The swept cutoff for LFO value v (R289). -/
def sweptCutoff (s : State) (v : F) : F :=
  let u := fMul (fAdd v fOne) fHalf
  fClamp (lfoSweep s.cfg u s.lfo.depth s.cfg.filterMinCutoff (fMul s.rate.nyqLimit fHalf))
    s.cfg.filterMinCutoff s.rate.nyqLimit

/-- `SweepStep()` (R289). -/
def sweepStep (s : State) : State :=
  let p := lfoPeek s
  { p.2 with
    filt := updateCoeffs s.cfg s.rate.fs { s.filt with tempCutoff := sweptCutoff s p.1 } }

/-- The output of `FilterStep` for input x (R287); the evaluation order is normative. -/
def filterOutput (k : FilterRegs) (d : Delay) (x : F) : F :=
  fSub (fSub (fAdd (fAdd (fMul k.a1 x) (fMul k.a2 d.in1)) (fMul k.a3 d.in2)) (fMul k.b1 d.out1)) (fMul k.b2 d.out2)

/-- The delay registers after `FilterStep` (R287). -/
def Delay.shift (d : Delay) (x y : F) : Delay := { in1 := x, in2 := d.in1, out1 := y, out2 := d.out1 }

/-- Frame i of channel c: BUF[c][i] <- FilterStep(c, BUF[c][i]) (R287, R288). -/
def filtChannel (i c : Nat) (s : State) : State :=
  let x := s.readBuf c i
  let y := filterOutput s.filt (s.delay c) x
  (s.setDelay c ((s.delay c).shift x y)).writeBuf c i y

/-- Frame i: one sweep step while LFO_EN = 1, then every channel (R288, R290). -/
def filtFrame (nc i : Nat) (s : State) : State :=
  forUpTo nc (filtChannel i) (if s.lfo.en then sweepStep s else s)

/-- SET_CUTOFF (R284). -/
def execSetCutoff (f : Fields) (s : State) : Host.Outcome State Fault Refusal :=
  accept .setCutoff f s fun s =>
    let v := fClamp (operandF f) s.cfg.filterMinCutoff s.rate.nyqLimit
    { s with filt := updateCoeffs s.cfg s.rate.fs { s.filt with cutoff := v, tempCutoff := v } }

/-- SET_RESONANCE (R285). -/
def execSetResonance (f : Fields) (s : State) : Host.Outcome State Fault Refusal :=
  accept .setResonance f s fun s =>
    let r := fClamp (operandF f) s.cfg.resMin s.cfg.resMax
    { s with filt := updateCoeffs s.cfg s.rate.fs { s.filt with resonance := r } }

/-- SET_LFO_ENABLE (R286): enabling resets nothing; disabling restores the static cutoff. -/
def execSetLfoEnable (f : Fields) (s : State) : Host.Outcome State Fault Refusal :=
  accept .setLfoEnable f s fun s =>
    if operandU f = 0 then
      { s with
        lfo := { s.lfo with en := false }
        filt := updateCoeffs s.cfg s.rate.fs { s.filt with tempCutoff := s.filt.cutoff } }
    else { s with lfo := { s.lfo with en := true } }

/-- FILT_BLOCK (R288). -/
def execFiltBlock (f : Fields) (s : State) : Host.Outcome State Fault Refusal :=
  accept .filtBlock f s (forUpTo (operandSize f) (filtFrame (operandChannels f)))

end Sys2Proof.Machine
end

