-- ==== Sys2Proof/Machine/RingModulator.lean ====
section
/-! DEFINITION. The ring modulator (46_ring_modulator.md): SET_RM_RATE, RM_BLOCK. -/

namespace Sys2Proof.Machine

/-- `RmIncr(r)` at sample rate `fs` (R262). DESIGN CHOICE (log 20): an operation that overflows leaves RM_INCR = +Inf, which R265
takes to be finite; RM_PHASE then steps to a free value of its range (log 5). The Hz value can round past RM_MAX_HZ (log 21). -/
def rmIncr (c : Config) (fs r : F) : F :=
  let hz := fAdd (fAdd c.rmMinHz (fMul r (fSub c.rmMaxHz c.rmMinHz))) c.rmFineHz
  fDiv (fMul fTwoPi (fMax fZero hz)) fs

/-- `Carrier(phase)` (R263). -/
def carrier (c : Config) (phase : F) : F := if fLe fZero (sinF c phase) then fHalf else fMinusHalf

/-- Frame i of channel c with carrier m: sample, feedback and RM_PREV (R265, R266). DESIGN CHOICE (log 21): R265's formula is
evaluated in F. So an infinite RM_PREV makes a NaN with RM_FEEDBACK = 0.0, where R266 takes the feedback term to be a signed
zero; and large finite samples can overflow with |RM_FEEDBACK| < 1, where R267 derives that the output stays finite. -/
def rmChannel (m : F) (i c : Nat) (s : State) : State :=
  let y := fAdd (fMul (s.readBuf c i) m) (fMul s.cfg.rmFeedback (s.rm.prev c))
  { s.writeBuf c i y with rm := s.rm.setPrev c y }

/-- Frame i: one carrier for its k channels, read before the phase steps (R265). -/
def rmFrame (k i : Nat) (s : State) : State :=
  let s' := forUpTo k (rmChannel (carrier s.cfg s.rm.phase) i) s
  { s' with rm := { s'.rm with phase := fMod (fAdd s'.rm.phase s'.rm.incr) fTwoPi } }

/-- `RmApply(nc, n)` (R265); a zero rate is the bypass (R261). -/
def rmApply (nc n : Nat) (s : State) : State :=
  if fEq s.rm.rate fZero then s else forUpTo n (rmFrame (min nc 2)) s

/-- SET_RM_RATE (R260). -/
def execSetRmRate (f : Fields) (s : State) : Host.Outcome State Fault Refusal :=
  accept .setRmRate f s fun s =>
    let r := fClamp (operandF f) fZero fOne
    { s with rm := { s.rm with rate := r, incr := rmIncr s.cfg s.rate.fs r } }

/-- RM_BLOCK (R264). -/
def execRmBlock (f : Fields) (s : State) : Host.Outcome State Fault Refusal :=
  accept .rmBlock f s (rmApply (operandChannels f) (operandSize f))

end Sys2Proof.Machine
end

