-- ==== Sys2Proof/Machine/Control.lean ====
section
/-! DEFINITION. The control commands (40_control.md): NOP, INIT, STOP_ALL, CLEAR_STATUS, GET. -/

namespace Sys2Proof.Machine

/-- FS and the constants derived from it (00_scope.md R8, 40_control.md R122). -/
def rateRegsOf (c : Config) (fs : F) : RateRegs where
  fs              := fs
  envMaxSamples   := floorN fs
  glideMaxSamples := floorN (fMul c.glideMaxSeconds fs)
  lfoSpe          := fDiv fs f128
  nyqLimit        := fMin c.filterMaxCutoff (fSub (fDiv fs fTwo) c.nyqEps)

/-- The INIT values of the voice-global parameters (10_state.md R34). -/
def initParams : ParamRegs where
  attack  := fZero
  decay   := fZero
  sustain := fOne
  release := fZero
  bend    := fOne
  glide   := fZero

/-- The INIT values of the filter registers at sample rate `fs` (10_state.md R37). -/
def initFilter (c : Config) (r : RateRegs) : FilterRegs :=
  updateCoeffs c r.fs
    { cutoff := r.nyqLimit, resonance := c.resMin, tempCutoff := r.nyqLimit, a1 := 0, a2 := 0, a3 := 0, b1 := 0, b2 := 0 }

/-- The reset column of 10_state.md R43. -/
def initVoice : Voice := { Voice.zero with volume := fOne }

/-- The registers after INIT at sample rate `fs` (R122). BUF and the response FIFO are not touched. -/
def initState (fs : F) (s : State) : State :=
  { s.silence with
    rate := rateRegsOf s.cfg fs
    params := initParams
    rm := { rate := fZero, incr := rmIncr s.cfg fs fZero, phase := fZero, prev0 := fZero, prev1 := fZero }
    filt := initFilter s.cfg (rateRegsOf s.cfg fs)
    lfo := { en := false, rate := s.cfg.lfoRateMin, depth := fZero, acc := fZero }
    voices := List.replicate s.cfg.numVoices initVoice
    status := initStatus s.status }

/-- NOP (R129). -/
def execNop (f : Fields) (s : State) : Host.Outcome State Fault Refusal := accept .nop f s fun s => s

/-- INIT (R122). -/
def execInit (f : Fields) (s : State) : Host.Outcome State Fault Refusal :=
  accept .init f s fun s => initState (fClamp (operandF f) s.cfg.fsMin s.cfg.fsMax) s

/-- STOP_ALL (R124): every slot FREE, its other fields kept; the delay state to silence. -/
def execStopAll (f : Fields) (s : State) : Host.Outcome State Fault Refusal :=
  accept .stopAll f s fun s => { s.silence with voices := s.voices.map fun v => { v with state := .free } }

/-- CLEAR_STATUS (R125). -/
def execClearStatus (f : Fields) (s : State) : Host.Outcome State Fault Refusal :=
  accept .clearStatus f s fun s => { s with status := clearedStatus s.status (operandU f) }

/-- GET (R126). -/
def execGet (f : Fields) (s : State) : Host.Outcome State Fault Refusal :=
  accept .get f s fun s =>
    match f.selector with
    | some r => s.respond (s.register (operandSlot f) r)
    | none => s

end Sys2Proof.Machine
end

