-- ==== Sys2Proof/Machine/Envelope.lean ====
section
/-! DEFINITION. The ADSR envelope generator (43_envelope.md). -/

namespace Sys2Proof.Machine

/-- What `EnvStep` gives: the slot after the step, the amplitude, and `alive` (R212). -/
structure EnvResult where
  voice : Voice
  amp   : F
  alive : Bool
  deriving DecidableEq, Repr

/-- The ATTACK step: at 1.0 the value is capped and DECAY or SUSTAIN begins (R212). -/
def envAttack (v : Voice) : EnvResult :=
  let level := fAdd v.attackValue v.attackInc
  if fLe fOne level then
    let v := { v with attackValue := fOne }
    if v.decayEn then ⟨{ v with state := .decay, currentValue := fOne }, fOne, true⟩
    else ⟨{ v with state := .sustain, currentValue := v.sustain }, fOne, true⟩
  else ⟨{ v with attackValue := level }, level, true⟩

/-- The DECAY step: at or below the sustain level it snaps there and SUSTAIN begins (R212). -/
def envDecay (v : Voice) : EnvResult :=
  let level := fSub v.currentValue v.decayInc
  if fLe level v.sustain then ⟨{ v with currentValue := v.sustain, state := .sustain }, v.sustain, true⟩
  else ⟨{ v with currentValue := level }, level, true⟩

/-- The RELEASE step: a negative value ends the voice (R212, R216). DESIGN CHOICE (log 21): a step below half an ulp of the
value, or of 0.0, leaves the value as it is, and such a release does not end, whatever R218 derives. -/
def envRelease (v : Voice) : EnvResult :=
  let level := fSub v.releaseValue v.releaseInc
  let v := { v with releaseValue := level }
  if fLt level fZero then ⟨v, fZero, false⟩ else ⟨v, level, true⟩

/-- `EnvStep` (R212). It is never called on a FREE slot; there it changes nothing (log 13). -/
def envStep (v : Voice) : EnvResult :=
  match v.state with
  | .attack => envAttack v
  | .decay => envDecay v
  | .sustain => ⟨v, v.currentValue, true⟩
  | .release => envRelease v
  | .free => ⟨v, fZero, true⟩

end Sys2Proof.Machine
end

