-- ==== Sys2Proof/Machine/Glide.lean ====
section
/-! DEFINITION. The portamento linear interpolator (44_portamento.md). -/

namespace Sys2Proof.Machine

/-- `GlideStep` (R231): add the increment; on the last step snap to the target and stop. The count is exact, so a glide of N
steps takes N samples whatever N is (R232, 90_conflicts.md C11). -/
def glideStep (v : Voice) : Voice :=
  if v.glideEn then
    let v := { v with freq := fAdd v.freq v.glideInc, glideRem := v.glideRem - 1 }
    if v.glideRem = 0 then { v with freq := v.glideTarget, glideEn := false } else v
  else v

end Sys2Proof.Machine
end

