-- ==== Sys2Proof/Machine/Oscillator.lean ====
section
/-! DEFINITION. The oscillator: phase accumulator and waveform lookup (42_oscillator.md). -/

namespace Sys2Proof.Machine

/-- The waveforms (R191). -/
inductive Wave
  | pulse
  | triangle
  deriving DecidableEq, Repr

/-- `WaveSel` (R191): pulse when RM_RATE = 0.0, −0.0 included. -/
def waveSel (rm : RmRegs) : Wave := if fEq rm.rate fZero then .pulse else .triangle

/-- `PWM_WIDTH` of a configuration (R195). -/
def pwmWidthAt (c : Config) (counter : Word) : F :=
  match c.pwmWidth with
  | .constant w => w
  | .custom => Config.customPwmWidth counter

/-- The triangle ROM index of a phase (R194). -/
def triIndex (c : Config) (phase : F) : Nat := min (c.triRom.length - 1) (floorN (fMul phase (toF c.triRom.length)))

/-- The raw sample at the slot's phase, before the advance (R192). -/
def oscOutput (c : Config) (wave : Wave) (v : Voice) : F :=
  match wave with
  | .pulse => if fLt v.phase (pwmWidthAt c v.pwmCounter) then c.pulseHi else c.pulseLo
  | .triangle => c.triRom.getD (triIndex c v.phase) fZero

/-- The advance of phase and pwmCounter by one sample (R192, R193). Where an overshooting glide (44_portamento.md R233) makes
the sum negative, or freq × BEND overflows, fmodF is open and the new phase is a free value of [0, 1) (log 5). DESIGN CHOICE
(log 21): the sum is rounded as R10 says, so an increment of exactly 1.0 can change the low bits of the phase, which R193 calls
unchanged. -/
def oscAdvance (fs bend : F) (v : Voice) : Voice :=
  { v with
    pwmCounter := v.pwmCounter + 1
    phase := fMod (fAdd v.phase (fDiv (fMul v.freq bend) fs)) fOne }

end Sys2Proof.Machine
end

