-- ==== Sys2Proof/Machine/Render.lean ====
section
/-! DEFINITION. Voice render (45_render.md): SYNTH_BLOCK. -/

namespace Sys2Proof.Machine

/-- One sample of a slot (R241): what the slot becomes, whether it is still alive, and the sample it adds to every
channel, if any. -/
structure SlotSample where
  voice : Voice
  alive : Bool
  adds  : Option F
  deriving DecidableEq, Repr

/-- One sample of a slot: glide, oscillator, envelope, then the two scalings; a muted slot runs only its envelope, and
the sample on which the envelope dies adds nothing (R241–R243). -/
def slotSample (c : Config) (fs bend : F) (wave : Wave) (v : Voice) : SlotSample :=
  if v.muted then
    let r := envStep v
    { voice := r.voice, alive := r.alive, adds := none }
  else
    let g := glideStep v
    let r := envStep (oscAdvance fs bend g)
    { voice := r.voice
      alive := r.alive
      adds := if r.alive then some (fMul (fMul (oscOutput c wave g) r.amp) r.voice.volume) else none }

/-- BUF[c][i] <- BUF[c][i] + y for every channel c < nc (R241). -/
def addToChannels (nc i : Nat) (y : F) (s : State) : State :=
  forUpTo nc (fun c s => s.writeBuf c i (fAdd (s.readBuf c i) y)) s

/-- Sample i of slot k, unless the slot has died in this block (R241, R243). -/
def renderSample (k nc : Nat) (wave : Wave) (i : Nat) (p : State × Bool) : State × Bool :=
  if p.2 then
    let r := slotSample p.1.cfg p.1.rate.fs p.1.params.bend wave (p.1.voice k)
    let s := p.1.setVoice k r.voice
    match r.adds with
    | some y => (addToChannels nc i y s, r.alive)
    | none => (s, r.alive)
  else p

/-- `RenderSlot(s, nc, n, wave, dispose)` (R241): the state after it, and false when the slot is marked for disposal. A
muted, unreleased slot is frozen (R242). -/
def renderSlot (nc n : Nat) (wave : Wave) (k : Nat) (s : State) : State × Bool :=
  if (s.voice k).muted && (s.voice k).state != .release then (s, true)
  else forUpTo n (renderSample k nc wave) (s, true)

/-- Render slots one after another, collecting the ones to dispose (R240, R244). -/
def renderSlots (nc n : Nat) (wave : Wave) : List Nat → State → State × List Nat
  | [], s => (s, [])
  | k :: ks, s =>
    let r := renderSlot nc n wave k s
    let rest := renderSlots nc n wave ks r.1
    (rest.1, if r.2 then rest.2 else k :: rest.2)

/-- Free every slot marked for disposal (R245). -/
def disposeSlots (ks : List Nat) (s : State) : State := ks.foldl State.retire s

/-- `for c < nc: for i < n: BUF[c][i] <- +0.0` (R240). -/
def clearRegion (nc n : Nat) (s : State) : State :=
  forUpTo nc (fun c s => forUpTo n (fun i s => s.writeBuf c i fZero) s) s

/-- The body of SYNTH_BLOCK (R240): newest slot first, disposal, ring modulator, response. -/
def synthBlock (nc n : Nat) (s : State) : State :=
  let s := clearRegion nc n s
  if s.regList = [] then s.respond 0
  else
    let r := renderSlots nc n (waveSel s.rm) s.regList.reverse s
    (rmApply nc n (disposeSlots r.2 r.1)).respond 1

/-- SYNTH_BLOCK (R240). -/
def execSynthBlock (f : Fields) (s : State) : Host.Outcome State Fault Refusal :=
  accept .synthBlock f s (synthBlock (operandChannels f) (operandSize f))

end Sys2Proof.Machine
end

