-- ==== Sys2Proof/Machine/Voices.lean ====
section
/-! DEFINITION. The voice-global parameters and the voice slot commands (41_voice.md). -/

namespace Sys2Proof.Machine

/-! ## Parameters -/

/-- SET_ATTACK (R150). -/
def execSetAttack (f : Fields) (s : State) : Host.Outcome State Fault Refusal :=
  accept .setAttack f s fun s => { s with params := { s.params with attack := fClamp (operandF f) fZero fOne } }

/-- SET_DECAY (R151). -/
def execSetDecay (f : Fields) (s : State) : Host.Outcome State Fault Refusal :=
  accept .setDecay f s fun s => { s with params := { s.params with decay := fClamp (operandF f) fZero fOne } }

/-- SET_SUSTAIN (R152). -/
def execSetSustain (f : Fields) (s : State) : Host.Outcome State Fault Refusal :=
  accept .setSustain f s fun s => { s with params := { s.params with sustain := fClamp (operandF f) fZero fOne } }

/-- SET_RELEASE (R153). -/
def execSetRelease (f : Fields) (s : State) : Host.Outcome State Fault Refusal :=
  accept .setRelease f s fun s => { s with params := { s.params with release := fClamp (operandF f) fZero fOne } }

/-- SET_PITCH_BEND (R154). -/
def execSetPitchBend (f : Fields) (s : State) : Host.Outcome State Fault Refusal :=
  accept .setPitchBend f s fun s =>
    { s with params := { s.params with bend := fClamp (operandF f) s.cfg.bendMin s.cfg.bendMax } }

/-- SET_GLIDE (R155). -/
def execSetGlide (f : Fields) (s : State) : Host.Outcome State Fault Refusal :=
  accept .setGlide f s fun s => { s with params := { s.params with glide := fClamp (operandF f) fZero fOne } }

/-! ## Slots -/

/-- A frequency operand, clamped to [0, FS/2] (R160, R165, R168). -/
def clampFreq (s : State) (f : Fields) : F := fClamp (operandF f) fZero (fDiv s.rate.fs fTwo)

/-- The slot VOICE_START leaves, at base frequency `freq` (R160); volume is kept. -/
def startedVoice (p : ParamRegs) (envMax : Nat) (freq : F) (v : Voice) : Voice :=
  let decayEn := fLt fZero p.decay && fLt p.sustain fOne
  { v with
    baseFreq := freq
    freq := freq
    phase := fZero
    pwmCounter := 0
    glideEn := false
    glideRem := 0
    glideInc := fZero
    glideTarget := freq
    muted := false
    sustain := p.sustain
    attackInc := fDiv fOne (toF (samples p.attack envMax))
    decayInc := fDiv (fSub fOne p.sustain) (toF (samples p.decay envMax))
    decayEn := decayEn
    attackValue := fZero
    releaseInc := fZero
    releaseValue := fZero
    state := if fLt fZero p.attack then .attack else if decayEn then .decay else .sustain
    currentValue := if fLt fZero p.attack then fZero else if decayEn then fOne else p.sustain }

/-- VOICE_START (R160): a voice already in the slot is retired and the slot becomes the newest of REG_LIST. -/
def execVoiceStart (f : Fields) (s : State) : Host.Outcome State Fault Refusal :=
  accept .voiceStart f s fun s =>
    let k := operandSlot f
    let kept := if (s.voice k).state = .free then s.regList else s.regList.erase k
    { s.setVoice k (startedVoice s.params s.rate.envMaxSamples (clampFreq s f) (s.voice k)) with
      regList := kept ++ [k] }

/-- The slot VOICE_RELEASE leaves when it does not retire it (R162). DESIGN CHOICE (log 20): the quotient can underflow to 0.0,
which is no legal value of releaseInc (10_state.md R43). -/
def releasedVoice (p : ParamRegs) (envMax : Nat) (v : Voice) : Voice :=
  { v with
    releaseInc := fDiv v.sustain (toF (samples p.release envMax))
    releaseValue := v.sustain
    state := .release }

/-- VOICE_RELEASE (R162). -/
def execVoiceRelease (f : Fields) (s : State) : Host.Outcome State Fault Refusal :=
  accept .voiceRelease f s fun s =>
    let k := operandSlot f
    let v := s.voice k
    if v.state = .free ∨ v.state = .release then s
    else if fEq s.params.release fZero || fEq v.sustain fZero then s.retire k
    else s.setVoice k (releasedVoice s.params s.rate.envMaxSamples v)

/-- VOICE_KILL (R164). -/
def execVoiceKill (f : Fields) (s : State) : Host.Outcome State Fault Refusal :=
  accept .voiceKill f s fun s =>
    let k := operandSlot f
    if (s.voice k).state = .free then s else s.retire k

/-- VOICE_SET_FREQ (R165): it cancels a glide. -/
def execVoiceSetFreq (f : Fields) (s : State) : Host.Outcome State Fault Refusal :=
  accept .voiceSetFreq f s fun s =>
    let k := operandSlot f
    s.setVoice k { s.voice k with freq := clampFreq s f, glideEn := false, glideRem := 0 }

/-- VOICE_SET_VOLUME (R166). -/
def execVoiceSetVolume (f : Fields) (s : State) : Host.Outcome State Fault Refusal :=
  accept .voiceSetVolume f s fun s =>
    let k := operandSlot f
    s.setVoice k { s.voice k with volume := fClamp (operandF f) fZero fOne }

/-- VOICE_SET_MUTE (R167): any nonzero ARG mutes. -/
def execVoiceSetMute (f : Fields) (s : State) : Host.Outcome State Fault Refusal :=
  accept .voiceSetMute f s fun s =>
    let k := operandSlot f
    s.setVoice k { s.voice k with muted := operandU f != 0 }

/-- The slot VOICE_GLIDE leaves, for target t and N steps (R168); the count is kept whole (log 12). DESIGN CHOICE (log 20): the
quotient can underflow to ±0.0, so a downward glide can have a glideInc of −0.0, where R168 says that it is below 0. -/
def glidingVoice (t : F) (steps : Nat) (v : Voice) : Voice :=
  { v with
    glideTarget := t
    glideInc := fDiv (fSub t v.freq) (toF steps)
    glideRem := steps
    glideEn := true }

/-- VOICE_GLIDE (R168). -/
def execVoiceGlide (f : Fields) (s : State) : Host.Outcome State Fault Refusal :=
  accept .voiceGlide f s fun s =>
    let k := operandSlot f
    if (s.voice k).state = .free then s
    else s.setVoice k (glidingVoice (clampFreq s f) (samples s.params.glide s.rate.glideMaxSamples) (s.voice k))

end Sys2Proof.Machine
end

