-- ==== Sys2Proof/Machine/Dispatch.lean ====
section
/-! DEFINITION. The meaning of every command (40_control.md R120, 30_encoding.md R95): one arm per constructor. -/

namespace Sys2Proof.Machine

def exec (i : Instr) (s : State) : Host.Outcome State Fault Refusal :=
  match i with
  | .nop f => Sys2Proof.Machine.execNop f s
  | .init f => Sys2Proof.Machine.execInit f s
  | .stopAll f => Sys2Proof.Machine.execStopAll f s
  | .clearStatus f => Sys2Proof.Machine.execClearStatus f s
  | .get f => Sys2Proof.Machine.execGet f s
  | .setAttack f => Sys2Proof.Machine.execSetAttack f s
  | .setDecay f => Sys2Proof.Machine.execSetDecay f s
  | .setSustain f => Sys2Proof.Machine.execSetSustain f s
  | .setRelease f => Sys2Proof.Machine.execSetRelease f s
  | .setPitchBend f => Sys2Proof.Machine.execSetPitchBend f s
  | .setGlide f => Sys2Proof.Machine.execSetGlide f s
  | .voiceStart f => Sys2Proof.Machine.execVoiceStart f s
  | .voiceRelease f => Sys2Proof.Machine.execVoiceRelease f s
  | .voiceKill f => Sys2Proof.Machine.execVoiceKill f s
  | .voiceSetFreq f => Sys2Proof.Machine.execVoiceSetFreq f s
  | .voiceSetVolume f => Sys2Proof.Machine.execVoiceSetVolume f s
  | .voiceSetMute f => Sys2Proof.Machine.execVoiceSetMute f s
  | .voiceGlide f => Sys2Proof.Machine.execVoiceGlide f s
  | .setRmRate f => Sys2Proof.Machine.execSetRmRate f s
  | .rmBlock f => Sys2Proof.Machine.execRmBlock f s
  | .setCutoff f => Sys2Proof.Machine.execSetCutoff f s
  | .setResonance f => Sys2Proof.Machine.execSetResonance f s
  | .setLfoEnable f => Sys2Proof.Machine.execSetLfoEnable f s
  | .filtBlock f => Sys2Proof.Machine.execFiltBlock f s
  | .setLfoRate f => Sys2Proof.Machine.execSetLfoRate f s
  | .setLfoDepth f => Sys2Proof.Machine.execSetLfoDepth f s
  | .lfoPeek f => Sys2Proof.Machine.execLfoPeek f s
  | .synthBlock f => Sys2Proof.Machine.execSynthBlock f s

end Sys2Proof.Machine
end

