-- ==== Sys2Proof/Machine/Step.lean ====
section
/-! DEFINITION. One step: the oldest pending host access, carried out to completion (20_memory.md R76). -/

namespace Sys2Proof.Machine

/-- `execute(w)` (40_control.md R120). -/
def runCommand (w : CommandWord) (s : State) : Host.Outcome State Fault Refusal :=
  match decode w with
  | .ok i => exec i s
  | .error _ => .next (rejectReserved s)

/-- One step. With no access pending the block is idle and keeps its state (60_exceptions.md R345; log 8). -/
def step (s : State) : Host.Outcome State Fault Refusal :=
  match s.pending with
  | [] => .next s
  | a :: rest =>
    match commandOf s.cfg a with
    | some w => runCommand w { s with pending := rest }
    | none => .next (busAccess a { s with pending := rest })

/-- `s` with the CMD write of this command next in the host's order (log 8). -/
def State.withFetchWord (s : State) (nbits w : Nat) : State :=
  { s with pending := commandWrite (tableWord nbits w) :: s.pending }

end Sys2Proof.Machine
end

