-- ==== Sys2Proof/WellFormed.lean ====
section
/-! DEFINITION. Well-formed commands (30_encoding.md R92, R97) and legal configurations (00_scope.md R7). -/

namespace Sys2Proof

open Sys2Proof.Machine

/-- A command that is not malformed on a block of configuration `c`: RSV = 0 and the constraints of its format. -/
def wellFormed (c : Config) (i : Instr) : Bool := i.fields.rsv == 0 && formatOK c i.opcode i.fields

/-- Finite and in [lo, hi]. -/
def inRange (lo hi v : F) : Bool := isFinite v && fLe lo v && fLe v hi

/-- −1.0 and 2^−20, constants of R7's constraints. -/
def fMinusOne : F := 0xBF800000
def fTwoPowMinus20 : F := 0x35800000

/-- The constraints of R7 on the sizes of a block. -/
def sizesLegal (c : Config) : Bool :=
  decide (1 ≤ c.numVoices ∧ c.numVoices ≤ 32) && decide (2 ≤ c.maxChannels ∧ c.maxChannels ≤ 255) &&
    decide (1 ≤ c.maxBlock ∧ c.maxBlock ≤ 65535) && decide (1 ≤ c.respDepth) &&
    decide (1 ≤ c.triRom.length ∧ c.triRom.length ≤ 65536) && decide (c.lfoRom.length = 128)

/-- The constraints of R7 on ROM contents, pulse levels and a constant pulse width. -/
def wavesLegal (c : Config) : Bool :=
  c.triRom.all (inRange fMinusOne fOne) && c.lfoRom.all (inRange fMinusOne fOne) &&
    inRange fMinusOne fOne c.pulseHi && inRange fMinusOne fOne c.pulseLo &&
    (match c.pwmWidth with
     | .constant w => inRange fZero fOne w
     | .custom => true)

/-- 0 < lo ≤ hi, both finite. -/
def positiveRange (lo hi : F) : Bool := isFinite lo && isFinite hi && fLt fZero lo && fLe lo hi

/-- 0 ≤ lo ≤ hi, both finite. -/
def nonnegRange (lo hi : F) : Bool := isFinite lo && isFinite hi && fLe fZero lo && fLe lo hi

/-- The constraints of R7 on the numeric parameters. -/
def rangesLegal (c : Config) : Bool :=
  positiveRange c.fsMin c.fsMax &&
    (positiveRange c.bendMin c.bendMax && fLe c.bendMin fOne && fLe fOne c.bendMax) &&
    (isFinite c.glideMaxSeconds && fLt fZero c.glideMaxSeconds) &&
    (nonnegRange c.rmMinHz c.rmMaxHz && isFinite c.rmFineHz && isFinite c.rmFeedback) &&
    (isFinite c.filterMinCutoff && isFinite c.filterMaxCutoff && fLe c.filterMinCutoff c.filterMaxCutoff &&
      fLe (fMul c.fsMax fTwoPowMinus20) c.filterMinCutoff) &&
    (isFinite c.nyqEps && fLe (fMul c.fsMax fTwoPowMinus20) c.nyqEps &&
      fLt c.filterMinCutoff (fSub (fDiv c.fsMin fTwo) c.nyqEps)) &&
    positiveRange c.resMin c.resMax &&
    (nonnegRange c.lfoRateMin c.lfoRateMax && fLt c.lfoRateMax c.fsMin)

/-- Every constraint of R7 on a parameter that is data (log 19). -/
def configLegal (c : Config) : Bool := sizesLegal c && wavesLegal c && rangesLegal c

/-- The constraints of R7 on the function parameters of a block whose law is `custom` (log 2). -/
def LawsLegal (c : Config) : Prop :=
  (c.pwmWidth = .custom → ∀ n, inRange fZero fOne (Config.customPwmWidth n) = true) ∧
    (c.lfoSweep = .custom → ∀ u d lo hi, isFinite (Config.customSweep u d lo hi) = true)

end Sys2Proof
end

