-- ==== Sys2Proof/Safety.lean ====
section
/-! DEFINITION. What claims about the machine are stated in: the conditions under which R120 lets a command execute, the
invariants, clean runs, the region of a block command, and the value of a pattern. -/

namespace Sys2Proof.Machine

/-! ## When a command executes (40_control.md R120) -/

/-- The checks of R120 that do not depend on the format: READY = 1 and RSV = 0. -/
def Admitted (s : State) (f : Fields) : Prop := s.ready = true ∧ f.rsv = 0

/-- A command of format Z or GU executes. -/
def RunsGlobal (s : State) (f : Fields) : Prop := Admitted s f ∧ f.slot = 0

/-- A command of format GF executes. -/
def RunsGlobalF (s : State) (f : Fields) : Prop := RunsGlobal s f ∧ isNaN f.arg = false

/-- A command of format V or VU executes. -/
def RunsVoice (s : State) (f : Fields) : Prop := Admitted s f ∧ f.slot.toNat < s.cfg.numVoices

/-- A command of format VF executes. -/
def RunsVoiceF (s : State) (f : Fields) : Prop := RunsVoice s f ∧ isNaN f.arg = false

/-- A command of format B executes. -/
def RunsBlock (s : State) (f : Fields) : Prop :=
  Admitted s f ∧ f.slot.toNat ≤ s.cfg.maxChannels ∧ f.arg.toNat ≤ s.cfg.maxBlock

/-! ## Runs -/

/-- A run is clean if STATUS[5:0] = 0 at its end (70_reset_and_hazards.md R375). -/
def State.clean (s : State) : Prop := s.status &&& stickyMask = 0

/-! ## Invariants -/

/-- REG_LIST holds exactly the active slots, each once, and there are NUM_VOICES slots (10_state.md R42, R44, R50). -/
def RegistryExact (s : State) : Prop :=
  s.voices.length = s.cfg.numVoices ∧ s.regList.Nodup ∧
    ∀ k, k ∈ s.regList ↔ k < s.cfg.numVoices ∧ (s.voice k).state ≠ .free

/-- Memory is canonical, STATUS[30:6] = 0 (R33), the FIFO holds at most RESP_DEPTH words (R51), and there is one set of
delay registers per channel (R48). -/
def StorageSound (s : State) : Prop :=
  s.buf.wf = true ∧ s.status &&& 0x7FFFFFC0 = 0 ∧ s.fifo.length ≤ s.cfg.respDepth ∧
    s.delays.length = s.cfg.maxChannels

/-- After INIT, A1..B2 hold `FilterCoeffs(TEMP_CUTOFF, RESONANCE)` (10_state.md R38). -/
def CoeffsCurrent (s : State) : Prop :=
  s.ready = true →
    filterCoeffs s.cfg s.rate.fs s.filt.tempCutoff s.filt.resonance =
      { a1 := s.filt.a1, a2 := s.filt.a2, a3 := s.filt.a3, b1 := s.filt.b1, b2 := s.filt.b2 }

/-- After INIT, the derived constants are those of FS (00_scope.md R8) and RM_INCR is that of RM_RATE (46_ring_modulator.md
R262). -/
def DerivedCurrent (s : State) : Prop :=
  s.ready = true →
    s.rate.envMaxSamples = floorN s.rate.fs ∧
      s.rate.glideMaxSamples = floorN (fMul s.cfg.glideMaxSeconds s.rate.fs) ∧
        s.rate.lfoSpe = fDiv s.rate.fs f128 ∧
          s.rate.nyqLimit = fMin s.cfg.filterMaxCutoff (fSub (fDiv s.rate.fs fTwo) s.cfg.nyqEps) ∧
            s.rm.incr = rmIncr s.cfg s.rate.fs s.rm.rate

/-- A glide that runs has a step left (10_state.md R44). -/
def GlidesCounted (s : State) : Prop := ∀ v, v ∈ s.voices → v.glideEn = true → v.glideRem ≠ 0

/-- The phase of every slot lies in [0.0, 1.0) (42_oscillator.md R193) and RM_PHASE in [0.0, TWO_PI_F) (46_ring_modulator.md
R265). -/
def PhasesInRange (s : State) : Prop :=
  (∀ v, v ∈ s.voices → fLe fZero v.phase = true ∧ fLt v.phase fOne = true) ∧
    fLe fZero s.rm.phase = true ∧ fLt s.rm.phase fTwoPi = true

/-- After INIT, CUTOFF and TEMP_CUTOFF lie in [FILTER_MIN_CUTOFF, NYQ_LIMIT], and NYQ_LIMIT is at most
FILTER_MAX_CUTOFF and the F value (FS / 2.0) − NYQ_EPS (47_filter.md R293, 00_scope.md R8); LFO_DEPTH, on which the swept
cutoff depends, lies in [0.0, 1.0] (48_lfo.md R311). -/
def CutoffInRange (s : State) : Prop :=
  s.ready = true →
    fLe s.cfg.filterMinCutoff s.filt.cutoff = true ∧ fLe s.filt.cutoff s.rate.nyqLimit = true ∧
      fLe s.cfg.filterMinCutoff s.filt.tempCutoff = true ∧ fLe s.filt.tempCutoff s.rate.nyqLimit = true ∧
        fLe s.rate.nyqLimit s.cfg.filterMaxCutoff = true ∧
          fLe s.rate.nyqLimit (fSub (fDiv s.rate.fs fTwo) s.cfg.nyqEps) = true ∧
            inRange fZero fOne s.lfo.depth = true

/-- Two states differ at most in what power-on leaves unspecified other than BUF (10_state.md R68). -/
def SameSpecified (s t : State) : Prop :=
  s.cfg = t.cfg ∧ s.status = t.status ∧ s.fifo = t.fifo ∧ s.buf = t.buf ∧ s.pending = t.pending ∧
    s.replies = t.replies

/-! ## The region of a block command -/

/-- Byte address `a` lies in no sample BUF[c][i] with c < k, i < n. -/
def OutsideRegion (cfg : Config) (k n a : Nat) : Prop :=
  ∀ c i, c < k → i < n → a < bufAddr cfg c i ∨ bufAddr cfg c i + 4 ≤ a

/-- Every byte of memory outside the region reads the same in both states. -/
def SameOutsideRegion (k n : Nat) (s t : State) : Prop :=
  ∀ a, OutsideRegion s.cfg k n a → t.buf.readByte a = s.buf.readByte a

/-- STATUS with NONFINITE added if a sample of the region is NaN or ±Inf (60_exceptions.md R333). -/
def FlagsNonFinite (k n : Nat) (before : Word) (t : State) : Prop :=
  ((∃ c i, c < k ∧ i < n ∧ isFinite (t.readBuf c i) = false) ∧ t.status = before ||| 0x4) ∨
    ((∀ c i, c < k → i < n → isFinite (t.readBuf c i) = true) ∧ t.status = before)

/-! ## Values of patterns -/

/-- The signed value of a finite pattern in units of 2^-149. -/
def valueUnits (a : F) : Int := if fNeg a then -(fUnits a : Int) else (fUnits a : Int)

/-- No finite value lies nearer to `num / den` units than `a` does, and if another value is as near, the last bit of `a` is
0. -/
def Nearest (a : F) (num : Int) (den : Nat) : Prop :=
  ∀ b : F, isFinite b = true →
    |valueUnits a * den - num| ≤ |valueUnits b * den - num| ∧
      (|valueUnits a * den - num| = |valueUnits b * den - num| → valueUnits a ≠ valueUnits b → a.getLsbD 0 = false)

/-- The least magnitude, in units, that rounds to infinity: halfway between the largest finite value and 2^128. -/
def overflowUnits : Int := (2 ^ 25 - 1) * 2 ^ 252

/-- `r` is `num / den` units rounded as IEEE 754 does, with sign bit `neg`: never a NaN, finite exactly below the overflow
threshold, and then nearest to the exact value; so infinite, of that sign, from the threshold on. -/
def RoundedTo (r : F) (neg : Bool) (num : Int) (den : Nat) : Prop :=
  isNaN r = false ∧ fNeg r = neg ∧ (isFinite r = true ↔ |num| < overflowUnits * den) ∧
    (isFinite r = true → Nearest r num den)

/-- The sign bit of a sum of exact value `num`: that of a nonzero value; of an exact zero, negative only where both terms
are. -/
def sumNeg (na nb : Bool) (num : Int) : Bool := if num = 0 then na && nb else decide (num < 0)

end Sys2Proof.Machine
end

