-- ==== Sys2Proof/Certificates/Slice0/Obligations.lean ====
section
/-! DEFINITION. The statements about the model, for the provers. First the functions the statements are written with:
each one transcribes a rule's recurrence and is not used by the machine. -/

namespace Sys2Proof.Claims

open Sys2Proof.Machine

/-- The reserved OP bytes as R96 lists them. -/
def reservedByte (b : BitVec 8) : Prop :=
  (0x05 ≤ b.toNat ∧ b.toNat ≤ 0x0F) ∨ (0x16 ≤ b.toNat ∧ b.toNat ≤ 0x1F) ∨ (0x27 ≤ b.toNat ∧ b.toNat ≤ 0x2F) ∨
    (0x32 ≤ b.toNat ∧ b.toNat ≤ 0x37) ∨ (0x3C ≤ b.toNat ∧ b.toNat ≤ 0x3F) ∨ (0x43 ≤ b.toNat ∧ b.toNat ≤ 0x4F) ∨
      (0x51 ≤ b.toNat ∧ b.toNat ≤ 0xFF)

/-- The opcodes that respond (R106). -/
def responding (i : Instr) : Prop := i.opcode = .get ∨ i.opcode = .lfoPeek ∨ i.opcode = .synthBlock

/-- `t` is `s` after a rejection with STATUS bit mask `m`: the bit, and for a responding opcode the word 0xFFFFFFFF, or
RESPOVF where the FIFO is full; nothing else (00_scope.md R12, R331). -/
def RejectedWith (m : Word) (i : Instr) (s t : State) : Prop :=
  (¬responding i → t = { s with status := s.status ||| m }) ∧
    (responding i → s.fifo.length < s.cfg.respDepth →
      t = { s with status := s.status ||| m, fifo := s.fifo ++ [0xFFFFFFFF] }) ∧
      (responding i → s.cfg.respDepth ≤ s.fifo.length → t = { s with status := s.status ||| m ||| 0x20 })

/-- `t` is `s` after a response of `w`: queued, or dropped with RESPOVF where the FIFO is full (10_state.md R51). -/
def RespondedWith (w : Word) (s t : State) : Prop :=
  (s.fifo.length < s.cfg.respDepth → t = { s with fifo := s.fifo ++ [w] }) ∧
    (s.cfg.respDepth ≤ s.fifo.length → t = { s with status := s.status ||| 0x20 })

/-- The command may run before INIT (R120). -/
def beforeInit (i : Instr) : Prop :=
  i.opcode = .nop ∨ i.opcode = .init ∨ (i.opcode = .get ∧ i.fields.slot = 0 ∧ i.fields.arg = 0)

/-- The twelve SET_* commands (40_control.md R131). -/
def isSetCommand (i : Instr) : Prop :=
  i.opcode = .setAttack ∨ i.opcode = .setDecay ∨ i.opcode = .setSustain ∨ i.opcode = .setRelease ∨
    i.opcode = .setPitchBend ∨ i.opcode = .setGlide ∨ i.opcode = .setRmRate ∨ i.opcode = .setCutoff ∨
      i.opcode = .setResonance ∨ i.opcode = .setLfoEnable ∨ i.opcode = .setLfoRate ∨ i.opcode = .setLfoDepth

/-- The state with other slots, buffer memory, carrier phase and LFO accumulator. -/
def withOtherSound (s : State) (vs : List Voice) (m : Memory) (p acc : F) : State :=
  { s with voices := vs, buf := m, rm := { s.rm with phase := p }, lfo := { s.lfo with acc := acc } }

/-- RM_PHASE before frame i (46_ring_modulator.md R265). -/
def rmPhaseAt (s : State) : Nat → F
  | 0 => s.rm.phase
  | i + 1 => fMod (fAdd (rmPhaseAt s i) s.rm.incr) fTwoPi

/-- The carrier in frame i (R263). -/
def rmCarrierAt (s : State) (i : Nat) : F :=
  if fLe fZero (sinF s.cfg (rmPhaseAt s i)) then 0x3F000000 else 0xBF000000

/-- RM_PREV[c] before frame i, for a channel whose samples are `x`; the output of frame i is its value before frame i + 1
(R265, R266). -/
def rmPrevAt (s : State) (x : Nat → F) (c : Nat) : Nat → F
  | 0 => if c = 0 then s.rm.prev0 else s.rm.prev1
  | i + 1 => fAdd (fMul (x i) (rmCarrierAt s i)) (fMul s.cfg.rmFeedback (rmPrevAt s x c i))

/-- The RM registers after n frames over k channels whose samples are `x` (R265). -/
def rmAfter (s : State) (x : Nat → Nat → F) (k n : Nat) : RmRegs :=
  { rate := s.rm.rate
    incr := s.rm.incr
    phase := rmPhaseAt s n
    prev0 := if 0 < k then rmPrevAt s (x 0) 0 n else s.rm.prev0
    prev1 := if 1 < k then rmPrevAt s (x 1) 1 n else s.rm.prev1 }

/-- The state after i sweep steps (47_filter.md R289). -/
def sweptState (s : State) : Nat → State
  | 0 => s
  | i + 1 => sweepStep (sweptState s i)

/-- The filter registers frame i is filtered with (R288, R290). -/
def filterAt (s : State) (i : Nat) : FilterRegs := if s.lfo.en then (sweptState s (i + 1)).filt else s.filt

/-- The output of R287 for input x with these coefficients and delay registers. -/
def filterEquation (k : FilterRegs) (d : Delay) (x : F) : F :=
  fSub (fSub (fAdd (fAdd (fMul k.a1 x) (fMul k.a2 d.in1)) (fMul k.a3 d.in2)) (fMul k.b1 d.out1)) (fMul k.b2 d.out2)

/-- FD[c] before frame i; the output of frame i is OUT1 before frame i + 1 (R287). -/
def delayAt (s : State) (c : Nat) : Nat → Delay
  | 0 => s.delay c
  | i + 1 =>
    { in1 := s.readBuf c i
      in2 := (delayAt s c i).in1
      out1 := filterEquation (filterAt s i) (delayAt s c i) (s.readBuf c i)
      out2 := (delayAt s c i).out1 }

/-- A slot SYNTH_BLOCK skips: muted and not released (45_render.md R242). -/
def frozen (v : Voice) : Bool := v.muted && v.state != .release

/-- Slot k before sample i of a block, and whether it is still alive (R241, R243). -/
def slotAt (s : State) (w : Wave) (k : Nat) : Nat → Voice × Bool
  | 0 => (s.voice k, true)
  | i + 1 =>
    if (slotAt s w k i).2 then
      ((slotSample s.cfg s.rate.fs s.params.bend w (slotAt s w k i).1).voice,
        (slotSample s.cfg s.rate.fs s.params.bend w (slotAt s w k i).1).alive)
    else slotAt s w k i

/-- What slot k adds to sample i of every channel (R241–R243). -/
def slotAdds (s : State) (w : Wave) (k i : Nat) : Option F :=
  if frozen (s.voice k) then none
  else if (slotAt s w k i).2 then (slotSample s.cfg s.rate.fs s.params.bend w (slotAt s w k i).1).adds
  else none

/-- Sample i of the mix: +0.0, then each active slot's addition, newest first (R244). -/
def mixAt (s : State) (w : Wave) (i : Nat) : F :=
  s.regList.reverse.foldl
    (fun sum k =>
      match slotAdds s w k i with
      | some y => fAdd sum y
      | none => sum)
    fZero

/-- What slot k is after the n samples of a block: frozen slots as they were, dead slots FREE (R242, R245). -/
def slotAfter (s : State) (w : Wave) (k n : Nat) : Voice :=
  if frozen (s.voice k) then s.voice k
  else if (slotAt s w k n).2 then (slotAt s w k n).1
  else { (slotAt s w k n).1 with state := .free }

/-- Slot k is disposed in a block of n samples (R245). -/
def disposed (s : State) (w : Wave) (k n : Nat) : Bool := !frozen (s.voice k) && !(slotAt s w k n).2

/-- `Samples(p, MAX)` (41_voice.md R149); a zero duration takes one sample for every MAX (44_portamento.md R236; log 5). -/
def sampleCount (p : F) (maxSamples : Nat) : Nat :=
  if fEq p fZero then 1 else max 1 (floorN (fMul p (toF maxSamples)))

/-- The slot after i glide steps (44_portamento.md R231). -/
def glideTimes (v : Voice) : Nat → Voice
  | 0 => v
  | i + 1 => glideStep (glideTimes v i)

/-- The accesses the bus map admits (20_memory.md R71–R73): one whole location, in its direction; a RESP read needs a
queued word. -/
def admittedAccess (s : State) : HostAccess → Prop
  | .read a w =>
    w = .w4 ∧
      ((a = 0x8 ∧ s.fifo ≠ []) ∨ a = 0xC ∨ a = 0x10 ∨
        ∃ c i, c < s.cfg.maxChannels ∧ i < s.cfg.maxBlock ∧ a.toNat = 0x10000 + 4 * (c * s.cfg.maxBlock + i))
  | .write a w _ =>
    (a = 0 ∧ w = .w8) ∨
      (w = .w4 ∧
        ∃ c i, c < s.cfg.maxChannels ∧ i < s.cfg.maxBlock ∧ a.toNat = 0x10000 + 4 * (c * s.cfg.maxBlock + i))

/-- A slot whose envelope registers are in the legal ranges of 10_state.md R43. -/
def EnvelopeLegal (v : Voice) : Prop :=
  inRange fZero fOne v.attackValue = true ∧ inRange fZero fOne v.attackInc = true ∧
    inRange fZero fOne v.currentValue = true ∧ inRange fZero fOne v.decayInc = true ∧
      inRange fZero fOne v.sustain = true ∧ inRange fMinusOne fOne v.releaseValue = true ∧
        inRange fZero fOne v.releaseInc = true

/-- A GET of this selector byte and SLOT, accepted, answers `w`. -/
def GetAnswers (s : State) (sel : BitVec 8) (slot : Nat) (w : Word) : Prop :=
  ∀ f : Fields, Admitted s f → f.slot.toNat = slot → f.arg = sel.setWidth 32 →
    ∃ t, exec (.get f) s = .next t ∧ RespondedWith w s t

end Sys2Proof.Claims

open Sys2Proof Sys2Proof.Machine Sys2Proof.Claims

/-! ## Encoding -/

/-- R91, R95, R74: decoding the word, or the little-endian bytes, of any command gives the command back, every field at
every value; and a word has no bit that its command does not keep. -/
def Obligations.DecodeOfEncode : Prop :=
  (∀ i : Instr, decode (encode i) = .ok i ∧ decodeBytes (bytesOfWord (encode i)) = .ok i) ∧
    ∀ (w : CommandWord) (i : Instr), decode w = .ok i → encode i = w

/-- R96: a reserved OP byte raises BADOP, changes nothing else and responds nothing, whatever READY is; every other OP
byte is a command. -/
def Obligations.ReservedOpcodesOnlyRaiseBadOp : Prop :=
  ∀ (w : CommandWord) (s : State),
    (reservedByte (w.extractLsb' 0 8) → runCommand w s = .next { s with status := s.status ||| 0x1 }) ∧
      (¬reservedByte (w.extractLsb' 0 8) → ∃ i, decode w = .ok i ∧ runCommand w s = exec i s)

/-- R102: the four worked encodings. -/
def Obligations.WorkedEncodingsDecode : Prop :=
  decode 0x4300000000000020 = .ok (.voiceStart { slot := 0, rsv := 0, arg := 0x43000000 }) ∧
    decode 0x0000010000000250 = .ok (.synthBlock { slot := 2, rsv := 0, arg := 256 }) ∧
      decode 0x0000002100000304 = .ok (.get { slot := 3, rsv := 0, arg := 0x21 }) ∧
        decode 0x4480000000000001 = .ok (.init { slot := 0, rsv := 0, arg := 0x44800000 }) ∧
          decodeBytes [0x01, 0x00, 0x00, 0x00, 0x00, 0x00, 0x80, 0x44] =
            .ok (.init { slot := 0, rsv := 0, arg := 0x44800000 })

/-- R76, R120, R345: a CMD write whose eight bytes decode to i is one step, exec of i with the access consumed; with no
access pending the block keeps its state. That the host's accesses stand in a queue of the state, and that the idle block
takes a step at all, are the model's choice (log 8). -/
def Obligations.StepRunsTheDecodedCommand : Prop :=
  (∀ (s : State) (w : CommandWord) (i : Instr) (rest : List HostAccess),
    s.pending = .write 0 .w8 w :: rest → decodeBytes (bytesOfWord w) = .ok i →
      step s = exec i { s with pending := rest }) ∧
    (∀ (s : State) (w : CommandWord) (i : Instr),
      decode w = .ok i → step (s.withFetchWord 64 w.toNat) = exec i s) ∧
      ∀ s : State, s.pending = [] → step s = .next s

/-! ## Acceptance -/

/-- R120, R331: while READY = 0 every command but NOP, INIT and GET STATUS raises NOINIT and does nothing else but
respond, whatever its fields are. -/
def Obligations.CommandsBeforeInitRaiseNoInit : Prop :=
  ∀ (i : Instr) (s : State), s.ready = false → ¬beforeInit i →
    ∃ t, exec i s = .next t ∧ RejectedWith 0x8 i s t

/-- R120, R331, R334: a malformed command that READY lets through raises BADOP and does nothing else but respond. -/
def Obligations.MalformedCommandsRaiseBadOp : Prop :=
  ∀ (i : Instr) (s : State), (s.ready = true ∨ beforeInit i) → wellFormed s.cfg i = false →
    ∃ t, exec i s = .next t ∧ RejectedWith 0x1 i s t

/-- R92: what well-formed means, opcode by opcode. -/
def Obligations.WellFormedIsTheFormatTable : Prop :=
  ∀ (c : Config) (i : Instr), wellFormed c i = true ↔
    i.fields.rsv = 0 ∧
      match i.opcode with
      | .nop | .stopAll | .lfoPeek => i.fields.slot = 0
      | .init | .setAttack | .setDecay | .setSustain | .setRelease | .setPitchBend | .setGlide | .setRmRate
      | .setCutoff | .setResonance | .setLfoRate | .setLfoDepth => i.fields.slot = 0
      | .clearStatus | .setLfoEnable => i.fields.slot = 0
      | .voiceRelease | .voiceKill => i.fields.slot.toNat < c.numVoices
      | .voiceStart | .voiceSetFreq | .voiceSetVolume | .voiceGlide => i.fields.slot.toNat < c.numVoices
      | .voiceSetMute => i.fields.slot.toNat < c.numVoices
      | .synthBlock | .rmBlock | .filtBlock =>
        i.fields.slot.toNat ≤ c.maxChannels ∧ i.fields.arg.toNat ≤ c.maxBlock
      | .get =>
        i.fields.arg.toNat < 0x100 ∧
          ((i.fields.arg.toNat = 0x0B ∧ i.fields.slot.toNat < 2) ∨
            (0x18 ≤ i.fields.arg.toNat ∧ i.fields.arg.toNat ≤ 0x1B ∧ i.fields.slot.toNat < c.maxChannels) ∨
              (0x20 ≤ i.fields.arg.toNat ∧ i.fields.arg.toNat ≤ 0x31 ∧ i.fields.slot.toNat < c.numVoices) ∨
                (i.fields.arg.toNat ≠ 0x0B ∧ ¬(0x18 ≤ i.fields.arg.toNat ∧ i.fields.arg.toNat ≤ 0x1B) ∧
                  i.fields.arg.toNat ≤ 0x1D ∧ i.fields.slot = 0))

/-- R120, R121: a NaN F operand of an otherwise acceptable GF or VF command raises NANARG and nothing else happens. -/
def Obligations.NanOperandsRaiseNanArg : Prop :=
  ∀ (i : Instr) (s : State), (s.ready = true ∨ i.opcode = .init) → wellFormed s.cfg i = true →
    i.opcode.format = .gf ∨ i.opcode.format = .vf → isNaN i.fields.arg = true →
      exec i s = .next { s with status := s.status ||| 0x2 }

/-- R11, R121: clamp of any operand that is no NaN is the lower bound below it, the upper bound above it, and else the
operand itself, bit for bit (so −0.0 is kept at a bound of +0.0); +Inf is clamped to the upper bound and −Inf to the lower
bound. -/
def Obligations.InfiniteOperandsClampToBounds : Prop :=
  (∀ v lo hi : F, isNaN v = false → isNaN lo = false → isNaN hi = false →
    (fLt v lo = true → fClamp v lo hi = lo) ∧
    (fLt v lo = false → fLt hi v = true → fClamp v lo hi = hi) ∧
    (fLt v lo = false → fLt hi v = false → fClamp v lo hi = v)) ∧
    (∀ hi : F, fLe 0x00000000 hi = true → fClamp 0x80000000 0x00000000 hi = 0x80000000) ∧
    ∀ lo hi : F, isFinite lo = true → isFinite hi = true → fLe lo hi = true →
      fClamp 0x7F800000 lo hi = hi ∧ fClamp 0xFF800000 lo hi = lo

/-! ## Control commands -/

/-- R129: NOP leaves every register as it is, before INIT and after, whatever ARG is. -/
def Obligations.NopChangesNothing : Prop :=
  ∀ (f : Fields) (s : State), f.rsv = 0 → f.slot = 0 → exec (.nop f) s = .next s

/-- R122: INIT from any state, READY or not: every register at its INIT value; BUF, the response FIFO and the host's
accesses as they were. -/
def Obligations.InitSetsEveryRegister : Prop :=
  ∀ (f : Fields) (s : State), f.rsv = 0 → f.slot = 0 → isNaN f.arg = false →
    let fs := fClamp f.arg s.cfg.fsMin s.cfg.fsMax
    let nyq := fMin s.cfg.filterMaxCutoff (fSub (fDiv fs fTwo) s.cfg.nyqEps)
    let k := filterCoeffs s.cfg fs nyq s.cfg.resMin
    ∃ st : Word,
      exec (.init f) s = .next
        { cfg := s.cfg
          status := st
          rate :=
            { fs := fs
              envMaxSamples := floorN fs
              glideMaxSamples := floorN (fMul s.cfg.glideMaxSeconds fs)
              lfoSpe := fDiv fs f128
              nyqLimit := nyq }
          params := { attack := 0, decay := 0, sustain := fOne, release := 0, bend := fOne, glide := 0 }
          rm := { rate := 0, incr := rmIncr s.cfg fs 0, phase := 0, prev0 := 0, prev1 := 0 }
          filt :=
            { cutoff := nyq, resonance := s.cfg.resMin, tempCutoff := nyq
              a1 := k.a1, a2 := k.a2, a3 := k.a3, b1 := k.b1, b2 := k.b2 }
          lfo := { en := false, rate := s.cfg.lfoRateMin, depth := 0, acc := 0 }
          voices := List.replicate s.cfg.numVoices
            { state := .free, muted := false, glideEn := false, decayEn := false, freq := 0, baseFreq := 0
              volume := fOne, phase := 0, pwmCounter := 0, sustain := 0, attackInc := 0, decayInc := 0
              releaseInc := 0, glideRem := 0, glideInc := 0, glideTarget := 0, attackValue := 0
              currentValue := 0, releaseValue := 0 }
          delays := List.replicate s.cfg.maxChannels { in1 := 0, in2 := 0, out1 := 0, out2 := 0 }
          regList := []
          fifo := s.fifo
          buf := s.buf
          pending := s.pending
          replies := s.replies } ∧
      ∀ b, b < 32 → st.getLsbD b = (decide (b = 31) || (decide (6 ≤ b) && s.status.getLsbD b))

/-- R124: STOP_ALL frees every slot keeping its other fields, empties REG_LIST and zeroes FD and RM_PREV; parameters,
RM_PHASE, LFO_ACC, the coefficients and BUF are unchanged. -/
def Obligations.StopAllSilencesTheBlock : Prop :=
  ∀ (f : Fields) (s : State), RunsGlobal s f →
    exec (.stopAll f) s = .next
      { s with
        voices := s.voices.map fun v => { v with state := .free }
        regList := []
        delays := List.replicate s.cfg.maxChannels { in1 := 0, in2 := 0, out1 := 0, out2 := 0 }
        rm := { s.rm with prev0 := 0, prev1 := 0 } }

/-- R125: CLEAR_STATUS clears exactly the sticky bits its mask selects; bits 31:6 of the mask are ignored. -/
def Obligations.ClearStatusClearsSelectedStickyBits : Prop :=
  ∀ (f : Fields) (s : State), RunsGlobal s f →
    ∃ st : Word, exec (.clearStatus f) s = .next { s with status := st } ∧
      ∀ b, st.getLsbD b = (s.status.getLsbD b && !(decide (b < 6) && f.arg.getLsbD b))

/-- R40, R41, R54, R126: every global selector answers its register; only the FIFO, or STATUS on overflow, changes. -/
def Obligations.GetReadsTheGlobalRegisters : Prop :=
  ∀ s : State,
    GetAnswers s 0x00 0 s.status ∧ GetAnswers s 0x01 0 s.rate.fs ∧ GetAnswers s 0x02 0 s.params.attack ∧
    GetAnswers s 0x03 0 s.params.decay ∧ GetAnswers s 0x04 0 s.params.sustain ∧
    GetAnswers s 0x05 0 s.params.release ∧ GetAnswers s 0x06 0 s.params.bend ∧ GetAnswers s 0x07 0 s.params.glide ∧
    GetAnswers s 0x08 0 s.rm.rate ∧ GetAnswers s 0x09 0 s.rm.incr ∧ GetAnswers s 0x0A 0 s.rm.phase ∧
    GetAnswers s 0x0B 0 s.rm.prev0 ∧ GetAnswers s 0x0B 1 s.rm.prev1 ∧ GetAnswers s 0x0C 0 s.filt.cutoff ∧
    GetAnswers s 0x0D 0 s.filt.resonance ∧ GetAnswers s 0x0E 0 s.filt.tempCutoff ∧
    GetAnswers s 0x0F 0 (if s.lfo.en then 1 else 0) ∧ GetAnswers s 0x10 0 s.lfo.rate ∧
    GetAnswers s 0x11 0 s.lfo.depth ∧ GetAnswers s 0x12 0 s.lfo.acc ∧ GetAnswers s 0x13 0 s.filt.a1 ∧
    GetAnswers s 0x14 0 s.filt.a2 ∧ GetAnswers s 0x15 0 s.filt.a3 ∧ GetAnswers s 0x16 0 s.filt.b1 ∧
    GetAnswers s 0x17 0 s.filt.b2 ∧
    (∀ c, c < s.cfg.maxChannels →
      GetAnswers s 0x18 c (s.delay c).in1 ∧ GetAnswers s 0x19 c (s.delay c).in2 ∧
      GetAnswers s 0x1A c (s.delay c).out1 ∧ GetAnswers s 0x1B c (s.delay c).out2) ∧
    GetAnswers s 0x1D 0
      (BitVec.ofNat 16 s.cfg.maxBlock ++ BitVec.ofNat 8 s.cfg.maxChannels ++ BitVec.ofNat 8 s.cfg.numVoices) ∧
    (s.cfg.numVoices ≤ 32 →
      ∃ w : Word, GetAnswers s 0x1C 0 w ∧
        ∀ k, w.getLsbD k = (decide (k < s.cfg.numVoices) && decide ((s.voice k).state ≠ .free)))

/-- R43, R45, R46, R54, R126: every voice selector answers its slot's field. glideRem answers the count of steps left modulo
2^32 (R31); that it answers a nonzero word where that is 0 and steps are left (R44) is the model's choice (log 12). -/
def Obligations.GetReadsTheVoiceSlots : Prop :=
  ∀ (s : State) (k : Nat), k < s.cfg.numVoices →
    GetAnswers s 0x21 k (s.voice k).freq ∧ GetAnswers s 0x22 k (s.voice k).baseFreq ∧
    GetAnswers s 0x23 k (s.voice k).volume ∧ GetAnswers s 0x24 k (s.voice k).phase ∧
    GetAnswers s 0x25 k (s.voice k).pwmCounter ∧
    ((s.voice k).state = .attack → GetAnswers s 0x26 k (s.voice k).attackValue) ∧
    ((s.voice k).state = .decay ∨ (s.voice k).state = .sustain → GetAnswers s 0x26 k (s.voice k).currentValue) ∧
    ((s.voice k).state = .release → GetAnswers s 0x26 k (s.voice k).releaseValue) ∧
    ((s.voice k).state = .free → GetAnswers s 0x26 k 0 ∧ GetAnswers s 0x2E k 0xFFFFFFFF) ∧
    ((s.voice k).state ≠ .free → GetAnswers s 0x2E k (BitVec.ofNat 32 (s.regList.idxOf k))) ∧
    GetAnswers s 0x27 k (s.voice k).sustain ∧ GetAnswers s 0x28 k (s.voice k).attackInc ∧
    GetAnswers s 0x29 k (s.voice k).decayInc ∧ GetAnswers s 0x2A k (s.voice k).releaseInc ∧
    (∃ r : Word, GetAnswers s 0x2B k r ∧ ((s.voice k).glideRem = 0 ↔ r = 0) ∧
      ((s.voice k).glideRem % 2 ^ 32 ≠ 0 → r.toNat = (s.voice k).glideRem % 2 ^ 32)) ∧
    GetAnswers s 0x2C k (s.voice k).glideInc ∧
    GetAnswers s 0x2D k (s.voice k).glideTarget ∧ GetAnswers s 0x2F k (s.voice k).attackValue ∧
    GetAnswers s 0x30 k (s.voice k).currentValue ∧ GetAnswers s 0x31 k (s.voice k).releaseValue ∧
    ∃ w : Word, GetAnswers s 0x20 k w ∧
      ∀ b, w.getLsbD b =
        ((decide (b = 10) && (s.voice k).decayEn) || (decide (b = 9) && (s.voice k).glideEn) ||
          (decide (b = 8) && (s.voice k).muted) || (decide (b < 3) && (s.voice k).state.code.getLsbD b))

/-- R127: while READY = 0, GET STATUS with SLOT 0 is accepted and answers STATUS. -/
def Obligations.GetStatusWorksBeforeInit : Prop :=
  ∀ (f : Fields) (s : State), f.rsv = 0 → f.slot = 0 → f.arg = 0 →
    ∃ t, exec (.get f) s = .next t ∧ RespondedWith s.status s t

/-! ## Parameters -/

/-- R150–R155: the envelope and glide parameters become the operand clamped to [0.0, 1.0], BEND the operand clamped to
[BEND_MIN, BEND_MAX]; nothing else changes, no started slot included (R156). -/
def Obligations.VoiceParametersAreClamped : Prop :=
  ∀ (f : Fields) (s : State), RunsGlobalF s f →
    exec (.setAttack f) s = .next { s with params := { s.params with attack := fClamp f.arg fZero fOne } } ∧
    exec (.setDecay f) s = .next { s with params := { s.params with decay := fClamp f.arg fZero fOne } } ∧
    exec (.setSustain f) s = .next { s with params := { s.params with sustain := fClamp f.arg fZero fOne } } ∧
    exec (.setRelease f) s = .next { s with params := { s.params with release := fClamp f.arg fZero fOne } } ∧
    exec (.setGlide f) s = .next { s with params := { s.params with glide := fClamp f.arg fZero fOne } } ∧
    exec (.setPitchBend f) s =
      .next { s with params := { s.params with bend := fClamp f.arg s.cfg.bendMin s.cfg.bendMax } }

/-- R260, R262: RM_RATE becomes the clamped operand and RM_INCR its increment; RM_PHASE and RM_PREV are unchanged. -/
def Obligations.RmRateSetsTheIncrement : Prop :=
  ∀ (f : Fields) (s : State), RunsGlobalF s f →
    let r := fClamp f.arg fZero fOne
    let hz := fAdd (fAdd s.cfg.rmMinHz (fMul r (fSub s.cfg.rmMaxHz s.cfg.rmMinHz))) s.cfg.rmFineHz
    exec (.setRmRate f) s =
      .next { s with rm := { s.rm with rate := r, incr := fDiv (fMul 0x40C90FDB (fMax fZero hz)) s.rate.fs } }

/-- R280, R281, R284, R285: SET_CUTOFF and SET_RESONANCE write the clamped operand and recompute the coefficients by the
formula of R280; FD is unchanged. -/
def Obligations.FilterParametersRecomputeCoefficients : Prop :=
  ∀ (f : Fields) (s : State), RunsGlobalF s f →
    let coeffs := fun (cut res : F) (x : FilterRegs) =>
      let c := fDiv fOne (tanF s.cfg (fDiv (fMul 0x40490FDB cut) s.rate.fs))
      let a1 := fDiv fOne (fAdd (fAdd fOne (fMul res c)) (fMul c c))
      { x with
        a1 := a1
        a2 := fMul fTwo a1
        a3 := a1
        b1 := fMul (fMul fTwo (fSub fOne (fMul c c))) a1
        b2 := fMul (fAdd (fSub fOne (fMul res c)) (fMul c c)) a1 }
    let cut := fClamp f.arg s.cfg.filterMinCutoff s.rate.nyqLimit
    let res := fClamp f.arg s.cfg.resMin s.cfg.resMax
    exec (.setCutoff f) s = .next
        { s with filt := coeffs cut s.filt.resonance { s.filt with cutoff := cut, tempCutoff := cut } } ∧
      exec (.setResonance f) s = .next
        { s with filt := coeffs s.filt.tempCutoff res { s.filt with resonance := res } }

/-- R286: enabling the LFO sets LFO_EN alone; disabling also restores TEMP_CUTOFF to CUTOFF and recomputes the
coefficients. -/
def Obligations.LfoEnableRestoresTheStaticCutoff : Prop :=
  ∀ (f : Fields) (s : State), RunsGlobal s f →
    (f.arg ≠ 0 → exec (.setLfoEnable f) s = .next { s with lfo := { s.lfo with en := true } }) ∧
    (f.arg = 0 →
      let k := filterCoeffs s.cfg s.rate.fs s.filt.cutoff s.filt.resonance
      exec (.setLfoEnable f) s = .next
        { s with
          lfo := { s.lfo with en := false }
          filt := { s.filt with
            tempCutoff := s.filt.cutoff, a1 := k.a1, a2 := k.a2, a3 := k.a3, b1 := k.b1, b2 := k.b2 } })

/-- R310, R311: LFO_RATE and LFO_DEPTH become the clamped operand; LFO_ACC and the coefficients are unchanged. -/
def Obligations.LfoParametersAreClamped : Prop :=
  ∀ (f : Fields) (s : State), RunsGlobalF s f →
    exec (.setLfoRate f) s =
        .next { s with lfo := { s.lfo with rate := fClamp f.arg s.cfg.lfoRateMin s.cfg.lfoRateMax } } ∧
      exec (.setLfoDepth f) s = .next { s with lfo := { s.lfo with depth := fClamp f.arg fZero fOne } }

/-- R312, R313: LFO_PEEK answers the table entry at the accumulator, then advances the accumulator by LFO_RATE with one
subtraction of FS at the wrap; nothing else changes. -/
def Obligations.LfoPeekAnswersThenAdvances : Prop :=
  ∀ (f : Fields) (s : State), RunsGlobal s f →
    let idx := min 127 (floorN (fDiv s.lfo.acc s.rate.lfoSpe))
    let sum := fAdd s.lfo.acc s.lfo.rate
    let acc := if fLe s.rate.fs sum then fSub sum s.rate.fs else sum
    ∃ t, exec (.lfoPeek f) s = .next t ∧
      RespondedWith (s.cfg.lfoRom.getD idx 0) { s with lfo := { s.lfo with acc := acc } } t

/-- R131: a SET_* command executed twice leaves the state it leaves executed once; none reads or writes BUF, RM_PHASE,
LFO_ACC or any slot: with other contents there, it does the same to everything else and keeps those contents. -/
def Obligations.SetCommandsAreIdempotent : Prop :=
  ∀ (i : Instr) (s t : State), isSetCommand i → exec i s = .next t →
    exec i t = .next t ∧ t.voices = s.voices ∧ t.buf = s.buf ∧ t.rm.phase = s.rm.phase ∧ t.lfo.acc = s.lfo.acc ∧
      ∀ (vs : List Voice) (m : Memory) (p acc : F),
        exec i (withOtherSound s vs m p acc) = .next (withOtherSound t vs m p acc)

/-! ## Voice slots -/

/-- R149, R160: what VOICE_START seeds; volume is kept and the slot becomes the newest of REG_LIST. One sample for a zero
duration where toF of the maximum overflows is the model's choice (log 5); no reachable state has such a maximum. -/
def Obligations.VoiceStartSeedsTheSlot : Prop :=
  ∀ (f : Fields) (s : State), RunsVoiceF s f →
    let k := f.slot.toNat
    let freq := fClamp f.arg fZero (fDiv s.rate.fs fTwo)
    let n := fun p => sampleCount p s.rate.envMaxSamples
    let decayEn := fLt fZero s.params.decay && fLt s.params.sustain fOne
    exec (.voiceStart f) s = .next
      { s with
        regList := (if (s.voice k).state = .free then s.regList else s.regList.erase k) ++ [k]
        voices := s.voices.set k
          { state := if fLt fZero s.params.attack then .attack else if decayEn then .decay else .sustain
            muted := false
            glideEn := false
            decayEn := decayEn
            freq := freq
            baseFreq := freq
            volume := (s.voice k).volume
            phase := 0
            pwmCounter := 0
            sustain := s.params.sustain
            attackInc := fDiv fOne (toF (n s.params.attack))
            decayInc := fDiv (fSub fOne s.params.sustain) (toF (n s.params.decay))
            releaseInc := 0
            glideRem := 0
            glideInc := 0
            glideTarget := freq
            attackValue := 0
            currentValue :=
              if fLt fZero s.params.attack then 0 else if decayEn then fOne else s.params.sustain
            releaseValue := 0 } }

/-- R162: VOICE_RELEASE of a FREE or released slot does nothing; with RELEASE or sustain zero it retires the slot; else
it starts the release at the sustain level, over the samples of R149. -/
def Obligations.VoiceReleaseSeedsOrRetires : Prop :=
  ∀ (f : Fields) (s : State), RunsVoice s f →
    let k := f.slot.toNat
    let v := s.voice k
    let n := sampleCount s.params.release s.rate.envMaxSamples
    (v.state = .free ∨ v.state = .release → exec (.voiceRelease f) s = .next s) ∧
    (v.state ≠ .free → v.state ≠ .release →
      fEq s.params.release fZero = true ∨ fEq v.sustain fZero = true →
        exec (.voiceRelease f) s = .next
          { s with voices := s.voices.set k { v with state := .free }, regList := s.regList.erase k }) ∧
    (v.state ≠ .free → v.state ≠ .release → fEq s.params.release fZero = false → fEq v.sustain fZero = false →
        exec (.voiceRelease f) s = .next
          { s with
            voices := s.voices.set k
              { v with releaseInc := fDiv v.sustain (toF n), releaseValue := v.sustain, state := .release } })

/-- R164: VOICE_KILL retires an active slot keeping its other fields, and leaves a FREE slot alone. -/
def Obligations.VoiceKillRetires : Prop :=
  ∀ (f : Fields) (s : State), RunsVoice s f →
    let k := f.slot.toNat
    ((s.voice k).state = .free → exec (.voiceKill f) s = .next s) ∧
    ((s.voice k).state ≠ .free →
      exec (.voiceKill f) s = .next
        { s with voices := s.voices.set k { s.voice k with state := .free }, regList := s.regList.erase k })

/-- R165, R166, R167: VOICE_SET_FREQ writes the clamped frequency and cancels a glide, VOICE_SET_VOLUME writes the clamped
volume, VOICE_SET_MUTE mutes for any nonzero ARG and unmutes for zero; each in any state of the slot. -/
def Obligations.VoiceSetCommandsWriteTheirFields : Prop :=
  ∀ (f : Fields) (s : State),
    let k := f.slot.toNat
    (RunsVoiceF s f →
      exec (.voiceSetFreq f) s = .next
        { s with
          voices := s.voices.set k
            { s.voice k with freq := fClamp f.arg fZero (fDiv s.rate.fs fTwo), glideEn := false, glideRem := 0 } }) ∧
    (RunsVoiceF s f →
      exec (.voiceSetVolume f) s = .next
        { s with voices := s.voices.set k { s.voice k with volume := fClamp f.arg fZero fOne } }) ∧
    (RunsVoice s f →
      exec (.voiceSetMute f) s = .next
        { s with voices := s.voices.set k { s.voice k with muted := decide (f.arg ≠ 0) } })

/-- R149, R168, R232, R236, C11: VOICE_GLIDE leaves a FREE slot alone; else it starts a glide of exactly N steps from the
current frequency, one step for GLIDE = 0.0. That glideRem, a u32 in R43, keeps an N of 2^32 or more whole is the model's
choice (log 12), as is the one step where toF of GLIDE_MAX_SAMPLES overflows (log 5). -/
def Obligations.VoiceGlideStartsFromTheCurrentFrequency : Prop :=
  ∀ (f : Fields) (s : State), RunsVoiceF s f →
    let k := f.slot.toNat
    let t := fClamp f.arg fZero (fDiv s.rate.fs fTwo)
    let n := sampleCount s.params.glide s.rate.glideMaxSamples
    ((s.voice k).state = .free → exec (.voiceGlide f) s = .next s) ∧
    ((s.voice k).state ≠ .free →
      exec (.voiceGlide f) s = .next
        { s with
          voices := s.voices.set k
            { s.voice k with
              glideTarget := t
              glideInc := fDiv (fSub t (s.voice k).freq) (toF n)
              glideRem := n
              glideEn := true } })

/-- R163: VOICE_START s followed by VOICE_RELEASE s with RELEASE = 0.0 leaves V[s] FREE and out of REG_LIST. -/
def Obligations.StartThenReleaseWithZeroReleaseFrees : Prop :=
  ∀ (f g : Fields) (s : State), RegistryExact s → RunsVoiceF s f → g.rsv = 0 → g.slot = f.slot →
    fEq s.params.release fZero = true →
      ∃ t u, exec (.voiceStart f) s = .next t ∧ exec (.voiceRelease g) t = .next u ∧
        (u.voice f.slot.toNat).state = .free ∧ f.slot.toNat ∉ u.regList

/-! ## Units -/

/-- R190–R195, R212, R231, R241–R243: one sample of a slot. An unmuted slot glides, takes its oscillator sample at the
phase before the advance, steps its envelope, and adds (x × e) × volume unless the envelope died; a muted slot only steps
its envelope. -/
def Obligations.SlotSampleFollowsTheRenderOrder : Prop :=
  ∀ (c : Config) (fs bend : F) (w : Wave) (v : Voice),
    (v.muted = true →
      slotSample c fs bend w v = { voice := (envStep v).voice, alive := (envStep v).alive, adds := none }) ∧
    (v.muted = false →
      let g := glideStep v
      let x := match w with
        | .pulse => if fLt g.phase (pwmWidthAt c g.pwmCounter) then c.pulseHi else c.pulseLo
        | .triangle =>
          c.triRom.getD (min (c.triRom.length - 1) (floorN (fMul g.phase (toF c.triRom.length)))) 0
      let e := envStep
        { g with
          pwmCounter := g.pwmCounter + 1
          phase := fMod (fAdd g.phase (fDiv (fMul g.freq bend) fs)) fOne }
      slotSample c fs bend w v =
        { voice := e.voice
          alive := e.alive
          adds := if e.alive then some (fMul (fMul x e.amp) v.volume) else none })

/-- R212: the envelope step of each state: the new fields, the amplitude and the alive flag. -/
def Obligations.EnvelopeStepFollowsItsState : Prop :=
  ∀ v : Voice,
    (v.state = .attack →
      let a := fAdd v.attackValue v.attackInc
      (fLe fOne a = false → envStep v = { voice := { v with attackValue := a }, amp := a, alive := true }) ∧
      (fLe fOne a = true → v.decayEn = true →
        envStep v =
          { voice := { v with attackValue := fOne, state := .decay, currentValue := fOne }, amp := fOne, alive := true }) ∧
      (fLe fOne a = true → v.decayEn = false →
        envStep v =
          { voice := { v with attackValue := fOne, state := .sustain, currentValue := v.sustain }
            amp := fOne
            alive := true })) ∧
    (v.state = .decay →
      let d := fSub v.currentValue v.decayInc
      (fLe d v.sustain = true →
        envStep v =
          { voice := { v with currentValue := v.sustain, state := .sustain }, amp := v.sustain, alive := true }) ∧
      (fLe d v.sustain = false →
        envStep v = { voice := { v with currentValue := d }, amp := d, alive := true })) ∧
    (v.state = .sustain → envStep v = { voice := v, amp := v.currentValue, alive := true }) ∧
    (v.state = .release →
      let r := fSub v.releaseValue v.releaseInc
      (fLt r fZero = true → envStep v = { voice := { v with releaseValue := r }, amp := 0, alive := false }) ∧
      (fLt r fZero = false → envStep v = { voice := { v with releaseValue := r }, amp := r, alive := true }))

/-- R213: from registers in their legal ranges, every amplitude is finite and in [0.0, 1.0]. -/
def Obligations.EnvelopeAmplitudeStaysInUnit : Prop :=
  ∀ v : Voice, v.state ≠ .free → EnvelopeLegal v → inRange fZero fOne (envStep v).amp = true

/-- R231, R232, C11: a glide step leaves a slot that does not glide alone, and else adds glideInc to freq and takes one from
glideRem, or on the last step snaps freq to glideTarget and stops. So a glide of N = glideRem steps adds the same glideInc on
each step before the last, ends on the target exactly on step N, for every natural N ≥ 1, and then holds; no other field
ever changes. That the count is exact for an N of 2^32 or more, where R43 makes glideRem a u32, is the model's choice
(log 12). -/
def Obligations.GlideEndsOnItsTarget : Prop :=
  ∀ v : Voice,
    (v.glideEn = false → glideStep v = v) ∧
    (v.glideEn = true →
      glideStep v =
        if v.glideRem - 1 = 0 then { v with freq := v.glideTarget, glideRem := 0, glideEn := false }
        else { v with freq := fAdd v.freq v.glideInc, glideRem := v.glideRem - 1 }) ∧
    (∀ i,
      glideTimes v i =
        { v with
          freq := (glideTimes v i).freq, glideRem := (glideTimes v i).glideRem, glideEn := (glideTimes v i).glideEn }) ∧
    (v.glideEn = true → v.glideRem ≠ 0 →
      (∀ i, i < v.glideRem → (glideTimes v i).glideEn = true ∧ (glideTimes v i).glideRem = v.glideRem - i) ∧
      (∀ i, i + 1 < v.glideRem → (glideTimes v (i + 1)).freq = fAdd (glideTimes v i).freq v.glideInc) ∧
      ∀ i, v.glideRem ≤ i →
        (glideTimes v i).glideEn = false ∧ (glideTimes v i).freq = v.glideTarget ∧ (glideTimes v i).glideRem = 0)

/-- R289, R294: one sweep step, with the default LFO_SWEEP. -/
def Obligations.SweepStepFollowsTheLfo : Prop :=
  ∀ s : State, s.cfg.lfoSweep = .linear →
    let idx := min 127 (floorN (fDiv s.lfo.acc s.rate.lfoSpe))
    let sum := fAdd s.lfo.acc s.lfo.rate
    let acc := if fLe s.rate.fs sum then fSub sum s.rate.fs else sum
    let u := fMul (fAdd (s.cfg.lfoRom.getD idx 0) fOne) fHalf
    let lo := s.cfg.filterMinCutoff
    let cut := fClamp (fAdd lo (fMul (fMul u s.lfo.depth) (fSub (fMul s.rate.nyqLimit fHalf) lo))) lo s.rate.nyqLimit
    let k := filterCoeffs s.cfg s.rate.fs cut s.filt.resonance
    sweepStep s =
      { s with
        lfo := { s.lfo with acc := acc }
        filt := { s.filt with tempCutoff := cut, a1 := k.a1, a2 := k.a2, a3 := k.a3, b1 := k.b1, b2 := k.b2 } }

/-- R10: each operation on finite operands, with a nonzero divisor, gives the exact result rounded once to nearest, ties to
even: never a NaN, finite exactly where the exact magnitude is below the overflow threshold and then with no finite value
nearer, else the infinity of its sign; the sign bit is that of the exact result, zeros included. -/
def Obligations.ArithmeticRoundsToNearest : Prop :=
  ∀ a b : F, isFinite a = true → isFinite b = true →
    RoundedTo (fAdd a b) (sumNeg (fNeg a) (fNeg b) (valueUnits a + valueUnits b)) (valueUnits a + valueUnits b) 1 ∧
    RoundedTo (fSub a b) (sumNeg (fNeg a) (!fNeg b) (valueUnits a - valueUnits b)) (valueUnits a - valueUnits b) 1 ∧
    RoundedTo (fMul a b) (fNeg a != fNeg b) (valueUnits a * valueUnits b) (2 ^ 149) ∧
    (fUnits b ≠ 0 →
      RoundedTo (fDiv a b) (fNeg a != fNeg b) (if fNeg b then -(valueUnits a * 2 ^ 149) else valueUnits a * 2 ^ 149)
        (fUnits b))

/-- R10: each operation on infinities, NaNs and a zero divisor, as IEEE 754 defines it. -/
def Obligations.ArithmeticOnSpecialValues : Prop :=
  ∀ a b : F,
    (isNaN a = true ∨ isNaN b = true →
      isNaN (fAdd a b) = true ∧ isNaN (fSub a b) = true ∧ isNaN (fMul a b) = true ∧ isNaN (fDiv a b) = true) ∧
    (isInf a = true → isFinite b = true →
      fAdd a b = a ∧ fAdd b a = a ∧ fSub a b = a ∧ fSub b a = fInf (!fNeg a) ∧
        fDiv a b = fInf (fNeg a != fNeg b) ∧ fDiv b a = fPack (fNeg b != fNeg a) 0 ∧
          (fUnits b ≠ 0 → fMul a b = fInf (fNeg a != fNeg b) ∧ fMul b a = fInf (fNeg b != fNeg a)) ∧
            (fUnits b = 0 → isNaN (fMul a b) = true ∧ isNaN (fMul b a) = true)) ∧
    (isInf a = true → isInf b = true →
      (fNeg a = fNeg b → fAdd a b = a ∧ isNaN (fSub a b) = true) ∧
        (fNeg a ≠ fNeg b → isNaN (fAdd a b) = true ∧ fSub a b = a) ∧
          fMul a b = fInf (fNeg a != fNeg b) ∧ isNaN (fDiv a b) = true) ∧
    (isFinite a = true → isFinite b = true → fUnits b = 0 →
      (fUnits a ≠ 0 → fDiv a b = fInf (fNeg a != fNeg b)) ∧ (fUnits a = 0 → isNaN (fDiv a b) = true))

/-- R11: isNaN and isFinite read the exponent and fraction fields; comparisons order the values, −0.0 equal to +0.0, and are
false of a NaN; min and max return one of their operands; floorN is the greatest natural at most v; fmodF is the exact
remainder a − b × trunc(a/b), in [0, b), and where it is open but b > 0 it lies there too (the model's choice, log 5); toF rounds
to nearest even. -/
def Obligations.PrimitivesFollowTheirDefinitions : Prop :=
  (∀ a : F,
    (isNaN a = true ↔ a.extractLsb' 23 8 = 0xFF ∧ a.extractLsb' 0 23 ≠ 0) ∧
      (isFinite a = true ↔ a.extractLsb' 23 8 ≠ 0xFF)) ∧
    (∀ a b : F, isFinite a = true → isFinite b = true →
      (fLt a b = true ↔ valueUnits a < valueUnits b) ∧ (fLe a b = true ↔ valueUnits a ≤ valueUnits b) ∧
        (fEq a b = true ↔ valueUnits a = valueUnits b)) ∧
    (∀ a : F, isFinite a = true → fLt a 0x7F800000 = true ∧ fLt 0xFF800000 a = true) ∧
    (∀ a b : F, isNaN a = true ∨ isNaN b = true → fLt a b = false ∧ fLe a b = false ∧ fEq a b = false) ∧
    (∀ a b : F, isNaN a = false → isNaN b = false →
      fMin a b = (if fLe a b then a else b) ∧ fMax a b = (if fLe b a then a else b)) ∧
    (∀ v : F, isFinite v = true → fLe fZero v = true →
      (floorN v : Int) * 2 ^ 149 ≤ valueUnits v ∧ valueUnits v < ((floorN v : Int) + 1) * 2 ^ 149) ∧
    (∀ a b : F, isFinite a = true → isFinite b = true → fLe fZero a = true → fLt fZero b = true →
      isFinite (fMod a b) = true ∧
        valueUnits (fMod a b) = valueUnits a - valueUnits b * (valueUnits a / valueUnits b) ∧
          fLe fZero (fMod a b) = true ∧ fLt (fMod a b) b = true) ∧
    (∀ a b : F, fLt fZero b = true → fLe fZero (fMod a b) = true ∧ fLt (fMod a b) b = true) ∧
    ∀ n : Nat, RoundedTo (toF n) false ((n : Int) * 2 ^ 149) 1

/-! ## Block commands -/

/-- R265, R266, R333: RM_BLOCK with RM_RATE ≠ 0.0 is, on channels 0 and 1 of its region, the feedback recurrence from
RM_PREV under the square carrier; RM_PHASE steps n times; nothing outside the region changes. -/
def Obligations.RmBlockIsTheFeedbackRecurrence : Prop :=
  ∀ (f : Fields) (s : State), RunsBlock s f → s.buf.wf = true → fEq s.rm.rate fZero = false →
    let k := min f.slot.toNat 2
    let n := f.arg.toNat
    ∃ t, exec (.rmBlock f) s = .next t ∧
      t = { s with buf := t.buf, rm := t.rm, status := t.status } ∧
      (∀ c i, c < k → i < n → t.readBuf c i = rmPrevAt s (s.readBuf c) c (i + 1)) ∧
      t.rm = rmAfter s s.readBuf k n ∧ SameOutsideRegion k n s t ∧ FlagsNonFinite k n s.status t

/-- R261, R268: with RM_RATE = 0.0, −0.0 included, RM_BLOCK changes nothing at all, NaN samples included. -/
def Obligations.RmBypassIsBitIdentical : Prop :=
  ∀ (f : Fields) (s : State), RunsBlock s f → fEq s.rm.rate fZero = true →
    exec (.rmBlock f) s = .next s ∧ rmApply f.slot.toNat f.arg.toNat s = s

/-- R287, R288, R290, R333: FILT_BLOCK is, channel by channel, the difference equation run from FD[c] over the region,
each frame with that frame's coefficients; with the LFO on it leaves the state n sweep steps leave; nothing outside the
region changes. -/
def Obligations.FiltBlockIsTheDifferenceEquation : Prop :=
  ∀ (f : Fields) (s : State), RunsBlock s f → StorageSound s →
    let nc := f.slot.toNat
    let n := f.arg.toNat
    ∃ t, exec (.filtBlock f) s = .next t ∧
      t = { s with buf := t.buf, delays := t.delays, filt := t.filt, lfo := t.lfo, status := t.status } ∧
      (∀ c i, c < nc → i < n → t.readBuf c i = (delayAt s c (i + 1)).out1) ∧
      (∀ c, c < nc → t.delay c = delayAt s c n) ∧ (∀ c, nc ≤ c → t.delay c = s.delay c) ∧
      (s.lfo.en = true → t.filt = (sweptState s n).filt ∧ t.lfo = (sweptState s n).lfo) ∧
      (s.lfo.en = false → t.filt = s.filt ∧ t.lfo = s.lfo) ∧
      SameOutsideRegion nc n s t ∧ FlagsNonFinite nc n s.status t

/-- R240, R241, R244, R245, R265, R269: SYNTH_BLOCK with an active slot. Each sample is the mix of the slots, newest
first, ring-modulated on channels 0 and 1 when RM_RATE ≠ 0.0; every slot of REG_LIST is advanced n samples or disposed;
the other slots are as they were. -/
def Obligations.SynthBlockMixesTheSlots : Prop :=
  ∀ (f : Fields) (s : State), RunsBlock s f → s.buf.wf = true → RegistryExact s → s.regList ≠ [] →
    let nc := f.slot.toNat
    let n := f.arg.toNat
    let w := if fEq s.rm.rate fZero then Wave.pulse else Wave.triangle
    ∃ t, exec (.synthBlock f) s = .next t ∧
      (∀ c i, c < nc → i < n → fEq s.rm.rate fZero = true ∨ 2 ≤ c → t.readBuf c i = mixAt s w i) ∧
      (∀ c i, c < min nc 2 → i < n → fEq s.rm.rate fZero = false →
        t.readBuf c i = rmPrevAt s (mixAt s w) c (i + 1)) ∧
      t.rm = (if fEq s.rm.rate fZero then s.rm else rmAfter s (fun _ => mixAt s w) (min nc 2) n) ∧
      (∀ k, k ∈ s.regList → t.voice k = slotAfter s w k n) ∧ (∀ k, k ∉ s.regList → t.voice k = s.voice k) ∧
      t.regList = s.regList.filter fun k => !disposed s w k n

/-- R240, R246: what SYNTH_BLOCK leaves unchanged, and its response: 1 exactly when REG_LIST was not empty. -/
def Obligations.SynthBlockFrameAndResponse : Prop :=
  ∀ (f : Fields) (s : State), RunsBlock s f →
    let nc := f.slot.toNat
    let n := f.arg.toNat
    ∃ t, exec (.synthBlock f) s = .next t ∧
      t = { s with
            buf := t.buf, voices := t.voices, regList := t.regList, rm := t.rm, fifo := t.fifo
            status := t.status } ∧
      t.rm.rate = s.rm.rate ∧ t.rm.incr = s.rm.incr ∧
      (s.fifo.length < s.cfg.respDepth →
        t.fifo = s.fifo ++ [if s.regList = [] then 0 else 1] ∧ FlagsNonFinite nc n s.status t) ∧
      (s.cfg.respDepth ≤ s.fifo.length → t.fifo = s.fifo ∧ FlagsNonFinite nc n (s.status ||| 0x20) t) ∧
      SameOutsideRegion nc n s t

/-- R240: with no active slot SYNTH_BLOCK clears its region, responds 0, and changes nothing else: the ring modulator
does not run. -/
def Obligations.SynthBlockWithoutVoicesClears : Prop :=
  ∀ (f : Fields) (s : State), RunsBlock s f → s.buf.wf = true → s.regList = [] →
    ∃ t, exec (.synthBlock f) s = .next t ∧ t = { s with buf := t.buf, fifo := t.fifo, status := t.status } ∧
      (∀ c i, c < f.slot.toNat → i < f.arg.toNat → t.readBuf c i = 0) ∧
      SameOutsideRegion f.slot.toNat f.arg.toNat s t ∧
      (s.fifo.length < s.cfg.respDepth → t.fifo = s.fifo ++ [0] ∧ t.status = s.status) ∧
      (s.cfg.respDepth ≤ s.fifo.length → t.fifo = s.fifo ∧ t.status = s.status ||| 0x20)

/-- R247: SYNTH_BLOCK with n = 0 changes nothing but the response. -/
def Obligations.SynthBlockOfNoSamplesOnlyResponds : Prop :=
  ∀ (f : Fields) (s : State), RunsBlock s f → f.arg = 0 →
    ∃ t, exec (.synthBlock f) s = .next t ∧ RespondedWith (if s.regList = [] then 0 else 1) s t

/-! ## Host bus -/

/-- R72: a RESP read pops and returns the oldest word; of an empty FIFO it returns 0 and raises BADACC. -/
def Obligations.RespReadPopsTheOldestWord : Prop :=
  ∀ (s : State) (rest : List HostAccess), s.pending = .read 0x8 .w4 :: rest →
    (∀ w ws, s.fifo = w :: ws →
      step s = .next { s with pending := rest, fifo := ws, replies := s.replies ++ [w.setWidth 64] }) ∧
    (s.fifo = [] →
      step s = .next { s with pending := rest, status := s.status ||| 0x10, replies := s.replies ++ [0] })

/-- R71, R73, R331: every access the bus map does not admit is refused: BADACC, a read gets 0, and nothing else
changes; no command runs. -/
def Obligations.RefusedAccessesOnlyRaiseBadAcc : Prop :=
  ∀ (s : State) (rest : List HostAccess),
    (∀ a w, s.pending = .read a w :: rest → ¬admittedAccess s (.read a w) →
      step s = .next { s with pending := rest, status := s.status ||| 0x10, replies := s.replies ++ [0] }) ∧
    ∀ a w d, s.pending = .write a w d :: rest → ¬admittedAccess s (.write a w d) →
      step s = .next { s with pending := rest, status := s.status ||| 0x10 }

/-- R71, R78: reads of RESP_COUNT, STATUS_MIRROR and BUF answer the value and have no side effect, READY or not. -/
def Obligations.OtherReadsHaveNoSideEffect : Prop :=
  ∀ (s : State) (rest : List HostAccess),
    (s.pending = .read 0xC .w4 :: rest → s.fifo.length < 2 ^ 32 →
      step s = .next { s with pending := rest, replies := s.replies ++ [BitVec.ofNat 64 s.fifo.length] }) ∧
    (s.pending = .read 0x10 .w4 :: rest →
      step s = .next { s with pending := rest, replies := s.replies ++ [s.status.setWidth 64] }) ∧
    ∀ (a : BitVec 32) c i, c < s.cfg.maxChannels → i < s.cfg.maxBlock →
      a.toNat = 0x10000 + 4 * (c * s.cfg.maxBlock + i) → s.pending = .read a .w4 :: rest →
        step s = .next { s with pending := rest, replies := s.replies ++ [(s.readBuf c i).setWidth 64] }

/-- R71, R74, R85: a BUF write stores the pattern exactly, little-endian at its address, and changes no other byte. -/
def Obligations.BufWriteStoresThePattern : Prop :=
  ∀ (s : State) (rest : List HostAccess) (a : BitVec 32) (d : BitVec 64) (c i : Nat),
    c < s.cfg.maxChannels → i < s.cfg.maxBlock → a.toNat = 0x10000 + 4 * (c * s.cfg.maxBlock + i) →
      s.buf.wf = true → s.pending = .write a .w4 d :: rest →
        ∃ t, step s = .next t ∧ t = { s with pending := rest, buf := t.buf } ∧ t.readBuf c i = d.setWidth 32 ∧
          (∀ k, k < 4 → t.buf.readByte (a.toNat + k) = d.extractLsb' (8 * k) 8) ∧
          ∀ b, b < a.toNat ∨ a.toNat + 4 ≤ b → t.buf.readByte b = s.buf.readByte b

/-! ## Invariants and whole-machine rules -/

/-- R68, R360: two blocks that differ at most in what power-on leaves unspecified besides BUF do the same while READY =
0: after any access they still differ at most there, or INIT has made them equal. So the values the model names for
those registers (log 6) are unobservable. -/
def Obligations.UnspecifiedRegistersAreUnobservable : Prop :=
  ∀ s t s' : State, SameSpecified s t → s.ready = false → step s = .next s' →
    ∃ t', step t = .next t' ∧ (s' = t' ∨ (SameSpecified s' t' ∧ s'.ready = false))

/-- R42, R44, R50: every step keeps REG_LIST exactly the active slots, each once. -/
def Obligations.StepKeepsTheRegistryExact : Prop :=
  ∀ s t : State, RegistryExact s → step s = .next t → RegistryExact t

/-- R44, R193, R265: at power-on (the model's choice of the registers, log 6) and after every step, glideEn = 1 implies
glideRem ≥ 1 in every slot, glides of 2^32 steps and more included (there the model's choice, log 12); and the phase of every slot lies in [0.0, 1.0) and RM_PHASE
in [0.0, TWO_PI_F), negative frequencies and overflowing increments included (there the model's choice, log 5). -/
def Obligations.StepKeepsGlidesCountedAndPhasesInRange : Prop :=
  (∀ (c : Config) (m : Memory), GlidesCounted (State.powerOn c m) ∧ PhasesInRange (State.powerOn c m)) ∧
    (∀ s t : State, GlidesCounted s → step s = .next t → GlidesCounted t) ∧
      ∀ s t : State, PhasesInRange s → step s = .next t → PhasesInRange t

/-- R33, R51, R68, R360: power-on leaves STATUS = 0 and an empty response FIFO, for every configuration and content of
BUF; the state the model names there (log 6, log 7) meets the invariants below. -/
def Obligations.PowerOnIsNotReady : Prop :=
  ∀ (c : Config) (m : Memory),
    (State.powerOn c m).status = 0 ∧ (State.powerOn c m).fifo = [] ∧ (State.powerOn c m).cfg = c ∧
      (State.powerOn c m).buf = m ∧ RegistryExact (State.powerOn c m) ∧
        (m.wf = true → StorageSound (State.powerOn c m)) ∧ CoeffsCurrent (State.powerOn c m) ∧
          DerivedCurrent (State.powerOn c m) ∧ CutoffInRange (State.powerOn c m) ∧ Memory.wf State.reset.buf = true

/-- R33, R48, R51: every step keeps memory canonical, STATUS[30:6] zero, the FIFO within RESP_DEPTH and one FD per
channel. -/
def Obligations.StepKeepsStorageSound : Prop := ∀ s t : State, StorageSound s → step s = .next t → StorageSound t

/-- R38: the coefficient registers always hold the coefficients of TEMP_CUTOFF and RESONANCE: so at power-on (READY is
0), and every step keeps it. -/
def Obligations.StepKeepsCoefficientsCurrent : Prop :=
  (∀ (c : Config) (m : Memory), CoeffsCurrent (State.powerOn c m)) ∧
    ∀ s t : State, CoeffsCurrent s → step s = .next t → CoeffsCurrent t

/-- R8, R35, R262: the derived constants and RM_INCR always are those of FS and RM_RATE. -/
def Obligations.StepKeepsDerivedConstantsCurrent : Prop :=
  (∀ (c : Config) (m : Memory), DerivedCurrent (State.powerOn c m)) ∧
    ∀ s t : State, DerivedCurrent s → step s = .next t → DerivedCurrent t

/-- R293: on a block with a legal configuration, after INIT and every step from there, CUTOFF and TEMP_CUTOFF lie in
[FILTER_MIN_CUTOFF, NYQ_LIMIT], so never above the F value (FS / 2.0) − NYQ_EPS, whatever LFO_SWEEP returns: with the default
law and with a custom one that returns finite values. The invariant holds at power-on, where READY is 0. -/
def Obligations.CutoffNeverExceedsTheNyquistLimit : Prop :=
  (∀ (c : Config) (m : Memory), CutoffInRange (State.powerOn c m)) ∧
    ∀ s t : State, configLegal s.cfg = true → LawsLegal s.cfg → CutoffInRange s → step s = .next t → CutoffInRange t

/-- R33: no step clears READY; R7: no step changes the configuration; R346: every step completes. -/
def Obligations.StepsCompleteAndKeepReady : Prop :=
  ∀ s : State, ∃ t, step s = .next t ∧ t.cfg = s.cfg ∧ (s.ready = true → t.ready = true)

/-- R123: only INIT writes FS, the constants derived from it, and READY. -/
def Obligations.OnlyInitWritesTheSampleRate : Prop :=
  ∀ (i : Instr) (s t : State), i.opcode ≠ .init → exec i s = .next t → t.rate = s.rate ∧ t.ready = s.ready

/-- R75, R52: no command but the three block commands touches buffer memory, and no command touches the host's
accesses. -/
def Obligations.OnlyBlockCommandsTouchBuf : Prop :=
  ∀ (i : Instr) (s t : State), exec i s = .next t →
    t.pending = s.pending ∧ t.replies = s.replies ∧
      (i.opcode ≠ .synthBlock → i.opcode ≠ .rmBlock → i.opcode ≠ .filtBlock → t.buf = s.buf)


/-- R106, R51: GET, LFO_PEEK and SYNTH_BLOCK push exactly one word each, 0xFFFFFFFF when they are rejected, unless the FIFO
is full, when the word is lost and RESPOVF raised; no other command, and no reserved opcode, touches the FIFO. -/
def Obligations.OnlyThreeOpcodesRespondOnce : Prop :=
  (∀ (i : Instr) (s t : State), exec i s = .next t →
    (¬responding i → t.fifo = s.fifo) ∧
    (responding i → s.fifo.length < s.cfg.respDepth →
      ∃ w, t.fifo = s.fifo ++ [w] ∧
        (¬(s.ready = true ∨ beforeInit i) ∨ wellFormed s.cfg i = false → w = 0xFFFFFFFF)) ∧
    (responding i → s.cfg.respDepth ≤ s.fifo.length → t.fifo = s.fifo ∧ t.status.getLsbD 5 = true)) ∧
    ∀ (w : CommandWord) (s : State), reservedByte (w.extractLsb' 0 8) →
      ∃ t, runCommand w s = .next t ∧ t.fifo = s.fifo
end

