-- ==== Sys2Proof/Laws/State.lean ====
section
/-! SUPPORT. What each named update leaves of each field of State: one lemma per field per update. -/

namespace Sys2Proof.Machine

/-! ## raise -/

@[simp] theorem State.raise_cfg (s : State) (e : Event) : (s.raise e).cfg = s.cfg := rfl
@[simp] theorem State.raise_status (s : State) (e : Event) : (s.raise e).status = s.status ||| BitVec.twoPow 32 e.code := rfl
@[simp] theorem State.raise_rate (s : State) (e : Event) : (s.raise e).rate = s.rate := rfl
@[simp] theorem State.raise_params (s : State) (e : Event) : (s.raise e).params = s.params := rfl
@[simp] theorem State.raise_rm (s : State) (e : Event) : (s.raise e).rm = s.rm := rfl
@[simp] theorem State.raise_filt (s : State) (e : Event) : (s.raise e).filt = s.filt := rfl
@[simp] theorem State.raise_lfo (s : State) (e : Event) : (s.raise e).lfo = s.lfo := rfl
@[simp] theorem State.raise_voices (s : State) (e : Event) : (s.raise e).voices = s.voices := rfl
@[simp] theorem State.raise_delays (s : State) (e : Event) : (s.raise e).delays = s.delays := rfl
@[simp] theorem State.raise_regList (s : State) (e : Event) : (s.raise e).regList = s.regList := rfl
@[simp] theorem State.raise_fifo (s : State) (e : Event) : (s.raise e).fifo = s.fifo := rfl
@[simp] theorem State.raise_buf (s : State) (e : Event) : (s.raise e).buf = s.buf := rfl
@[simp] theorem State.raise_pending (s : State) (e : Event) : (s.raise e).pending = s.pending := rfl
@[simp] theorem State.raise_replies (s : State) (e : Event) : (s.raise e).replies = s.replies := rfl

/-! ## writeBuf -/

@[simp] theorem State.writeBuf_cfg (s : State) (c i : Nat) (v : F) : (s.writeBuf c i v).cfg = s.cfg := rfl
@[simp] theorem State.writeBuf_status (s : State) (c i : Nat) (v : F) : (s.writeBuf c i v).status = s.status := rfl
@[simp] theorem State.writeBuf_rate (s : State) (c i : Nat) (v : F) : (s.writeBuf c i v).rate = s.rate := rfl
@[simp] theorem State.writeBuf_params (s : State) (c i : Nat) (v : F) : (s.writeBuf c i v).params = s.params := rfl
@[simp] theorem State.writeBuf_rm (s : State) (c i : Nat) (v : F) : (s.writeBuf c i v).rm = s.rm := rfl
@[simp] theorem State.writeBuf_filt (s : State) (c i : Nat) (v : F) : (s.writeBuf c i v).filt = s.filt := rfl
@[simp] theorem State.writeBuf_lfo (s : State) (c i : Nat) (v : F) : (s.writeBuf c i v).lfo = s.lfo := rfl
@[simp] theorem State.writeBuf_voices (s : State) (c i : Nat) (v : F) : (s.writeBuf c i v).voices = s.voices := rfl
@[simp] theorem State.writeBuf_delays (s : State) (c i : Nat) (v : F) : (s.writeBuf c i v).delays = s.delays := rfl
@[simp] theorem State.writeBuf_regList (s : State) (c i : Nat) (v : F) : (s.writeBuf c i v).regList = s.regList := rfl
@[simp] theorem State.writeBuf_fifo (s : State) (c i : Nat) (v : F) : (s.writeBuf c i v).fifo = s.fifo := rfl
@[simp] theorem State.writeBuf_buf (s : State) (c i : Nat) (v : F) : (s.writeBuf c i v).buf = s.buf.writeWord (bufAddr s.cfg c i) v := rfl
@[simp] theorem State.writeBuf_pending (s : State) (c i : Nat) (v : F) : (s.writeBuf c i v).pending = s.pending := rfl
@[simp] theorem State.writeBuf_replies (s : State) (c i : Nat) (v : F) : (s.writeBuf c i v).replies = s.replies := rfl

/-! ## setVoice -/

@[simp] theorem State.setVoice_cfg (s : State) (k : Nat) (v : Voice) : (s.setVoice k v).cfg = s.cfg := rfl
@[simp] theorem State.setVoice_status (s : State) (k : Nat) (v : Voice) : (s.setVoice k v).status = s.status := rfl
@[simp] theorem State.setVoice_rate (s : State) (k : Nat) (v : Voice) : (s.setVoice k v).rate = s.rate := rfl
@[simp] theorem State.setVoice_params (s : State) (k : Nat) (v : Voice) : (s.setVoice k v).params = s.params := rfl
@[simp] theorem State.setVoice_rm (s : State) (k : Nat) (v : Voice) : (s.setVoice k v).rm = s.rm := rfl
@[simp] theorem State.setVoice_filt (s : State) (k : Nat) (v : Voice) : (s.setVoice k v).filt = s.filt := rfl
@[simp] theorem State.setVoice_lfo (s : State) (k : Nat) (v : Voice) : (s.setVoice k v).lfo = s.lfo := rfl
@[simp] theorem State.setVoice_voices (s : State) (k : Nat) (v : Voice) : (s.setVoice k v).voices = s.voices.set k v := rfl
@[simp] theorem State.setVoice_delays (s : State) (k : Nat) (v : Voice) : (s.setVoice k v).delays = s.delays := rfl
@[simp] theorem State.setVoice_regList (s : State) (k : Nat) (v : Voice) : (s.setVoice k v).regList = s.regList := rfl
@[simp] theorem State.setVoice_fifo (s : State) (k : Nat) (v : Voice) : (s.setVoice k v).fifo = s.fifo := rfl
@[simp] theorem State.setVoice_buf (s : State) (k : Nat) (v : Voice) : (s.setVoice k v).buf = s.buf := rfl
@[simp] theorem State.setVoice_pending (s : State) (k : Nat) (v : Voice) : (s.setVoice k v).pending = s.pending := rfl
@[simp] theorem State.setVoice_replies (s : State) (k : Nat) (v : Voice) : (s.setVoice k v).replies = s.replies := rfl

/-! ## setDelay -/

@[simp] theorem State.setDelay_cfg (s : State) (c : Nat) (d : Delay) : (s.setDelay c d).cfg = s.cfg := rfl
@[simp] theorem State.setDelay_status (s : State) (c : Nat) (d : Delay) : (s.setDelay c d).status = s.status := rfl
@[simp] theorem State.setDelay_rate (s : State) (c : Nat) (d : Delay) : (s.setDelay c d).rate = s.rate := rfl
@[simp] theorem State.setDelay_params (s : State) (c : Nat) (d : Delay) : (s.setDelay c d).params = s.params := rfl
@[simp] theorem State.setDelay_rm (s : State) (c : Nat) (d : Delay) : (s.setDelay c d).rm = s.rm := rfl
@[simp] theorem State.setDelay_filt (s : State) (c : Nat) (d : Delay) : (s.setDelay c d).filt = s.filt := rfl
@[simp] theorem State.setDelay_lfo (s : State) (c : Nat) (d : Delay) : (s.setDelay c d).lfo = s.lfo := rfl
@[simp] theorem State.setDelay_voices (s : State) (c : Nat) (d : Delay) : (s.setDelay c d).voices = s.voices := rfl
@[simp] theorem State.setDelay_delays (s : State) (c : Nat) (d : Delay) : (s.setDelay c d).delays = s.delays.set c d := rfl
@[simp] theorem State.setDelay_regList (s : State) (c : Nat) (d : Delay) : (s.setDelay c d).regList = s.regList := rfl
@[simp] theorem State.setDelay_fifo (s : State) (c : Nat) (d : Delay) : (s.setDelay c d).fifo = s.fifo := rfl
@[simp] theorem State.setDelay_buf (s : State) (c : Nat) (d : Delay) : (s.setDelay c d).buf = s.buf := rfl
@[simp] theorem State.setDelay_pending (s : State) (c : Nat) (d : Delay) : (s.setDelay c d).pending = s.pending := rfl
@[simp] theorem State.setDelay_replies (s : State) (c : Nat) (d : Delay) : (s.setDelay c d).replies = s.replies := rfl

/-! ## retire -/

@[simp] theorem State.retire_cfg (s : State) (k : Nat) : (s.retire k).cfg = s.cfg := rfl
@[simp] theorem State.retire_status (s : State) (k : Nat) : (s.retire k).status = s.status := rfl
@[simp] theorem State.retire_rate (s : State) (k : Nat) : (s.retire k).rate = s.rate := rfl
@[simp] theorem State.retire_params (s : State) (k : Nat) : (s.retire k).params = s.params := rfl
@[simp] theorem State.retire_rm (s : State) (k : Nat) : (s.retire k).rm = s.rm := rfl
@[simp] theorem State.retire_filt (s : State) (k : Nat) : (s.retire k).filt = s.filt := rfl
@[simp] theorem State.retire_lfo (s : State) (k : Nat) : (s.retire k).lfo = s.lfo := rfl
@[simp] theorem State.retire_voices (s : State) (k : Nat) : (s.retire k).voices = s.voices.set k { s.voice k with state := .free } := rfl
@[simp] theorem State.retire_delays (s : State) (k : Nat) : (s.retire k).delays = s.delays := rfl
@[simp] theorem State.retire_regList (s : State) (k : Nat) : (s.retire k).regList = s.regList.erase k := rfl
@[simp] theorem State.retire_fifo (s : State) (k : Nat) : (s.retire k).fifo = s.fifo := rfl
@[simp] theorem State.retire_buf (s : State) (k : Nat) : (s.retire k).buf = s.buf := rfl
@[simp] theorem State.retire_pending (s : State) (k : Nat) : (s.retire k).pending = s.pending := rfl
@[simp] theorem State.retire_replies (s : State) (k : Nat) : (s.retire k).replies = s.replies := rfl

/-! ## silence -/

@[simp] theorem State.silence_cfg (s : State) : (s.silence).cfg = s.cfg := rfl
@[simp] theorem State.silence_status (s : State) : (s.silence).status = s.status := rfl
@[simp] theorem State.silence_rate (s : State) : (s.silence).rate = s.rate := rfl
@[simp] theorem State.silence_params (s : State) : (s.silence).params = s.params := rfl
@[simp] theorem State.silence_rm (s : State) : (s.silence).rm = { s.rm with prev0 := fZero, prev1 := fZero } := rfl
@[simp] theorem State.silence_filt (s : State) : (s.silence).filt = s.filt := rfl
@[simp] theorem State.silence_lfo (s : State) : (s.silence).lfo = s.lfo := rfl
@[simp] theorem State.silence_voices (s : State) : (s.silence).voices = s.voices := rfl
@[simp] theorem State.silence_delays (s : State) : (s.silence).delays = List.replicate s.cfg.maxChannels Delay.zero := rfl
@[simp] theorem State.silence_regList (s : State) : (s.silence).regList = [] := rfl
@[simp] theorem State.silence_fifo (s : State) : (s.silence).fifo = s.fifo := rfl
@[simp] theorem State.silence_buf (s : State) : (s.silence).buf = s.buf := rfl
@[simp] theorem State.silence_pending (s : State) : (s.silence).pending = s.pending := rfl
@[simp] theorem State.silence_replies (s : State) : (s.silence).replies = s.replies := rfl

/-! ## respond -/

@[simp] theorem State.respond_cfg (s : State) (w : Word) : (s.respond w).cfg = s.cfg := by
  unfold State.respond; split <;> rfl
@[simp] theorem State.respond_rate (s : State) (w : Word) : (s.respond w).rate = s.rate := by
  unfold State.respond; split <;> rfl
@[simp] theorem State.respond_params (s : State) (w : Word) : (s.respond w).params = s.params := by
  unfold State.respond; split <;> rfl
@[simp] theorem State.respond_rm (s : State) (w : Word) : (s.respond w).rm = s.rm := by
  unfold State.respond; split <;> rfl
@[simp] theorem State.respond_filt (s : State) (w : Word) : (s.respond w).filt = s.filt := by
  unfold State.respond; split <;> rfl
@[simp] theorem State.respond_lfo (s : State) (w : Word) : (s.respond w).lfo = s.lfo := by
  unfold State.respond; split <;> rfl
@[simp] theorem State.respond_voices (s : State) (w : Word) : (s.respond w).voices = s.voices := by
  unfold State.respond; split <;> rfl
@[simp] theorem State.respond_delays (s : State) (w : Word) : (s.respond w).delays = s.delays := by
  unfold State.respond; split <;> rfl
@[simp] theorem State.respond_regList (s : State) (w : Word) : (s.respond w).regList = s.regList := by
  unfold State.respond; split <;> rfl
@[simp] theorem State.respond_buf (s : State) (w : Word) : (s.respond w).buf = s.buf := by
  unfold State.respond; split <;> rfl
@[simp] theorem State.respond_pending (s : State) (w : Word) : (s.respond w).pending = s.pending := by
  unfold State.respond; split <;> rfl
@[simp] theorem State.respond_replies (s : State) (w : Word) : (s.respond w).replies = s.replies := by
  unfold State.respond; split <;> rfl

/-! ## reject -/

@[simp] theorem State.reject_cfg (s : State) (e : Event) (op : Opcode) : (s.reject e op).cfg = s.cfg := by
  unfold State.reject; split <;> simp
@[simp] theorem State.reject_rate (s : State) (e : Event) (op : Opcode) : (s.reject e op).rate = s.rate := by
  unfold State.reject; split <;> simp
@[simp] theorem State.reject_params (s : State) (e : Event) (op : Opcode) : (s.reject e op).params = s.params := by
  unfold State.reject; split <;> simp
@[simp] theorem State.reject_rm (s : State) (e : Event) (op : Opcode) : (s.reject e op).rm = s.rm := by
  unfold State.reject; split <;> simp
@[simp] theorem State.reject_filt (s : State) (e : Event) (op : Opcode) : (s.reject e op).filt = s.filt := by
  unfold State.reject; split <;> simp
@[simp] theorem State.reject_lfo (s : State) (e : Event) (op : Opcode) : (s.reject e op).lfo = s.lfo := by
  unfold State.reject; split <;> simp
@[simp] theorem State.reject_voices (s : State) (e : Event) (op : Opcode) : (s.reject e op).voices = s.voices := by
  unfold State.reject; split <;> simp
@[simp] theorem State.reject_delays (s : State) (e : Event) (op : Opcode) : (s.reject e op).delays = s.delays := by
  unfold State.reject; split <;> simp
@[simp] theorem State.reject_regList (s : State) (e : Event) (op : Opcode) : (s.reject e op).regList = s.regList := by
  unfold State.reject; split <;> simp
@[simp] theorem State.reject_buf (s : State) (e : Event) (op : Opcode) : (s.reject e op).buf = s.buf := by
  unfold State.reject; split <;> simp
@[simp] theorem State.reject_pending (s : State) (e : Event) (op : Opcode) : (s.reject e op).pending = s.pending := by
  unfold State.reject; split <;> simp
@[simp] theorem State.reject_replies (s : State) (e : Event) (op : Opcode) : (s.reject e op).replies = s.replies := by
  unfold State.reject; split <;> simp

/-! ## checkFinite -/

@[simp] theorem State.checkFinite_cfg (s : State) (op : Opcode) (nc n : Nat) : (s.checkFinite op nc n).cfg = s.cfg := by
  unfold State.checkFinite; split <;> rfl
@[simp] theorem State.checkFinite_rate (s : State) (op : Opcode) (nc n : Nat) : (s.checkFinite op nc n).rate = s.rate := by
  unfold State.checkFinite; split <;> rfl
@[simp] theorem State.checkFinite_params (s : State) (op : Opcode) (nc n : Nat) : (s.checkFinite op nc n).params = s.params := by
  unfold State.checkFinite; split <;> rfl
@[simp] theorem State.checkFinite_rm (s : State) (op : Opcode) (nc n : Nat) : (s.checkFinite op nc n).rm = s.rm := by
  unfold State.checkFinite; split <;> rfl
@[simp] theorem State.checkFinite_filt (s : State) (op : Opcode) (nc n : Nat) : (s.checkFinite op nc n).filt = s.filt := by
  unfold State.checkFinite; split <;> rfl
@[simp] theorem State.checkFinite_lfo (s : State) (op : Opcode) (nc n : Nat) : (s.checkFinite op nc n).lfo = s.lfo := by
  unfold State.checkFinite; split <;> rfl
@[simp] theorem State.checkFinite_voices (s : State) (op : Opcode) (nc n : Nat) : (s.checkFinite op nc n).voices = s.voices := by
  unfold State.checkFinite; split <;> rfl
@[simp] theorem State.checkFinite_delays (s : State) (op : Opcode) (nc n : Nat) : (s.checkFinite op nc n).delays = s.delays := by
  unfold State.checkFinite; split <;> rfl
@[simp] theorem State.checkFinite_regList (s : State) (op : Opcode) (nc n : Nat) : (s.checkFinite op nc n).regList = s.regList := by
  unfold State.checkFinite; split <;> rfl
@[simp] theorem State.checkFinite_fifo (s : State) (op : Opcode) (nc n : Nat) : (s.checkFinite op nc n).fifo = s.fifo := by
  unfold State.checkFinite; split <;> rfl
@[simp] theorem State.checkFinite_buf (s : State) (op : Opcode) (nc n : Nat) : (s.checkFinite op nc n).buf = s.buf := by
  unfold State.checkFinite; split <;> rfl
@[simp] theorem State.checkFinite_pending (s : State) (op : Opcode) (nc n : Nat) : (s.checkFinite op nc n).pending = s.pending := by
  unfold State.checkFinite; split <;> rfl
@[simp] theorem State.checkFinite_replies (s : State) (op : Opcode) (nc n : Nat) : (s.checkFinite op nc n).replies = s.replies := by
  unfold State.checkFinite; split <;> rfl

end Sys2Proof.Machine
end

