-- ==== Sys2Proof/Laws/Memory.lean ====
section
/-! SUPPORT. Laws of buffer memory: the canonical form, read after write, and what a write leaves alone. -/

namespace Sys2Proof.Machine

/-! ## The canonical form -/

theorem Memory.wf_cons (a : Nat) (v : Byte) (t : Memory) :
    Memory.wf ((a, v) :: t) = true ↔
      v ≠ Memory.unlisted ∧ (∀ x ∈ t, a < x.1) ∧ Memory.wf t = true := by
  induction t generalizing a v with
  | nil => simp [Memory.wf]
  | cons h t ih =>
    obtain ⟨b, w⟩ := h
    rw [Memory.wf, Bool.and_eq_true, Bool.and_eq_true, decide_eq_true_eq, bne_iff_ne]
    constructor
    · rintro ⟨⟨hab, hv⟩, ht⟩
      refine ⟨hv, ?_, ht⟩
      intro x hx
      rcases List.mem_cons.1 hx with rfl | hx
      · exact hab
      · exact lt_trans hab (((ih b w).1 ht).2.1 x hx)
    · rintro ⟨hv, hall, ht⟩
      exact ⟨⟨hall (b, w) (by simp), hv⟩, ht⟩

/-- A write adds no address but its own. -/
theorem Memory.mem_writeByte (m : Memory) (a : Nat) (v : Byte) (x : Host.Cell)
    (hx : x ∈ m.writeByte a v) : x.1 = a ∨ x ∈ m := by
  induction m with
  | nil => unfold Memory.writeByte at hx; split at hx <;> simp_all
  | cons h t ih =>
    obtain ⟨b, w⟩ := h
    unfold Memory.writeByte at hx
    split at hx
    · split at hx
      · exact .inr hx
      · rcases List.mem_cons.1 hx with rfl | hx
        · exact .inl rfl
        · exact .inr hx
    · split at hx
      · rename_i hab
        split at hx
        · exact .inr (List.mem_cons_of_mem _ hx)
        · rcases List.mem_cons.1 hx with rfl | hx
          · exact .inl hab.symm
          · exact .inr (List.mem_cons_of_mem _ hx)
      · rcases List.mem_cons.1 hx with rfl | hx
        · simp
        · rcases ih hx with h | h <;> simp [h]

/-- Every byte write keeps the canonical form. -/
theorem Memory.writeByte_wf (m : Memory) (a : Nat) (v : Byte) (h : m.wf = true) : (m.writeByte a v).wf = true := by
  induction m with
  | nil => unfold Memory.writeByte; split <;> simp_all [Memory.wf]
  | cons hd t ih =>
    obtain ⟨b, w⟩ := hd
    obtain ⟨hw, hall, ht⟩ := (Memory.wf_cons b w t).1 h
    unfold Memory.writeByte
    split
    · split
      · exact h
      · rename_i hab hv
        refine (Memory.wf_cons _ _ _).2 ⟨hv, ?_, h⟩
        intro x hx
        rcases List.mem_cons.1 hx with rfl | hx
        · exact hab
        · exact lt_trans hab (hall x hx)
    · split
      · split
        · exact ht
        · rename_i hv
          exact (Memory.wf_cons _ _ _).2 ⟨hv, hall, ht⟩
      · rename_i hlt hne
        refine (Memory.wf_cons _ _ _).2 ⟨hw, ?_, ih ht⟩
        intro x hx
        rcases Memory.mem_writeByte t a v x hx with hxa | hx
        · omega
        · exact hall x hx

/-- Every word write keeps the canonical form. -/
theorem Memory.writeWord_wf (m : Memory) (a : Nat) (v : Word) (h : m.wf = true) : (m.writeWord a v).wf = true := by
  unfold Memory.writeWord
  exact Memory.writeByte_wf _ _ _ (Memory.writeByte_wf _ _ _ (Memory.writeByte_wf _ _ _ (Memory.writeByte_wf _ _ _ h)))

theorem State.writeBuf_wf (s : State) (c i : Nat) (v : F) (h : s.buf.wf = true) : (s.writeBuf c i v).buf.wf = true :=
  Memory.writeWord_wf _ _ _ h

/-! ## Bytes -/

/-- A byte below every listed address is unlisted. -/
theorem Memory.readByte_below (m : Memory) (a : Nat) (h : ∀ x ∈ m, a < x.1) : m.readByte a = Memory.unlisted := by
  induction m with
  | nil => rfl
  | cons hd t ih =>
    obtain ⟨b, w⟩ := hd
    have hb : a < b := h (b, w) (by simp)
    rw [Memory.readByte, if_neg (by omega)]
    exact ih fun x hx => h x (by simp [hx])

/-- A read after a write to the same byte gives the value written. -/
theorem Memory.readByte_writeByte_same (m : Memory) (a : Nat) (v : Byte) (h : m.wf = true) :
    (m.writeByte a v).readByte a = v := by
  induction m with
  | nil => unfold Memory.writeByte; split <;> simp_all [Memory.readByte]
  | cons hd t ih =>
    obtain ⟨b, w⟩ := hd
    obtain ⟨_, hall, ht⟩ := (Memory.wf_cons b w t).1 h
    unfold Memory.writeByte
    split
    · rename_i hab
      split
      · rename_i hv
        rw [hv]
        refine Memory.readByte_below _ _ fun x hx => ?_
        rcases List.mem_cons.1 hx with rfl | hx
        · exact hab
        · exact lt_trans hab (hall x hx)
      · simp [Memory.readByte]
    · split
      · rename_i hab
        subst hab
        split
        · rename_i hv
          rw [hv]
          exact Memory.readByte_below _ _ hall
        · simp [Memory.readByte]
      · rename_i hne
        rw [Memory.readByte, if_neg hne]
        exact ih ht

/-- A write leaves every other byte alone, in any memory. -/
theorem Memory.readByte_writeByte_other (m : Memory) (a b : Nat) (v : Byte) (h : b ≠ a) :
    (m.writeByte a v).readByte b = m.readByte b := by
  induction m with
  | nil => unfold Memory.writeByte; split <;> simp [Memory.readByte, h]
  | cons hd t ih =>
    obtain ⟨c, w⟩ := hd
    unfold Memory.writeByte
    split
    · split
      · rfl
      · simp [Memory.readByte, h]
    · split
      · rename_i hac
        subst hac
        split <;> simp [Memory.readByte, h]
      · rw [Memory.readByte, Memory.readByte, ih]

/-! ## Words -/

/-- A word write leaves every byte outside its four alone. -/
theorem Memory.readByte_writeWord_outside (m : Memory) (a b : Nat) (v : Word) (h : b < a ∨ a + 4 ≤ b) :
    (m.writeWord a v).readByte b = m.readByte b := by
  unfold Memory.writeWord
  rw [Memory.readByte_writeByte_other _ _ _ _ (by omega), Memory.readByte_writeByte_other _ _ _ _ (by omega),
    Memory.readByte_writeByte_other _ _ _ _ (by omega), Memory.readByte_writeByte_other _ _ _ _ (by omega)]

/-- The bytes of a word written lie little-endian (20_memory.md R74). -/
theorem Memory.readByte_writeWord (m : Memory) (a k : Nat) (v : Word) (hk : k < 4) (h : m.wf = true) :
    (m.writeWord a v).readByte (a + k) = v.extractLsb' (8 * k) 8 := by
  have h1 := Memory.writeByte_wf m a (v.extractLsb' 0 8) h
  have h2 := Memory.writeByte_wf _ (a + 1) (v.extractLsb' 8 8) h1
  have h3 := Memory.writeByte_wf _ (a + 2) (v.extractLsb' 16 8) h2
  unfold Memory.writeWord
  match k, hk with
  | 0, _ =>
    rw [Memory.readByte_writeByte_other _ _ _ _ (by omega), Memory.readByte_writeByte_other _ _ _ _ (by omega),
      Memory.readByte_writeByte_other _ _ _ _ (by omega)]
    exact Memory.readByte_writeByte_same _ _ _ h
  | 1, _ =>
    rw [Memory.readByte_writeByte_other _ _ _ _ (by omega), Memory.readByte_writeByte_other _ _ _ _ (by omega)]
    exact Memory.readByte_writeByte_same _ _ _ h1
  | 2, _ =>
    rw [Memory.readByte_writeByte_other _ _ _ _ (by omega)]
    exact Memory.readByte_writeByte_same _ _ _ h2
  | 3, _ => exact Memory.readByte_writeByte_same _ _ _ h3

/-- A read after a write to the same word gives the value written. -/
theorem Memory.readWord_writeWord_same (m : Memory) (a : Nat) (v : Word) (h : m.wf = true) :
    (m.writeWord a v).readWord a = v := by
  have h0 := Memory.readByte_writeWord m a 0 v (by omega) h
  rw [Nat.add_zero] at h0
  unfold Memory.readWord
  rw [h0, Memory.readByte_writeWord m a 1 v (by omega) h, Memory.readByte_writeWord m a 2 v (by omega) h,
    Memory.readByte_writeWord m a 3 v (by omega) h]
  ext i hi
  simp only [BitVec.getElem_append, BitVec.getElem_extractLsb']
  split
  · simp [BitVec.getLsbD_eq_getElem, hi]
  · split
    · rw [← BitVec.getLsbD_eq_getElem hi]; congr 1; omega
    · split <;> (rw [← BitVec.getLsbD_eq_getElem hi]; congr 1; omega)

/-- A write leaves every disjoint word alone. -/
theorem Memory.readWord_writeWord_disjoint (m : Memory) (a b : Nat) (v : Word) (h : b + 4 ≤ a ∨ a + 4 ≤ b) :
    (m.writeWord a v).readWord b = m.readWord b := by
  unfold Memory.readWord
  rw [Memory.readByte_writeWord_outside _ _ _ _ (by omega), Memory.readByte_writeWord_outside _ _ _ _ (by omega),
    Memory.readByte_writeWord_outside _ _ _ _ (by omega), Memory.readByte_writeWord_outside _ _ _ _ (by omega)]

/-! ## Samples -/

/-- Two samples of a block of legal size have one address only if they are the same sample. -/
theorem bufAddr_injective (cfg : Config) (c i d j : Nat) (hi : i < cfg.maxBlock) (hj : j < cfg.maxBlock)
    (h : bufAddr cfg c i = bufAddr cfg d j) : c = d ∧ i = j := by
  unfold bufAddr at h
  have h' : c * cfg.maxBlock + i = d * cfg.maxBlock + j := by omega
  have hc : c = d := by
    have := congrArg (· / cfg.maxBlock) h'
    simpa [Nat.add_comm, Nat.add_mul_div_right _ _ (by omega : 0 < cfg.maxBlock), Nat.div_eq_of_lt hi,
      Nat.div_eq_of_lt hj] using this
  subst hc
  exact ⟨rfl, by omega⟩

/-- Sample addresses are four apart. -/
theorem bufAddr_apart (cfg : Config) (c i d j : Nat) :
    bufAddr cfg c i = bufAddr cfg d j ∨ bufAddr cfg c i + 4 ≤ bufAddr cfg d j ∨
      bufAddr cfg d j + 4 ≤ bufAddr cfg c i := by
  unfold bufAddr; omega

theorem State.readBuf_writeBuf_same (s : State) (c i : Nat) (v : F) (h : s.buf.wf = true) :
    (s.writeBuf c i v).readBuf c i = v :=
  Memory.readWord_writeWord_same _ _ _ h

theorem State.readBuf_writeBuf_other (s : State) (c i d j : Nat) (v : F)
    (h : bufAddr s.cfg d j ≠ bufAddr s.cfg c i) : (s.writeBuf c i v).readBuf d j = s.readBuf d j := by
  have hd : bufAddr s.cfg d j + 4 ≤ bufAddr s.cfg c i ∨ bufAddr s.cfg c i + 4 ≤ bufAddr s.cfg d j := by
    have := bufAddr_apart s.cfg c i d j
    omega
  exact Memory.readWord_writeWord_disjoint _ _ _ _ hd

theorem State.readByte_writeBuf_outside (s : State) (c i a : Nat) (v : F)
    (h : a < bufAddr s.cfg c i ∨ bufAddr s.cfg c i + 4 ≤ a) :
    (s.writeBuf c i v).buf.readByte a = s.buf.readByte a :=
  Memory.readByte_writeWord_outside _ _ _ _ h

end Sys2Proof.Machine
end

