-- ==== Sys2Proof/Laws/Ops.lean ====
section
/-! SUPPORT. What the shared operations can do: loops, register files, responses, rejections, acceptance. -/

namespace Sys2Proof.Machine

/-! ## Loops -/

/-- What each pass of a loop keeps, indexed by the number of passes done, the loop establishes. -/
theorem forUpTo_induct {σ : Type} (P : Nat → σ → Prop) (n : Nat) (body : Nat → σ → σ) (s : σ) (h0 : P 0 s)
    (hstep : ∀ i t, i < n → P i t → P (i + 1) (body i t)) : P n (forUpTo n body s) := by
  induction n with
  | zero => exact h0
  | succ n ih => exact hstep n _ (by omega) (ih fun i t hi => hstep i t (by omega))

/-- What each pass of a loop keeps, the loop keeps. -/
theorem forUpTo_keep {σ : Type} (P : σ → Prop) (n : Nat) (body : Nat → σ → σ) (s : σ) (h0 : P s)
    (hstep : ∀ i t, i < n → P t → P (body i t)) : P (forUpTo n body s) :=
  forUpTo_induct (fun _ t => P t) n body s h0 hstep

/-! ## Register files -/

theorem State.voice_setVoice (s : State) (k j : Nat) (v : Voice) :
    (s.setVoice k v).voice j = if k = j ∧ k < s.voices.length then v else s.voice j := by
  unfold State.voice State.setVoice
  simp only [List.getD_eq_getElem?_getD, List.getElem?_set]
  split
  · rename_i h
    subst h
    split
    · simp [*]
    · rename_i h; simp [h]
  · rename_i h; simp [h]

theorem State.voice_setVoice_same (s : State) (k : Nat) (v : Voice) (h : k < s.voices.length) :
    (s.setVoice k v).voice k = v := by simp [State.voice_setVoice, h]

theorem State.voice_setVoice_other (s : State) (k j : Nat) (v : Voice) (h : j ≠ k) :
    (s.setVoice k v).voice j = s.voice j := by simp [State.voice_setVoice, h.symm]

/-- What holds of every slot and of the slot written still holds of every slot. -/
theorem State.setVoice_all {P : Voice → Prop} (s : State) (k : Nat) (v : Voice) (h : ∀ w, w ∈ s.voices → P w) (hv : P v) :
    ∀ w, w ∈ (s.setVoice k v).voices → P w := by
  intro w hw
  rw [State.setVoice_voices] at hw
  rcases List.mem_or_eq_of_mem_set hw with hw | rfl
  · exact h w hw
  · exact hv

theorem State.delay_setDelay (s : State) (c d : Nat) (x : Delay) :
    (s.setDelay c x).delay d = if c = d ∧ c < s.delays.length then x else s.delay d := by
  unfold State.delay State.setDelay
  simp only [List.getD_eq_getElem?_getD, List.getElem?_set]
  split
  · rename_i h
    subst h
    split
    · simp [*]
    · rename_i h; simp [h]
  · rename_i h; simp [h]

/-- Retiring a slot frees it and keeps its other fields. -/
theorem State.voice_retire (s : State) (k j : Nat) :
    (s.retire k).voice j = if k = j ∧ k < s.voices.length then { s.voice k with state := .free } else s.voice j :=
  State.voice_setVoice s k j _

@[simp] theorem RmRegs.setPrev_rate (r : RmRegs) (c : Nat) (y : F) : (r.setPrev c y).rate = r.rate := by
  unfold RmRegs.setPrev; split <;> rfl
@[simp] theorem RmRegs.setPrev_incr (r : RmRegs) (c : Nat) (y : F) : (r.setPrev c y).incr = r.incr := by
  unfold RmRegs.setPrev; split <;> rfl
@[simp] theorem RmRegs.setPrev_phase (r : RmRegs) (c : Nat) (y : F) : (r.setPrev c y).phase = r.phase := by
  unfold RmRegs.setPrev; split <;> rfl

theorem RmRegs.prev_setPrev (r : RmRegs) (c d : Nat) (y : F) (hc : c < 2) (hd : d < 2) :
    (r.setPrev c y).prev d = if d = c then y else r.prev d := by
  unfold RmRegs.setPrev RmRegs.prev
  rcases Nat.lt_or_ge c 1 with h | h <;> rcases Nat.lt_or_ge d 1 with h' | h'
  · have : c = 0 := by omega
    have : d = 0 := by omega
    simp [*]
  · have : c = 0 := by omega
    have : d = 1 := by omega
    simp [*]
  · have : c = 1 := by omega
    have : d = 0 := by omega
    simp [*]
  · have : c = 1 := by omega
    have : d = 1 := by omega
    simp [*]

/-! ## Responses and rejections -/

/-- A response is queued while the FIFO has room; otherwise it is dropped and only RESPOVF is raised (10_state.md R51). -/
theorem State.respond_cases (s : State) (w : Word) :
    (s.fifo.length < s.cfg.respDepth ∧ s.respond w = { s with fifo := s.fifo ++ [w] }) ∨
      (s.cfg.respDepth ≤ s.fifo.length ∧ s.respond w = { s with status := s.status ||| 0x20 }) := by
  unfold State.respond
  split
  · exact .inl ⟨by assumption, rfl⟩
  · exact .inr ⟨by omega, rfl⟩

theorem State.respond_queued (s : State) (w : Word) (h : s.fifo.length < s.cfg.respDepth) :
    s.respond w = { s with fifo := s.fifo ++ [w] } := by
  rcases s.respond_cases w with ⟨_, h'⟩ | ⟨h', _⟩
  · exact h'
  · omega

/-- What raising an event does to STATUS, by event. -/
theorem Event.mask (e : Event) :
    BitVec.twoPow 32 e.code =
      match e with
      | .badOp => 0x1
      | .nanArg => 0x2
      | .nonFinite => 0x4
      | .noInit => 0x8
      | .badAcc => 0x10
      | .respOvf => 0x20 := by
  cases e <;> rfl

/-- A rejected command changes at most STATUS and, if its opcode responds, the FIFO (60_exceptions.md R337). -/
theorem State.reject_frame (s : State) (e : Event) (op : Opcode) :
    s.reject e op = { s with status := (s.reject e op).status, fifo := (s.reject e op).fifo } := by
  unfold State.reject
  split
  · rcases (s.raise e).respond_cases rejectWord with ⟨_, h⟩ | ⟨_, h⟩ <;> rw [h] <;> rfl
  · rfl

/-- A response changes at most STATUS and the FIFO. -/
theorem State.respond_frame (s : State) (w : Word) :
    s.respond w = { s with status := (s.respond w).status, fifo := (s.respond w).fifo } := by
  rcases s.respond_cases w with ⟨_, h⟩ | ⟨_, h⟩ <;> rw [h]

/-- No event, response or rejection touches READY (10_state.md R33). -/
@[simp] theorem State.ready_raise (s : State) (e : Event) : (s.raise e).ready = s.ready := by
  unfold State.ready; cases e <;> simp [Event.code]

@[simp] theorem State.ready_respond (s : State) (w : Word) : (s.respond w).ready = s.ready := by
  unfold State.respond
  split
  · rfl
  · exact State.ready_raise _ _

@[simp] theorem State.ready_reject (s : State) (e : Event) (op : Opcode) : (s.reject e op).ready = s.ready := by
  unfold State.reject; split <;> simp

@[simp] theorem State.ready_checkFinite (s : State) (op : Opcode) (nc n : Nat) :
    (s.checkFinite op nc n).ready = s.ready := by
  unfold State.checkFinite; split <;> simp

/-- The non-finite check raises NONFINITE or does nothing (60_exceptions.md R333). -/
theorem State.checkFinite_cases (s : State) (op : Opcode) (nc n : Nat) :
    s.checkFinite op nc n = { s with status := s.status ||| 0x4 } ∨ s.checkFinite op nc n = s := by
  unfold State.checkFinite
  split
  · exact .inl rfl
  · exact .inr rfl

theorem State.regionNonFinite_iff (s : State) (k n : Nat) :
    s.regionNonFinite k n = true ↔ ∃ c i, c < k ∧ i < n ∧ isFinite (s.readBuf c i) = false := by
  unfold State.regionNonFinite
  simp only [List.any_eq_true, List.mem_range, Bool.not_eq_true']
  constructor
  · rintro ⟨c, hc, i, hi, h⟩; exact ⟨c, i, hc, hi, h⟩
  · rintro ⟨c, i, hc, hi, h⟩; exact ⟨c, hc, i, hi, h⟩

/-! ## Acceptance -/

/-- A command whose checks pass performs its rule, then the non-finite check if it is a block command. -/
theorem accept_runs (op : Opcode) (f : Fields) (s : State) (perform : State → State) (h : s.rejection op f = none) :
    accept op f s perform =
      .next (if isBlockCommand op then (perform s).checkFinite op (operandChannels f) (operandSize f)
        else perform s) := by
  unfold accept; rw [h]

/-- A command with a failing check is rejected. -/
theorem accept_rejects (op : Opcode) (f : Fields) (s : State) (perform : State → State) (e : Event)
    (h : s.rejection op f = some e) : accept op f s perform = .next (s.reject e op) := by
  unfold accept; rw [h]

/-- Everything `accept` can answer. -/
theorem accept_cases (op : Opcode) (f : Fields) (s t : State) (perform : State → State)
    (h : accept op f s perform = .next t) :
    (∃ e, s.rejection op f = some e ∧ t = s.reject e op) ∨
      (s.rejection op f = none ∧ isBlockCommand op = false ∧ t = perform s) ∨
        (s.rejection op f = none ∧ isBlockCommand op = true ∧
          t = (perform s).checkFinite op (operandChannels f) (operandSize f)) := by
  cases hr : s.rejection op f with
  | some e =>
    rw [accept_rejects op f s perform e hr] at h
    exact .inl ⟨e, rfl, (by simpa using h.symm)⟩
  | none =>
    rw [accept_runs op f s perform hr] at h
    cases hb : isBlockCommand op <;> simp only [hb, Bool.false_eq_true, if_true, if_false] at h
    · exact .inr (.inl ⟨rfl, rfl, by simpa using h.symm⟩)
    · exact .inr (.inr ⟨rfl, rfl, by simpa using h.symm⟩)

/-- The checks pass exactly when READY allows the command, RSV = 0, the format's constraints hold and an F operand is
no NaN (R120). -/
theorem State.rejection_none_iff (s : State) (op : Opcode) (f : Fields) :
    s.rejection op f = none ↔
      (s.ready = true ∨ allowedBeforeInit op f = true) ∧ f.rsv = 0 ∧ formatOK s.cfg op f = true ∧
        (op.hasFOperand = true → isNaN f.arg = false) := by
  unfold State.rejection operandF
  cases s.ready <;> cases allowedBeforeInit op f <;> by_cases hr : f.rsv = 0#16 <;> cases formatOK s.cfg op f <;>
    cases op.hasFOperand <;> cases isNaN f.arg <;> simp [hr]

theorem RunsGlobal.rejection_none {s : State} {f : Fields} (h : RunsGlobal s f) (op : Opcode)
    (hop : op.format = .z ∨ op.format = .gu) : s.rejection op f = none := by
  obtain ⟨⟨hr, hz⟩, hs⟩ := h
  refine (s.rejection_none_iff op f).2 ⟨.inl hr, hz, ?_, ?_⟩
  · unfold formatOK; rcases hop with h | h <;> rw [h] <;> simp [hs]
  · unfold Opcode.hasFOperand; rcases hop with h | h <;> rw [h] <;> simp

theorem RunsGlobalF.rejection_none {s : State} {f : Fields} (h : RunsGlobalF s f) (op : Opcode)
    (hop : op.format = .gf) : s.rejection op f = none := by
  obtain ⟨⟨⟨hr, hz⟩, hs⟩, hn⟩ := h
  refine (s.rejection_none_iff op f).2 ⟨.inl hr, hz, ?_, fun _ => hn⟩
  unfold formatOK; rw [hop]; simp [hs]

theorem RunsVoice.rejection_none {s : State} {f : Fields} (h : RunsVoice s f) (op : Opcode)
    (hop : op.format = .v ∨ op.format = .vu) : s.rejection op f = none := by
  obtain ⟨⟨hr, hz⟩, hs⟩ := h
  refine (s.rejection_none_iff op f).2 ⟨.inl hr, hz, ?_, ?_⟩
  · unfold formatOK; rcases hop with h | h <;> rw [h] <;> simp [hs]
  · unfold Opcode.hasFOperand; rcases hop with h | h <;> rw [h] <;> simp

theorem RunsVoiceF.rejection_none {s : State} {f : Fields} (h : RunsVoiceF s f) (op : Opcode)
    (hop : op.format = .vf) : s.rejection op f = none := by
  obtain ⟨⟨⟨hr, hz⟩, hs⟩, hn⟩ := h
  refine (s.rejection_none_iff op f).2 ⟨.inl hr, hz, ?_, fun _ => hn⟩
  unfold formatOK; rw [hop]; simp [hs]

theorem RunsBlock.rejection_none {s : State} {f : Fields} (h : RunsBlock s f) (op : Opcode)
    (hop : op.format = .b) : s.rejection op f = none := by
  obtain ⟨⟨hr, hz⟩, hc, hn⟩ := h
  refine (s.rejection_none_iff op f).2 ⟨.inl hr, hz, ?_, ?_⟩
  · unfold formatOK; rw [hop]; simp [hc, hn]
  · unfold Opcode.hasFOperand; rw [hop]; simp

end Sys2Proof.Machine
end

