-- ==== Sys2Proof/Laws/Exec.lean ====
section
/-! SUPPORT. Every command is `accept` of one state transformer, its body: the form in which rules about all commands
are proved. -/

namespace Sys2Proof.Machine

/-- What a command does once it is accepted, before the non-finite check of a block command. -/
def body : Instr → State → State
  | .nop _ => fun s => s
  | .init f => fun s => initState (fClamp (operandF f) s.cfg.fsMin s.cfg.fsMax) s
  | .stopAll _ => fun s => { s.silence with voices := s.voices.map fun v => { v with state := .free } }
  | .clearStatus f => fun s => { s with status := clearedStatus s.status (operandU f) }
  | .get f => fun s =>
    match f.selector with
    | some r => s.respond (s.register (operandSlot f) r)
    | none => s
  | .setAttack f => fun s => { s with params := { s.params with attack := fClamp (operandF f) fZero fOne } }
  | .setDecay f => fun s => { s with params := { s.params with decay := fClamp (operandF f) fZero fOne } }
  | .setSustain f => fun s => { s with params := { s.params with sustain := fClamp (operandF f) fZero fOne } }
  | .setRelease f => fun s => { s with params := { s.params with release := fClamp (operandF f) fZero fOne } }
  | .setPitchBend f => fun s =>
    { s with params := { s.params with bend := fClamp (operandF f) s.cfg.bendMin s.cfg.bendMax } }
  | .setGlide f => fun s => { s with params := { s.params with glide := fClamp (operandF f) fZero fOne } }
  | .voiceStart f => fun s =>
    { s.setVoice (operandSlot f)
        (startedVoice s.params s.rate.envMaxSamples (clampFreq s f) (s.voice (operandSlot f))) with
      regList :=
        (if (s.voice (operandSlot f)).state = .free then s.regList else s.regList.erase (operandSlot f)) ++
          [operandSlot f] }
  | .voiceRelease f => fun s =>
    if (s.voice (operandSlot f)).state = .free ∨ (s.voice (operandSlot f)).state = .release then s
    else if fEq s.params.release fZero || fEq (s.voice (operandSlot f)).sustain fZero then s.retire (operandSlot f)
    else
      s.setVoice (operandSlot f) (releasedVoice s.params s.rate.envMaxSamples (s.voice (operandSlot f)))
  | .voiceKill f => fun s => if (s.voice (operandSlot f)).state = .free then s else s.retire (operandSlot f)
  | .voiceSetFreq f => fun s =>
    s.setVoice (operandSlot f)
      { s.voice (operandSlot f) with freq := clampFreq s f, glideEn := false, glideRem := 0 }
  | .voiceSetVolume f => fun s =>
    s.setVoice (operandSlot f) { s.voice (operandSlot f) with volume := fClamp (operandF f) fZero fOne }
  | .voiceSetMute f => fun s =>
    s.setVoice (operandSlot f) { s.voice (operandSlot f) with muted := operandU f != 0 }
  | .voiceGlide f => fun s =>
    if (s.voice (operandSlot f)).state = .free then s
    else
      s.setVoice (operandSlot f)
        (glidingVoice (clampFreq s f) (samples s.params.glide s.rate.glideMaxSamples) (s.voice (operandSlot f)))
  | .setRmRate f => fun s =>
    { s with
      rm := { s.rm with
        rate := fClamp (operandF f) fZero fOne
        incr := rmIncr s.cfg s.rate.fs (fClamp (operandF f) fZero fOne) } }
  | .rmBlock f => rmApply (operandChannels f) (operandSize f)
  | .setCutoff f => fun s =>
    { s with
      filt := updateCoeffs s.cfg s.rate.fs
        { s.filt with
          cutoff := fClamp (operandF f) s.cfg.filterMinCutoff s.rate.nyqLimit
          tempCutoff := fClamp (operandF f) s.cfg.filterMinCutoff s.rate.nyqLimit } }
  | .setResonance f => fun s =>
    { s with
      filt := updateCoeffs s.cfg s.rate.fs
        { s.filt with resonance := fClamp (operandF f) s.cfg.resMin s.cfg.resMax } }
  | .setLfoEnable f => fun s =>
    if operandU f = 0 then
      { s with
        lfo := { s.lfo with en := false }
        filt := updateCoeffs s.cfg s.rate.fs { s.filt with tempCutoff := s.filt.cutoff } }
    else { s with lfo := { s.lfo with en := true } }
  | .filtBlock f => forUpTo (operandSize f) (filtFrame (operandChannels f))
  | .setLfoRate f => fun s =>
    { s with lfo := { s.lfo with rate := fClamp (operandF f) s.cfg.lfoRateMin s.cfg.lfoRateMax } }
  | .setLfoDepth f => fun s => { s with lfo := { s.lfo with depth := fClamp (operandF f) fZero fOne } }
  | .lfoPeek _ => fun s => (lfoPeek s).2.respond (lfoPeek s).1
  | .synthBlock f => synthBlock (operandChannels f) (operandSize f)

/-- Every command checks, then runs its body. -/
theorem exec_eq_accept (i : Instr) (s : State) : exec i s = accept i.opcode i.fields s (body i) := by
  cases i <;> unfold exec <;> dsimp only [Instr.opcode, Instr.fields, body]
  all_goals
    first
    | (unfold execNop; with_reducible rfl)
    | (unfold execInit; with_reducible rfl)
    | (unfold execStopAll; with_reducible rfl)
    | (unfold execClearStatus; with_reducible rfl)
    | (unfold execGet; refine congrArg (accept _ _ _) (funext fun s => ?_); split <;> simp only [*])
    | (unfold execSetAttack; with_reducible rfl)
    | (unfold execSetDecay; with_reducible rfl)
    | (unfold execSetSustain; with_reducible rfl)
    | (unfold execSetRelease; with_reducible rfl)
    | (unfold execSetPitchBend; with_reducible rfl)
    | (unfold execSetGlide; with_reducible rfl)
    | (unfold execVoiceStart; with_reducible rfl)
    | (unfold execVoiceRelease; with_reducible rfl)
    | (unfold execVoiceKill; with_reducible rfl)
    | (unfold execVoiceSetFreq; with_reducible rfl)
    | (unfold execVoiceSetVolume; with_reducible rfl)
    | (unfold execVoiceSetMute; with_reducible rfl)
    | (unfold execVoiceGlide; with_reducible rfl)
    | (unfold execSetRmRate; with_reducible rfl)
    | (unfold execRmBlock; with_reducible rfl)
    | (unfold execSetCutoff; with_reducible rfl)
    | (unfold execSetResonance; with_reducible rfl)
    | (unfold execSetLfoEnable; with_reducible rfl)
    | (unfold execFiltBlock; with_reducible rfl)
    | (unfold execSetLfoRate; with_reducible rfl)
    | (unfold execSetLfoDepth; with_reducible rfl)
    | (unfold execLfoPeek; with_reducible rfl)
    | (unfold execSynthBlock; with_reducible rfl)

/-- A command whose checks pass runs its body, then the non-finite check if it is a block command. -/
theorem exec_runs (i : Instr) (s : State) (h : s.rejection i.opcode i.fields = none) :
    exec i s = .next (if isBlockCommand i.opcode then
      (body i s).checkFinite i.opcode (operandChannels i.fields) (operandSize i.fields) else body i s) := by
  rw [exec_eq_accept, accept_runs _ _ _ _ h]

/-- A command with a failing check is rejected. -/
theorem exec_rejects (i : Instr) (s : State) (e : Event) (h : s.rejection i.opcode i.fields = some e) :
    exec i s = .next (s.reject e i.opcode) := by
  rw [exec_eq_accept, accept_rejects _ _ _ _ _ h]

/-- Everything a command can do. -/
theorem exec_cases (i : Instr) (s t : State) (h : exec i s = .next t) :
    (∃ e, s.rejection i.opcode i.fields = some e ∧ t = s.reject e i.opcode) ∨
      (s.rejection i.opcode i.fields = none ∧ isBlockCommand i.opcode = false ∧ t = body i s) ∨
        (s.rejection i.opcode i.fields = none ∧ isBlockCommand i.opcode = true ∧
          t = (body i s).checkFinite i.opcode (operandChannels i.fields) (operandSize i.fields)) :=
  accept_cases _ _ _ _ _ (exec_eq_accept i s ▸ h)

/-- Every command completes (60_exceptions.md R346). -/
theorem exec_completes (i : Instr) (s : State) : ∃ t, exec i s = .next t := by
  rw [exec_eq_accept]; exact ⟨_, rfl⟩

/-- Everything a step can do. -/
theorem step_cases (s t : State) (h : step s = .next t) :
    (s.pending = [] ∧ t = s) ∨
      ∃ a rest, s.pending = a :: rest ∧
        ((∃ w i, commandOf s.cfg a = some w ∧ decode w = .ok i ∧ exec i { s with pending := rest } = .next t) ∨
          (∃ w e, commandOf s.cfg a = some w ∧ decode w = .error e ∧
            t = rejectReserved { s with pending := rest }) ∨
          (commandOf s.cfg a = none ∧ t = busAccess a { s with pending := rest })) := by
  unfold step at h
  split at h
  · rename_i hp
    exact .inl ⟨hp, (Host.Outcome.next.inj h).symm⟩
  · rename_i a rest hp
    refine .inr ⟨a, rest, hp, ?_⟩
    split at h
    · rename_i w hw
      unfold runCommand at h
      split at h
      · rename_i i hi
        exact .inl ⟨w, i, hw, hi, h⟩
      · rename_i e he
        exact .inr (.inl ⟨w, e, hw, he, (Host.Outcome.next.inj h).symm⟩)
    · rename_i hw
      exact .inr (.inr ⟨hw, (Host.Outcome.next.inj h).symm⟩)

/-- A host access that carries no command changes STATUS, the FIFO, BUF and the replies at most, and never READY. -/
theorem busAccess_frame (a : HostAccess) (s : State) :
    busAccess a s =
        { s with
          status := (busAccess a s).status, fifo := (busAccess a s).fifo, buf := (busAccess a s).buf
          replies := (busAccess a s).replies } ∧
      (busAccess a s).ready = s.ready := by
  cases a with
  | read addr w =>
    unfold busAccess hostRead refusedRead
    dsimp only
    split
    · split
      · exact ⟨rfl, rfl⟩
      · exact ⟨rfl, State.ready_raise _ _⟩
    all_goals first | exact ⟨rfl, rfl⟩ | exact ⟨rfl, State.ready_raise _ _⟩
  | write addr w d =>
    unfold busAccess hostWrite
    dsimp only
    split
    · exact ⟨rfl, rfl⟩
    · exact ⟨rfl, State.ready_raise _ _⟩

/-- What every event, response, host access and command body keeps, every step keeps. -/
theorem step_keeps (P : State → Prop) (hpending : ∀ s rest, P s → P { s with pending := rest })
    (hraise : ∀ (s : State) e, P s → P (s.raise e)) (hrespond : ∀ (s : State) w, P s → P (s.respond w))
    (hbus : ∀ a s, P s → P (busAccess a s))
    (hbody : ∀ i s, s.rejection i.opcode i.fields = none → P s → P (body i s)) (s t : State) (hs : P s)
    (h : step s = .next t) : P t := by
  rcases step_cases s t h with ⟨_, rfl⟩ | ⟨a, rest, _, h⟩
  · exact hs
  · have hs' := hpending s rest hs
    generalize { s with pending := rest } = s' at *
    rcases h with ⟨w, i, _, _, h⟩ | ⟨w, e, _, _, rfl⟩ | ⟨_, rfl⟩
    · rcases exec_cases i s' t h with ⟨e, he, rfl⟩ | ⟨hn, _, rfl⟩ | ⟨hn, _, rfl⟩
      · unfold State.reject
        split
        · exact hrespond _ _ (hraise _ _ hs')
        · exact hraise _ _ hs'
      · exact hbody _ _ hn hs'
      · unfold State.checkFinite
        split
        · exact hraise _ _ (hbody _ _ hn hs')
        · exact hbody _ _ hn hs'
    · exact hraise _ _ hs'
    · exact hbus _ _ hs'

end Sys2Proof.Machine
end

