-- ==== Sys2Proof/Laws/Blocks.lean ====
section
/-! SUPPORT. What the units and the block commands can change: one frame lemma per shared operation, and the region of
BUF they stay in. -/

namespace Sys2Proof.Machine

/-! ## The units of a slot -/

/-- A glide step changes freq, glideRem and glideEn at most. -/
theorem glideStep_frame (v : Voice) :
    glideStep v =
      { v with freq := (glideStep v).freq, glideRem := (glideStep v).glideRem, glideEn := (glideStep v).glideEn } := by
  unfold glideStep
  split
  · dsimp only; split <;> rfl
  · rfl

/-- A step of a running glide (R231): the last one ends it on the target, any other adds the increment. -/
theorem glideStep_running (v : Voice) (h : v.glideEn = true) :
    glideStep v =
      if v.glideRem - 1 = 0 then { v with freq := v.glideTarget, glideRem := 0, glideEn := false }
      else { v with freq := fAdd v.freq v.glideInc, glideRem := v.glideRem - 1 } := by
  unfold glideStep
  rw [if_pos h]
  dsimp only
  split_ifs with h1
  · rw [h1]
  · rfl

theorem glideStep_idle (v : Voice) (h : v.glideEn = false) : glideStep v = v := by
  unfold glideStep; rw [if_neg (by simp [h])]

/-- A sample count is at least 1, 1 for a zero duration, and otherwise R149's formula. -/
theorem samples_spec (p : F) (m : Nat) :
    1 ≤ samples p m ∧ (fEq p fZero = true → samples p m = 1) ∧
      (fEq p fZero = false → samples p m = max 1 (floorN (fMul p (toF m)))) := by
  unfold samples
  refine ⟨?_, fun h => if_pos h, fun h => if_neg (by simp [h])⟩
  split
  · exact le_refl 1
  · exact Nat.le_max_left _ _

/-- The register glideRem is the count modulo 2^32 where that is not 0, and 0 only where no step is left. -/
theorem glideRegister_spec (n : Nat) :
    (n = 0 ↔ glideRegister n = 0) ∧ (n % 2 ^ 32 ≠ 0 → (glideRegister n).toNat = n % 2 ^ 32) := by
  unfold glideRegister
  dsimp only
  refine ⟨⟨?_, ?_⟩, fun h => ?_⟩
  · rintro rfl; rfl
  · split_ifs with h1 h2
    · intro h; exact absurd h (by decide)
    · exact fun h => absurd h h2
    · exact fun h => by_contra fun h0 => h1 ⟨h0, h⟩
  · rw [if_neg (fun h' => h (by simpa using congrArg BitVec.toNat h'.2)), BitVec.toNat_ofNat]

/-- A glide of N steps left has N − i left after i of them, while any is. -/
theorem glideStep_count (v : Voice) (h : v.glideEn = true) :
    (glideStep v).glideRem = v.glideRem - 1 ∧ ((glideStep v).glideEn = true ↔ v.glideRem - 1 ≠ 0) := by
  rw [glideStep_running v h]
  split_ifs with h1
  · exact ⟨h1.symm, by simp [h1]⟩
  · exact ⟨rfl, by simp [h, h1]⟩

/-- An envelope step changes the envelope's values and state at most. -/
theorem envStep_frame (v : Voice) :
    (envStep v).voice =
      { v with
        state := (envStep v).voice.state
        attackValue := (envStep v).voice.attackValue
        currentValue := (envStep v).voice.currentValue
        releaseValue := (envStep v).voice.releaseValue } := by
  unfold envStep envAttack envDecay envRelease
  cases v.state <;> dsimp only <;> (try split) <;> (try split) <;> rfl

/-- An envelope step frees no slot and starts none. -/
theorem envStep_free (v : Voice) : (envStep v).voice.state = .free ↔ v.state = .free := by
  unfold envStep envAttack envDecay envRelease
  cases h : v.state <;> dsimp only <;> (try split) <;> (try split) <;> simp [h]

/-- Only the release of a slot ends. -/
theorem envStep_alive (v : Voice) (h : v.state ≠ .release) : (envStep v).alive = true := by
  unfold envStep envAttack envDecay
  cases h' : v.state <;> dsimp only <;> (try split) <;> (try split) <;> simp_all

/-- A sample of a slot frees no slot and starts none, and keeps the mute flag. -/
theorem slotSample_state (c : Config) (fs bend : F) (w : Wave) (v : Voice) :
    ((slotSample c fs bend w v).voice.state = .free ↔ v.state = .free) ∧
      (slotSample c fs bend w v).voice.muted = v.muted := by
  unfold slotSample
  split
  · exact ⟨envStep_free v, by dsimp only; rw [envStep_frame]⟩
  · dsimp only
    refine ⟨(envStep_free _).trans ?_, ?_⟩
    · unfold oscAdvance; rw [glideStep_frame]
    · rw [envStep_frame]; unfold oscAdvance; rw [glideStep_frame]

/-! ## Writes to the region -/

/-- What holds of two states when the second differs from the first in BUF alone, inside channels c < k, frames i < n. -/
structure BufWrites (k n : Nat) (s t : State) : Prop where
  frame   : t = { s with buf := t.buf }
  wf      : s.buf.wf = true → t.buf.wf = true
  outside : SameOutsideRegion k n s t

theorem BufWrites.refl (k n : Nat) (s : State) : BufWrites k n s s := ⟨rfl, id, fun _ _ => rfl⟩

theorem BufWrites.write {k n : Nat} {s t : State} (h : BufWrites k n s t) (c i : Nat) (v : F) (hc : c < k)
    (hi : i < n) : BufWrites k n s (t.writeBuf c i v) where
  frame := by rw [h.frame]; rfl
  wf := fun hw => State.writeBuf_wf _ _ _ _ (h.wf hw)
  outside := fun a ha => by
    rw [State.readByte_writeBuf_outside t c i a v (by rw [h.frame]; exact ha c i hc hi)]
    exact h.outside a ha

/-- Clearing the region writes zeros to it and nothing else. -/
theorem clearRegion_writes (nc n : Nat) (s : State) : BufWrites nc n s (clearRegion nc n s) := by
  unfold clearRegion
  refine forUpTo_keep _ _ _ _ (BufWrites.refl _ _ _) fun c t hc ht => ?_
  exact forUpTo_keep (BufWrites nc n s) _ _ _ ht fun i u hi hu => hu.write c i _ hc hi

/-- Adding a sample to every channel writes frame i of the region alone. -/
theorem addToChannels_writes (nc n i : Nat) (y : F) (s : State) (hi : i < n) :
    BufWrites nc n s (addToChannels nc i y s) := by
  unfold addToChannels
  exact forUpTo_keep _ _ _ _ (BufWrites.refl _ _ _) fun c t hc ht => ht.write c i _ hc hi

/-! ## The ring modulator (46_ring_modulator.md R265) -/

/-- What RmApply changes: BUF inside its region, RM_PHASE and RM_PREV. -/
structure RmWrites (k n : Nat) (s t : State) : Prop where
  frame   : t = { s with buf := t.buf, rm := t.rm }
  rate    : t.rm.rate = s.rm.rate
  incr    : t.rm.incr = s.rm.incr
  wf      : s.buf.wf = true → t.buf.wf = true
  outside : SameOutsideRegion k n s t

theorem RmWrites.refl (k n : Nat) (s : State) : RmWrites k n s s := ⟨rfl, rfl, rfl, id, fun _ _ => rfl⟩

theorem rmChannel_writes {k n : Nat} {s t : State} (h : RmWrites k n s t) (m : F) (i c : Nat) (hc : c < k)
    (hi : i < n) : RmWrites k n s (rmChannel m i c t) where
  frame := by unfold rmChannel; dsimp only; rw [h.frame]; rfl
  rate := by unfold rmChannel; dsimp only; rw [RmRegs.setPrev_rate]; exact h.rate
  incr := by unfold rmChannel; dsimp only; rw [RmRegs.setPrev_incr]; exact h.incr
  wf := fun hw => State.writeBuf_wf _ _ _ _ (h.wf hw)
  outside := fun a ha => by
    refine (State.readByte_writeBuf_outside t c i a _ ?_).trans (h.outside a ha)
    rw [h.frame]; exact ha c i hc hi

theorem rmFrame_writes {k n : Nat} {s t : State} (h : RmWrites k n s t) (i : Nat) (hi : i < n) :
    RmWrites k n s (rmFrame k i t) := by
  have hk : RmWrites k n s (forUpTo k (rmChannel (carrier t.cfg t.rm.phase) i) t) :=
    forUpTo_keep (RmWrites k n s) _ _ _ h fun c u hc hu => rmChannel_writes hu _ i c hc hi
  unfold rmFrame
  dsimp only
  generalize forUpTo k (rmChannel (carrier t.cfg t.rm.phase) i) t = u at *
  exact ⟨by dsimp only; rw [hk.frame], hk.rate, hk.incr, hk.wf, hk.outside⟩

theorem rmApply_writes (nc n : Nat) (s : State) : RmWrites (min nc 2) n s (rmApply nc n s) := by
  unfold rmApply
  split
  · exact RmWrites.refl _ _ _
  · exact forUpTo_keep _ _ _ _ (RmWrites.refl _ _ _) fun i t hi ht => rmFrame_writes ht i hi

/-! ## The filter (47_filter.md R288, R289) -/

/-- A sweep step changes LFO_ACC, TEMP_CUTOFF and the coefficients. -/
theorem sweepStep_frame (s : State) :
    sweepStep s =
      { s with
        lfo := { s.lfo with acc := (sweepStep s).lfo.acc }
        filt := { s.filt with
          tempCutoff := (sweepStep s).filt.tempCutoff
          a1 := (sweepStep s).filt.a1
          a2 := (sweepStep s).filt.a2
          a3 := (sweepStep s).filt.a3
          b1 := (sweepStep s).filt.b1
          b2 := (sweepStep s).filt.b2 } } := rfl

/-- A filter step on one channel changes BUF and FD. -/
theorem filtChannel_frame (i c : Nat) (s : State) :
    filtChannel i c s = { s with buf := (filtChannel i c s).buf, delays := (filtChannel i c s).delays } := rfl

/-- What FILT_BLOCK changes: BUF inside its region, FD, LFO_ACC, TEMP_CUTOFF and the coefficients. -/
structure FiltWrites (k n : Nat) (s t : State) : Prop where
  frame     : t = { s with buf := t.buf, delays := t.delays, filt := t.filt, lfo := t.lfo }
  cutoff    : t.filt.cutoff = s.filt.cutoff
  resonance : t.filt.resonance = s.filt.resonance
  lfo       : t.lfo = { s.lfo with acc := t.lfo.acc }
  delays    : t.delays.length = s.delays.length
  wf        : s.buf.wf = true → t.buf.wf = true
  outside   : SameOutsideRegion k n s t

theorem FiltWrites.refl (k n : Nat) (s : State) : FiltWrites k n s s :=
  ⟨rfl, rfl, rfl, rfl, rfl, id, fun _ _ => rfl⟩

theorem filtChannel_writes {k n : Nat} {s t : State} (h : FiltWrites k n s t) (i c : Nat) (hc : c < k) (hi : i < n) :
    FiltWrites k n s (filtChannel i c t) where
  frame := by unfold filtChannel; dsimp only; rw [h.frame]; rfl
  cutoff := h.cutoff
  resonance := h.resonance
  lfo := h.lfo
  delays := by simp [filtChannel, h.delays]
  wf := fun hw => State.writeBuf_wf _ _ _ _ (h.wf hw)
  outside := fun a ha => by
    unfold filtChannel
    dsimp only
    refine (State.readByte_writeBuf_outside _ c i a _ ?_).trans (h.outside a ha)
    rw [State.setDelay_cfg, h.frame]; exact ha c i hc hi

theorem sweepStep_writes {k n : Nat} {s t : State} (h : FiltWrites k n s t) : FiltWrites k n s (sweepStep t) where
  frame := by rw [sweepStep_frame t]; dsimp only; rw [h.frame]
  cutoff := h.cutoff
  resonance := h.resonance
  lfo := by rw [sweepStep_frame t]; dsimp only; rw [h.lfo]
  delays := h.delays
  wf := h.wf
  outside := h.outside

theorem filtFrame_writes {k n : Nat} {s t : State} (h : FiltWrites k n s t) (i : Nat) (hi : i < n) :
    FiltWrites k n s (filtFrame k i t) := by
  unfold filtFrame
  refine forUpTo_keep _ _ _ _ ?_ fun c u hc hu => filtChannel_writes hu i c hc hi
  split
  · exact sweepStep_writes h
  · exact h

theorem filtBlock_writes (nc n : Nat) (s : State) : FiltWrites nc n s (forUpTo n (filtFrame nc) s) :=
  forUpTo_keep _ _ _ _ (FiltWrites.refl _ _ _) fun i _ hi ht => filtFrame_writes ht i hi

/-! ## Voice render (45_render.md R240, R241) -/

/-- What rendering changes: BUF inside its region and the slots, of which none becomes FREE or active. -/
structure RenderWrites (k n : Nat) (s t : State) : Prop where
  frame   : t = { s with buf := t.buf, voices := t.voices }
  length  : t.voices.length = s.voices.length
  free    : ∀ j, (t.voice j).state = .free ↔ (s.voice j).state = .free
  wf      : s.buf.wf = true → t.buf.wf = true
  outside : SameOutsideRegion k n s t

theorem RenderWrites.refl (k n : Nat) (s : State) : RenderWrites k n s s :=
  ⟨rfl, rfl, fun _ => Iff.rfl, id, fun _ _ => rfl⟩

theorem RenderWrites.buf {k n : Nat} {s t u : State} (h : RenderWrites k n s t) (hb : BufWrites k n t u) :
    RenderWrites k n s u where
  frame := by rw [hb.frame, h.frame]
  length := by rw [hb.frame]; exact h.length
  free := fun j => by rw [hb.frame]; exact h.free j
  wf := fun hw => hb.wf (h.wf hw)
  outside := fun a ha => by
    rw [hb.outside a (by rw [h.frame]; exact ha)]; exact h.outside a ha

theorem RenderWrites.voice {k n : Nat} {s t : State} (h : RenderWrites k n s t) (j : Nat) (v : Voice)
    (hv : v.state = .free ↔ (t.voice j).state = .free) : RenderWrites k n s (t.setVoice j v) where
  frame := by rw [h.frame]; rfl
  length := by rw [State.setVoice_voices, List.length_set]; exact h.length
  free := fun i => by
    rw [State.voice_setVoice]
    split
    · rename_i hi; rw [hv, hi.1]; exact h.free i
    · exact h.free i
  wf := h.wf
  outside := h.outside

theorem renderSample_writes {nc n : Nat} {s : State} (p : State × Bool) (h : RenderWrites nc n s p.1) (k : Nat)
    (w : Wave) (i : Nat) (hi : i < n) : RenderWrites nc n s (renderSample k nc w i p).1 := by
  unfold renderSample
  split
  · have hv := h.voice k _ (slotSample_state p.1.cfg p.1.rate.fs p.1.params.bend w (p.1.voice k)).1
    dsimp only
    split
    · exact hv.buf (addToChannels_writes nc n i _ _ hi)
    · exact hv
  · exact h

theorem renderSlot_writes {nc n : Nat} {s t : State} (h : RenderWrites nc n s t) (w : Wave) (k : Nat) :
    RenderWrites nc n s (renderSlot nc n w k t).1 := by
  unfold renderSlot
  split
  · exact h
  · exact forUpTo_keep (fun p : State × Bool => RenderWrites nc n s p.1) _ _ _ h
      fun i p hi hp => renderSample_writes p hp k w i hi

theorem renderSlots_writes {nc n : Nat} {s t : State} (h : RenderWrites nc n s t) (w : Wave) (ks : List Nat) :
    RenderWrites nc n s (renderSlots nc n w ks t).1 := by
  induction ks generalizing t with
  | nil => exact h
  | cons k ks ih => exact ih (renderSlot_writes h w k)

/-- The slots marked for disposal are among those rendered. -/
theorem renderSlots_marked (nc n : Nat) (w : Wave) (ks : List Nat) (s : State) :
    List.Sublist (renderSlots nc n w ks s).2 ks := by
  induction ks generalizing s with
  | nil => exact List.Sublist.refl _
  | cons k ks ih =>
    unfold renderSlots
    dsimp only
    split
    · exact (ih _).cons _
    · exact (ih _).cons_cons _

/-- Disposal changes the slots and REG_LIST. -/
theorem disposeSlots_frame (ks : List Nat) (s : State) :
    disposeSlots ks s =
      { s with voices := (disposeSlots ks s).voices, regList := (disposeSlots ks s).regList } := by
  unfold disposeSlots
  induction ks generalizing s with
  | nil => rfl
  | cons k ks ih => rw [List.foldl_cons, ih (s.retire k)]; rfl

/-- Disposal erases the marked slots from REG_LIST, which holds each once, and keeps the order of the rest. -/
theorem disposeSlots_regList (ks : List Nat) (s : State) (h : s.regList.Nodup) :
    (disposeSlots ks s).regList = s.regList.filter fun k => !ks.contains k := by
  unfold disposeSlots
  induction ks generalizing s with
  | nil => simp
  | cons k ks ih =>
    have he : (s.retire k).regList = s.regList.erase k := rfl
    rw [List.foldl_cons, ih _ (he ▸ h.erase k), he, h.erase_eq_filter, List.filter_filter]
    congr 1
    funext j
    simp only [List.contains_cons, Bool.not_or]
    rw [Bool.and_comm]; rfl

/-- Disposal frees the marked slots, and no other. -/
theorem disposeSlots_voice (ks : List Nat) (s : State) (j : Nat) :
    (disposeSlots ks s).voice j =
      if j ∈ ks ∧ j < s.voices.length then { s.voice j with state := .free } else s.voice j := by
  unfold disposeSlots
  induction ks generalizing s with
  | nil => simp
  | cons k ks ih =>
    have hl : (s.retire k).voices.length = s.voices.length := by simp [State.retire]
    rw [List.foldl_cons, ih, hl, State.voice_retire]
    by_cases h1 : k = j
    · subst h1
      by_cases h2 : k < s.voices.length <;> by_cases h3 : k ∈ ks <;> simp [h2, h3]
    · have h1' : j ≠ k := fun h => h1 h.symm
      simp [h1, h1']

/-- What SYNTH_BLOCK does, with and without active slots. -/
theorem synthBlock_cases (nc n : Nat) (s : State) :
    (s.regList = [] ∧ synthBlock nc n s = (clearRegion nc n s).respond 0) ∨
      (s.regList ≠ [] ∧
        synthBlock nc n s =
          (rmApply nc n
            (disposeSlots (renderSlots nc n (waveSel s.rm) s.regList.reverse (clearRegion nc n s)).2
              (renderSlots nc n (waveSel s.rm) s.regList.reverse (clearRegion nc n s)).1)).respond 1) := by
  have hf := (clearRegion_writes nc n s).frame
  have hr : (clearRegion nc n s).regList = s.regList := by rw [hf]
  have hm : (clearRegion nc n s).rm = s.rm := by rw [hf]
  unfold synthBlock
  dsimp only
  rw [hr, hm]
  by_cases h : s.regList = []
  · exact .inl ⟨h, if_pos h⟩
  · exact .inr ⟨h, if_neg h⟩

/-- SYNTH_BLOCK changes BUF in its region, the slots, REG_LIST, RM_PHASE, RM_PREV, the FIFO and STATUS at most. -/
theorem synthBlock_frame (nc n : Nat) (s : State) :
    synthBlock nc n s =
        { s with
          buf := (synthBlock nc n s).buf, voices := (synthBlock nc n s).voices
          regList := (synthBlock nc n s).regList, rm := (synthBlock nc n s).rm
          status := (synthBlock nc n s).status, fifo := (synthBlock nc n s).fifo } ∧
      (synthBlock nc n s).rm.rate = s.rm.rate ∧ (synthBlock nc n s).rm.incr = s.rm.incr ∧
        (synthBlock nc n s).ready = s.ready ∧ (s.buf.wf = true → (synthBlock nc n s).buf.wf = true) ∧
          SameOutsideRegion nc n s (synthBlock nc n s) := by
  have hc := clearRegion_writes nc n s
  rcases synthBlock_cases nc n s with ⟨_, h⟩ | ⟨_, h⟩
  · rw [h, State.ready_respond, State.respond_frame]
    have hf := hc.frame
    refine ⟨by dsimp only; rw [hf], by dsimp only; rw [hf], by dsimp only; rw [hf], by unfold State.ready; rw [hf],
      hc.wf, hc.outside⟩
  · have hr := renderSlots_writes (RenderWrites.buf (RenderWrites.refl nc n s) hc) (waveSel s.rm) s.regList.reverse
    rw [h, State.ready_respond, State.respond_frame]
    generalize renderSlots nc n (waveSel s.rm) s.regList.reverse (clearRegion nc n s) = r at *
    have hd := disposeSlots_frame r.2 r.1
    have hm := rmApply_writes nc n (disposeSlots r.2 r.1)
    generalize disposeSlots r.2 r.1 = d at *
    generalize rmApply nc n d = u at *
    have hf := hr.frame
    have hcfg : d.cfg = s.cfg := by rw [hd, hf]
    refine ⟨by dsimp only; rw [hm.frame, hd, hf], by dsimp only; rw [hm.rate, hd, hf],
      by dsimp only; rw [hm.incr, hd, hf], by unfold State.ready; rw [hm.frame, hd, hf], fun hw => hm.wf ?_,
      fun a ha => (hm.outside a ?_).trans ?_⟩
    · rw [hd]; exact hr.wf hw
    · rw [hcfg]; exact fun c i hk hi => ha c i (by omega) hi
    · rw [hd]; exact hr.outside a ha

end Sys2Proof.Machine
end

