-- ==== Sys2Proof/Laws/Decode.lean ====
section
/-! SUPPORT. Laws of the encoding: the opcode map and the selectors read backwards, the bits of a command word, and
which OP bytes are commands. -/

namespace Sys2Proof

/-! ## The opcode map and the selectors -/

theorem Opcode.ofCode_code (o : Opcode) : Opcode.ofCode o.code = some o := by cases o <;> decide

theorem Opcode.code_of_ofCode {b : BitVec 8} {o : Opcode} (h : Opcode.ofCode b = some o) : o.code = b := by
  simpa using List.find?_some h

theorem Selector.ofCode_code (r : Selector) : Selector.ofCode r.code = some r := by cases r <;> decide

theorem Selector.code_of_ofCode {b : BitVec 8} {r : Selector} (h : Selector.ofCode b = some r) : r.code = b := by
  simpa using List.find?_some h

@[simp] theorem Opcode.instr_opcode (o : Opcode) (f : Fields) : (o.instr f).opcode = o := by cases o <;> rfl

@[simp] theorem Opcode.instr_fields (o : Opcode) (f : Fields) : (o.instr f).fields = f := by cases o <;> rfl

theorem Opcode.instr_of_instr (i : Instr) : i.opcode.instr i.fields = i := by cases i <;> rfl

/-! ## The bits of a command word (30_encoding.md R91) -/

theorem getLsbD_encode (i : Instr) (k : Nat) :
    (encode i).getLsbD k =
      if k < 8 then i.opcode.code.getLsbD k
      else if k < 16 then i.fields.slot.getLsbD (k - 8)
      else if k < 32 then i.fields.rsv.getLsbD (k - 16)
      else i.fields.arg.getLsbD (k - 32) := by
  show BitVec.getLsbD (w := 32 + 16 + 8 + 8) (i.fields.arg ++ i.fields.rsv ++ i.fields.slot ++ i.opcode.code) k = _
  rw [BitVec.getLsbD_append, BitVec.getLsbD_append, BitVec.getLsbD_append]
  split_ifs <;> first | omega | rfl

/-- The OP byte of an encoded command. -/
theorem opcode_encode (i : Instr) : (encode i).extractLsb' 0 8 = i.opcode.code := by
  refine BitVec.eq_of_getLsbD_eq fun k hk => ?_
  rw [BitVec.getLsbD_extractLsb', getLsbD_encode]
  simp [hk]

/-- The fields of an encoded command. -/
theorem fields_encode (i : Instr) : fieldsOfWord (encode i) = i.fields := by
  have hs : (encode i).extractLsb' 8 8 = i.fields.slot := by
    refine BitVec.eq_of_getLsbD_eq fun k hk => ?_
    rw [BitVec.getLsbD_extractLsb', getLsbD_encode]
    simp [hk, show 8 + k < 16 by omega]
  have hr : (encode i).extractLsb' 16 16 = i.fields.rsv := by
    refine BitVec.eq_of_getLsbD_eq fun k hk => ?_
    rw [BitVec.getLsbD_extractLsb', getLsbD_encode]
    simp [hk, show ¬16 + k < 8 by omega, show 16 + k < 32 by omega]
  have ha : (encode i).extractLsb' 32 32 = i.fields.arg := by
    refine BitVec.eq_of_getLsbD_eq fun k hk => ?_
    rw [BitVec.getLsbD_extractLsb', getLsbD_encode]
    simp [hk, show ¬32 + k < 8 by omega, show ¬32 + k < 16 by omega]
  unfold fieldsOfWord
  rw [hs, hr, ha]

/-- The bytes of a word, put together again, are the word (20_memory.md R74). -/
theorem decodeBytes_bytesOfWord (w : CommandWord) : decodeBytes (bytesOfWord w) = decode w := by
  show decode (wordOfBytes _ _ _ _ _ _ _ _) = decode w
  congr 1
  refine BitVec.eq_of_getLsbD_eq fun k hk => ?_
  show BitVec.getLsbD (w := 8 + 8 + 8 + 8 + 8 + 8 + 8 + 8) (_ ++ _ ++ _ ++ _ ++ _ ++ _ ++ _ ++ _) k = _
  simp only [BitVec.getLsbD_append, BitVec.getLsbD_extractLsb']
  have hw : ∀ j, j = k → w.getLsbD j = w.getLsbD k := fun j h => by rw [h]
  split_ifs with h0 h1 h2 h3 h4 h5 h6 <;>
    rw [decide_eq_true (by omega), Bool.true_and] <;> exact hw _ (by omega)

end Sys2Proof
end

