-- ==== Sys2Proof/Laws/Float.lean ====
section
/-! SUPPORT. Laws of the binary32 arithmetic: the value and the order of patterns, what rounding does, and the order of
rounded results. -/

namespace Sys2Proof.Machine

/-! ## Magnitudes

A finite magnitude is a number below 0x7F800000; `magUnits` is its value in units of 2^-149. -/

/-- The units of a magnitude. -/
def magUnits (m : Nat) : Nat := if m / 2 ^ 23 = 0 then m else (2 ^ 23 + m % 2 ^ 23) * 2 ^ (m / 2 ^ 23 - 1)

/-- The magnitude bits of a pattern. -/
def fMag (a : F) : Nat := a.toNat % 2 ^ 31

theorem fMag_lt (a : F) : fMag a < 2 ^ 31 := Nat.mod_lt _ (by decide)

theorem fUnits_eq (a : F) : fUnits a = magUnits (fMag a) := by
  have ha := a.isLt
  unfold fUnits magUnits fExp fFrac fMag
  have h1 : a.toNat % 2 ^ 31 / 2 ^ 23 = a.toNat / 2 ^ 23 % 256 := by omega
  have h2 : a.toNat % 2 ^ 31 % 2 ^ 23 = a.toNat % 2 ^ 23 := by omega
  rw [h1, h2]
  split
  · omega
  · rfl

/-- Below 2^24 units a magnitude in binade step e with significand q has q · 2^e units. -/
theorem magUnits_step (e q : Nat) (hq : q ≤ 2 ^ 24) (h : e = 0 ∨ 2 ^ 23 ≤ q) :
    magUnits (e * 2 ^ 23 + q) = q * 2 ^ e := by
  unfold magUnits
  rcases Nat.lt_or_ge q (2 ^ 23) with h' | h'
  · obtain rfl : e = 0 := by omega
    have : (0 * 2 ^ 23 + q) / 2 ^ 23 = 0 := by omega
    rw [if_pos this]; simp
  · rcases Nat.lt_or_ge q (2 ^ 24) with h'' | h''
    · have h1 : (e * 2 ^ 23 + q) / 2 ^ 23 = e + 1 := by omega
      have h2 : (e * 2 ^ 23 + q) % 2 ^ 23 = q - 2 ^ 23 := by omega
      rw [h1, h2, if_neg (by omega), Nat.add_sub_cancel, Nat.add_sub_cancel' h']
    · obtain rfl : q = 2 ^ 24 := by omega
      have h1 : (e * 2 ^ 23 + 2 ^ 24) / 2 ^ 23 = e + 2 := by omega
      have h2 : (e * 2 ^ 23 + 2 ^ 24) % 2 ^ 23 = 0 := by omega
      rw [h1, h2, if_neg (by omega), show e + 2 - 1 = e + 1 by omega, Nat.pow_succ 2 e]
      ring

/-- Every magnitude has such a step and significand, with room for the next one. -/
theorem mag_step (m : Nat) : ∃ e q, m = e * 2 ^ 23 + q ∧ q < 2 ^ 24 ∧ (e = 0 ∨ 2 ^ 23 ≤ q) := by
  rcases Nat.lt_or_ge m (2 ^ 24) with h | h
  · exact ⟨0, m, by omega, h, .inl rfl⟩
  · exact ⟨m / 2 ^ 23 - 1, m % 2 ^ 23 + 2 ^ 23, by omega, by omega, .inr (by omega)⟩

/-- Magnitudes are ordered as their values. -/
theorem magUnits_strictMono : StrictMono magUnits := by
  refine strictMono_nat_of_lt_succ fun m => ?_
  obtain ⟨e, q, rfl, hq, h⟩ := mag_step m
  rw [Nat.add_assoc, magUnits_step e q (by omega) h, magUnits_step e (q + 1) (by omega) (by omega)]
  have : 0 < 2 ^ e := by positivity
  nlinarith

/-- What rounding does, said once: the exact value lies between two neighbouring magnitudes, the result is the nearer
one, the even one on a tie, and at most 0x7F800000. -/
theorem roundUnits_spec (num den : Nat) (hd : 0 < den) :
    ∃ l, magUnits l * den ≤ num ∧ num < magUnits (l + 1) * den ∧
      roundUnits num den =
        min (if 2 * num < (magUnits l + magUnits (l + 1)) * den then l
          else if 2 * num = (magUnits l + magUnits (l + 1)) * den ∧ l % 2 = 0 then l else l + 1) 0x7F800000 := by
  obtain ⟨e, he⟩ : ∃ e, e = (num / den).log2 - 23 := ⟨_, rfl⟩
  obtain ⟨q, hqd⟩ : ∃ q, q = num / (den * 2 ^ e) := ⟨_, rfl⟩
  have hpos : 0 < 2 ^ e := by positivity
  have hd' : 0 < den * 2 ^ e := Nat.mul_pos hd hpos
  have hqx : q = num / den / 2 ^ e := by rw [hqd, Nat.div_div_eq_div_mul]
  have hup : q < 2 ^ 24 := by
    rw [hqx, Nat.div_lt_iff_lt_mul hpos, ← Nat.pow_add]
    rcases Nat.eq_zero_or_pos (num / den) with h0 | h0
    · rw [h0]; positivity
    · refine (Nat.log2_lt (by omega)).1 ?_
      omega
  have hlow : e = 0 ∨ 2 ^ 23 ≤ q := by
    rcases Nat.eq_zero_or_pos e with h0 | h0
    · exact .inl h0
    · right
      rw [hqx, Nat.le_div_iff_mul_le hpos, ← Nat.pow_add]
      refine (Nat.le_log2 ?_).1 (by omega)
      intro h; rw [h] at he; simp at he; omega
  have hl : magUnits (e * 2 ^ 23 + q) = q * 2 ^ e := magUnits_step e q (by omega) hlow
  have hu : magUnits (e * 2 ^ 23 + q + 1) = (q + 1) * 2 ^ e := by
    rw [Nat.add_assoc]; exact magUnits_step e (q + 1) (by omega) (by omega)
  have hdm : den * 2 ^ e * q + num % (den * 2 ^ e) = num := by rw [hqd]; exact Nat.div_add_mod _ _
  have hr : num % (den * 2 ^ e) < den * 2 ^ e := Nat.mod_lt _ hd'
  refine ⟨e * 2 ^ 23 + q, ?_, ?_, ?_⟩
  · rw [hl, Nat.mul_assoc, Nat.mul_comm (2 ^ e), Nat.mul_comm q]; omega
  · rw [hu, Nat.mul_assoc, Nat.mul_comm (2 ^ e), Nat.mul_comm (q + 1), Nat.mul_add]; omega
  · rw [hl, hu]
    have hs : (q * 2 ^ e + (q + 1) * 2 ^ e) * den = 2 * (den * 2 ^ e * q) + den * 2 ^ e := by ring
    have hpar : (e * 2 ^ 23 + q) % 2 = q % 2 := by omega
    rw [hs, hpar]
    unfold roundUnits
    simp only [← he, ← hqd]
    generalize den * 2 ^ e = d at *
    generalize num % d = r at *
    generalize d * q = dq at *
    congr 1
    by_cases h1 : d < 2 * r
    · have : ¬ 2 * num < 2 * dq + d := by omega
      have h' : ¬ (2 * num = 2 * dq + d ∧ q % 2 = 0) := by omega
      rw [if_neg this, if_neg h']; simp [h1]
    · by_cases h2 : d = 2 * r
      · have : ¬ 2 * num < 2 * dq + d := by omega
        have h3 : 2 * num = 2 * dq + d := by omega
        rw [if_neg this]
        rcases Nat.mod_two_eq_zero_or_one q with h4 | h4
        · have h' : 2 * num = 2 * dq + d ∧ q % 2 = 0 := ⟨h3, h4⟩
          rw [if_pos h']; simp [h1, h4]
        · have h' : ¬(2 * num = 2 * dq + d ∧ q % 2 = 0) := by omega
          rw [if_neg h']; simp [h2, h4]
      · have : 2 * num < 2 * dq + d := by omega
        rw [if_pos this]; simp [h1, h2]

theorem roundUnits_le_inf (num den : Nat) : roundUnits num den ≤ 0x7F800000 := Nat.min_le_right _ _

/-- Rounding keeps order. -/
theorem roundUnits_mono (n₁ d₁ n₂ d₂ : Nat) (h₁ : 0 < d₁) (h₂ : 0 < d₂) (h : n₁ * d₂ ≤ n₂ * d₁) :
    roundUnits n₁ d₁ ≤ roundUnits n₂ d₂ := by
  obtain ⟨l, hl, hl', hr⟩ := roundUnits_spec n₁ d₁ h₁
  obtain ⟨k, hk, hk', hs⟩ := roundUnits_spec n₂ d₂ h₂
  rw [hr, hs]
  refine min_le_min_right _ ?_
  have hlk : l ≤ k := by
    by_contra hcon
    have : magUnits (k + 1) ≤ magUnits l := magUnits_strictMono.monotone (by omega)
    have a1 : n₂ * d₁ < magUnits (k + 1) * d₂ * d₁ := Nat.mul_lt_mul_of_pos_right hk' h₁
    have a2 : magUnits l * d₁ * d₂ ≤ n₁ * d₂ := Nat.mul_le_mul_right _ hl
    have a3 : magUnits (k + 1) * (d₂ * d₁) ≤ magUnits l * (d₂ * d₁) := Nat.mul_le_mul_right _ this
    nlinarith
  rcases Nat.lt_or_ge l k with hlt | hge
  · have : (if 2 * n₁ < (magUnits l + magUnits (l + 1)) * d₁ then l
        else if 2 * n₁ = (magUnits l + magUnits (l + 1)) * d₁ ∧ l % 2 = 0 then l else l + 1) ≤ l + 1 := by
      split_ifs <;> omega
    have : k ≤ (if 2 * n₂ < (magUnits k + magUnits (k + 1)) * d₂ then k
        else if 2 * n₂ = (magUnits k + magUnits (k + 1)) * d₂ ∧ k % 2 = 0 then k else k + 1) := by
      split_ifs <;> omega
    omega
  · obtain rfl : l = k := by omega
    generalize magUnits l + magUnits (l + 1) = m at *
    by_cases c1 : 2 * n₂ < m * d₂
    · have : 2 * n₁ < m * d₁ := by
        have a1 : 2 * n₂ * d₁ < m * d₂ * d₁ := Nat.mul_lt_mul_of_pos_right c1 h₁
        have a2 : 2 * n₁ * d₂ ≤ 2 * n₂ * d₁ := by nlinarith
        have a3 : 2 * n₁ * d₂ < m * d₁ * d₂ := by nlinarith
        exact lt_of_mul_lt_mul_right a3 (Nat.zero_le _)
      rw [if_pos this, if_pos c1]
    · by_cases c2 : 2 * n₂ = m * d₂ ∧ l % 2 = 0
      · have : 2 * n₁ ≤ m * d₁ := by
          have a3 : 2 * n₁ * d₂ ≤ m * d₁ * d₂ := by nlinarith [c2.1]
          exact le_of_mul_le_mul_right a3 h₂
        rw [if_neg c1, if_pos c2]
        rcases Nat.lt_or_ge (2 * n₁) (m * d₁) with hh | hh
        · rw [if_pos hh]
        · rw [if_neg (by omega), if_pos ⟨by omega, c2.2⟩]
      · rw [if_neg c1, if_neg c2]; split_ifs <;> omega

/-- A finite value rounds to itself. -/
theorem roundUnits_exact (m den : Nat) (hd : 0 < den) (hm : m ≤ 0x7F800000) :
    roundUnits (magUnits m * den) den = m := by
  obtain ⟨l, hl, hl', hr⟩ := roundUnits_spec (magUnits m * den) den hd
  have h1 : magUnits l ≤ magUnits m := le_of_mul_le_mul_right hl hd
  have h2 : magUnits m < magUnits (l + 1) := lt_of_mul_lt_mul_right hl' (Nat.zero_le _)
  have h3 := magUnits_strictMono.le_iff_le.1 h1
  have h4 := magUnits_strictMono.lt_iff_lt.1 h2
  obtain rfl : m = l := by omega
  rw [hr, if_pos (by nlinarith), Nat.min_eq_left hm]

/-- No magnitude is nearer to the exact value than a finite result, and of two equally near the result is the even one. -/
theorem roundUnits_nearest (num den m : Nat) (hd : 0 < den) (hfin : roundUnits num den < 0x7F800000) :
    |(magUnits (roundUnits num den) * den : Int) - num| ≤ |(magUnits m * den : Int) - num| ∧
      (|(magUnits (roundUnits num den) * den : Int) - num| = |(magUnits m * den : Int) - num| →
        m ≠ roundUnits num den → roundUnits num den % 2 = 0) := by
  obtain ⟨l, hl, hl', hr⟩ := roundUnits_spec num den hd
  have hside : magUnits m * den ≤ magUnits l * den ∧ m ≤ l ∨ magUnits (l + 1) * den ≤ magUnits m * den ∧ l + 1 ≤ m := by
    rcases Nat.lt_or_ge l m with h | h
    · exact .inr ⟨Nat.mul_le_mul_right _ (magUnits_strictMono.monotone h), h⟩
    · exact .inl ⟨Nat.mul_le_mul_right _ (magUnits_strictMono.monotone h), h⟩
  have hinj : ∀ k, magUnits m * den = magUnits k * den → m = k := fun k h =>
    magUnits_strictMono.injective (Nat.eq_of_mul_eq_mul_right hd h)
  have i1 := hinj l
  have i2 := hinj (l + 1)
  have e : (magUnits l + magUnits (l + 1)) * den = magUnits l * den + magUnits (l + 1) * den := by ring
  rw [e] at hr
  have hb : ∀ k, ((magUnits k : Int) * den) = ((magUnits k * den : Nat) : Int) := fun k => by push_cast; rfl
  rw [hb, hb]
  generalize roundUnits num den = k at *
  generalize 0x7F800000 = inf at *
  have hk : (k = l ∧ (2 * num < magUnits l * den + magUnits (l + 1) * den ∨
        2 * num = magUnits l * den + magUnits (l + 1) * den ∧ l % 2 = 0)) ∨
      (k = l + 1 ∧ (magUnits l * den + magUnits (l + 1) * den < 2 * num ∨
        2 * num = magUnits l * den + magUnits (l + 1) * den ∧ l % 2 = 1)) := by
    split_ifs at hr <;> omega
  have hkl : k = l → magUnits k * den = magUnits l * den := fun h => by rw [h]
  have hku : k = l + 1 → magUnits k * den = magUnits (l + 1) * den := fun h => by rw [h]
  generalize magUnits k * den = uk at *
  generalize magUnits l * den = ul at *
  generalize magUnits (l + 1) * den = uu at *
  generalize magUnits m * den = um at *
  rcases abs_cases ((uk : Int) - num) with ⟨a, _⟩ | ⟨a, _⟩ <;>
    rcases abs_cases ((um : Int) - num) with ⟨b, _⟩ | ⟨b, _⟩ <;> rw [a, b] <;>
    exact ⟨by omega, fun _ _ => by omega⟩

/-! ## Patterns -/

theorem fMag_fPack (neg : Bool) (m : Nat) (h : m < 2 ^ 31) : fMag (fPack neg m) = m := by
  unfold fMag fPack
  rw [BitVec.toNat_ofNat]
  cases neg <;> simp <;> omega

theorem fNeg_fPack (neg : Bool) (m : Nat) (h : m < 2 ^ 31) : fNeg (fPack neg m) = neg := by
  unfold fNeg fPack
  rw [BitVec.msb_eq_decide, BitVec.toNat_ofNat]
  cases neg <;> simp <;> omega

theorem isNaN_iff (a : F) : isNaN a = true ↔ 0x7F800000 < fMag a := by
  unfold isNaN fExp fFrac fMag
  simp only [Bool.and_eq_true, beq_iff_eq, bne_iff_ne]
  have := a.isLt
  omega

theorem isInf_iff (a : F) : isInf a = true ↔ fMag a = 0x7F800000 := by
  unfold isInf fExp fFrac fMag
  simp only [Bool.and_eq_true, beq_iff_eq]
  have := a.isLt
  omega

theorem isFinite_iff (a : F) : isFinite a = true ↔ fMag a < 0x7F800000 := by
  unfold isFinite fExp fMag
  simp only [bne_iff_ne]
  have := a.isLt
  omega

theorem not_nan_of_finite {a : F} (h : isFinite a = true) : isNaN a = false := by
  have := (isFinite_iff a).1 h
  rw [← Bool.not_eq_true, isNaN_iff]; omega

theorem not_inf_of_finite {a : F} (h : isFinite a = true) : isInf a = false := by
  have := (isFinite_iff a).1 h
  rw [← Bool.not_eq_true, isInf_iff]; omega

theorem fKey_eq (a : F) : fKey a = if fNeg a then -(fMag a : Int) else (fMag a : Int) := rfl

theorem fKey_fPack (neg : Bool) (m : Nat) (h : m < 2 ^ 31) :
    fKey (fPack neg m) = if neg then -(m : Int) else (m : Int) := by
  rw [fKey_eq, fMag_fPack _ _ h, fNeg_fPack _ _ h]

theorem valueUnits_eq (a : F) :
    valueUnits a = if fNeg a then -(magUnits (fMag a) : Int) else (magUnits (fMag a) : Int) := by
  unfold valueUnits; rw [fUnits_eq]

theorem magUnits_zero : magUnits 0 = 0 := rfl

theorem magUnits_eq_zero (m : Nat) : magUnits m = 0 ↔ m = 0 :=
  ⟨fun h => magUnits_strictMono.injective (h.trans magUnits_zero.symm), fun h => by rw [h]; rfl⟩

/-! ## Signed rounding -/

/-- The place in the IEEE order of `num / den` units, rounded. -/
def signedRound (num : Int) (den : Nat) : Int :=
  if num < 0 then -(roundUnits num.natAbs den : Int) else (roundUnits num.natAbs den : Int)

theorem signedRound_mono (n₁ n₂ : Int) (den : Nat) (hd : 0 < den) (h : n₁ ≤ n₂) :
    signedRound n₁ den ≤ signedRound n₂ den := by
  unfold signedRound
  split_ifs with h1 h2 h2
  · have := roundUnits_mono n₂.natAbs den n₁.natAbs den hd hd (Nat.mul_le_mul_right _ (by omega))
    omega
  · omega
  · omega
  · have := roundUnits_mono n₁.natAbs den n₂.natAbs den hd hd (Nat.mul_le_mul_right _ (by omega))
    omega

/-- A finite value rounds to its own place. -/
theorem signedRound_value (a : F) (h : isFinite a = true) : signedRound (valueUnits a) 1 = fKey a := by
  have hm := (isFinite_iff a).1 h
  have := roundUnits_exact (fMag a) 1 (by omega) (by omega)
  rw [Nat.mul_one] at this
  have hz := magUnits_eq_zero (fMag a)
  unfold signedRound
  rw [valueUnits_eq, fKey_eq]
  cases fNeg a
  · simp [this]
  · simp only [if_true, Int.natAbs_neg, Int.natAbs_natCast, this]
    split_ifs <;> omega

/-- The order of finite values is the order of their places. -/
theorem fKey_le_iff (a b : F) : fKey a ≤ fKey b ↔ valueUnits a ≤ valueUnits b := by
  rw [fKey_eq, fKey_eq, valueUnits_eq, valueUnits_eq]
  have h1 := magUnits_strictMono.le_iff_le (a := fMag a) (b := fMag b)
  have h2 := magUnits_strictMono.le_iff_le (a := fMag b) (b := fMag a)
  have h3 := magUnits_eq_zero (fMag a)
  have h4 := magUnits_eq_zero (fMag b)
  cases fNeg a <;> cases fNeg b <;> simp only [if_true, Bool.false_eq_true, if_false] <;> omega

theorem fLe_iff {a b : F} (ha : isNaN a = false) (hb : isNaN b = false) : fLe a b = true ↔ fKey a ≤ fKey b := by
  simp [fLe, fOrdered, ha, hb]

theorem fLt_iff {a b : F} (ha : isNaN a = false) (hb : isNaN b = false) : fLt a b = true ↔ fKey a < fKey b := by
  simp [fLt, fOrdered, ha, hb]

theorem fLe_ordered {a b : F} (h : fLe a b = true) : isNaN a = false ∧ isNaN b = false ∧ fKey a ≤ fKey b := by
  simpa [fLe, fOrdered, and_assoc] using h

theorem fLt_ordered {a b : F} (h : fLt a b = true) : isNaN a = false ∧ isNaN b = false ∧ fKey a < fKey b := by
  simpa [fLt, fOrdered, and_assoc] using h

theorem fLe_trans {a b c : F} (h1 : fLe a b = true) (h2 : fLe b c = true) : fLe a c = true := by
  obtain ⟨ha, _, h⟩ := fLe_ordered h1
  obtain ⟨_, hc, h'⟩ := fLe_ordered h2
  exact (fLe_iff ha hc).2 (le_trans h h')

theorem fLe_refl {a : F} (h : isNaN a = false) : fLe a a = true := (fLe_iff h h).2 le_rfl

theorem fLe_of_fLt {a b : F} (h : fLt a b = true) : fLe a b = true := by
  obtain ⟨ha, hb, h⟩ := fLt_ordered h
  exact (fLe_iff ha hb).2 h.le

/-- Of two ordered values one is at most the other. -/
theorem fLe_of_not_fLt {a b : F} (ha : isNaN a = false) (hb : isNaN b = false) (h : fLt a b = false) :
    fLe b a = true := by
  rw [← Bool.not_eq_true, fLt_iff ha hb] at h
  exact (fLe_iff hb ha).2 (by omega)

theorem fLt_of_not_fLe {a b : F} (ha : isNaN a = false) (hb : isNaN b = false) (h : fLe a b = false) :
    fLt b a = true := by
  rw [← Bool.not_eq_true, fLe_iff ha hb] at h
  exact (fLt_iff hb ha).2 (by omega)

/-- Between two finite values, a value is finite. -/
theorem isFinite_between {lo v hi : F} (hlo : isFinite lo = true) (hhi : isFinite hi = true) (h1 : fLe lo v = true)
    (h2 : fLe v hi = true) : isFinite v = true := by
  obtain ⟨_, _, h1⟩ := fLe_ordered h1
  obtain ⟨_, _, h2⟩ := fLe_ordered h2
  have := (isFinite_iff lo).1 hlo
  have := (isFinite_iff hi).1 hhi
  rw [isFinite_iff]
  rw [fKey_eq, fKey_eq] at h1 h2
  split_ifs at h1 h2 <;> omega

/-! ## The four operations on finite operands -/

theorem round_lt (num den : Nat) : roundUnits num den < 2 ^ 31 :=
  lt_of_le_of_lt (roundUnits_le_inf num den) (by decide)

theorem isNaN_fPack_round (neg : Bool) (num den : Nat) : isNaN (fPack neg (roundUnits num den)) = false := by
  rw [← Bool.not_eq_true, isNaN_iff, fMag_fPack _ _ (round_lt _ _), not_lt]
  exact roundUnits_le_inf num den

theorem roundUnits_zero (den : Nat) (hd : 0 < den) : roundUnits 0 den = 0 := by
  have := roundUnits_exact 0 den hd (by omega)
  rwa [magUnits_zero, Nat.zero_mul] at this

/-- A rounded magnitude with a sign is the rounded signed value. -/
theorem fKey_pack_round (neg : Bool) (n den : Nat) (hd : 0 < den) :
    fKey (fPack neg (roundUnits n den)) = signedRound (if neg then -(n : Int) else n) den := by
  rw [fKey_fPack _ _ (round_lt _ _)]
  unfold signedRound
  rcases Nat.eq_zero_or_pos n with rfl | hn
  · cases neg <;> simp [roundUnits_zero den hd]
  · cases neg
    · simp
    · simp [hn]

/-- The sum of finite values is the rounded exact sum. -/
theorem addUnits_spec (na : Bool) (ua : Nat) (nb : Bool) (ub : Nat) :
    isNaN (addUnits na ua nb ub) = false ∧
      fKey (addUnits na ua nb ub) =
        signedRound ((if na then -(ua : Int) else ua) + (if nb then -(ub : Int) else ub)) 1 := by
  unfold addUnits
  by_cases h : na = nb
  · rw [if_pos h]
    refine ⟨isNaN_fPack_round _ _ _, ?_⟩
    rw [fKey_pack_round _ _ _ (by omega)]
    subst h
    congr 1
    cases na <;> simp <;> omega
  · rw [if_neg h]
    by_cases h1 : ub < ua
    · rw [if_pos h1]
      refine ⟨isNaN_fPack_round _ _ _, ?_⟩
      rw [fKey_pack_round _ _ _ (by omega)]
      congr 1
      cases na <;> cases nb <;> simp at h ⊢ <;> omega
    · rw [if_neg h1]
      by_cases h2 : ua < ub
      · rw [if_pos h2]
        refine ⟨isNaN_fPack_round _ _ _, ?_⟩
        rw [fKey_pack_round _ _ _ (by omega)]
        congr 1
        cases na <;> cases nb <;> simp at h ⊢ <;> omega
      · rw [if_neg h2]
        obtain rfl : ua = ub := by omega
        refine ⟨rfl, ?_⟩
        have : ((if na then -(ua : Int) else ua) + (if nb then -(ua : Int) else ua)) = 0 := by
          cases na <;> cases nb <;> simp at h ⊢
        rw [this]
        simp [signedRound, roundUnits_zero]; rfl

theorem addSigned_spec (op : FOp) (a b : F) (nb : Bool) (ha : isFinite a = true) (hb : isFinite b = true) :
    isNaN (addSigned op a b nb) = false ∧
      fKey (addSigned op a b nb) = signedRound (valueUnits a + (if nb then -(fUnits b : Int) else fUnits b)) 1 := by
  unfold addSigned
  rw [if_neg (by simp [not_nan_of_finite ha, not_nan_of_finite hb]), if_neg (by simp [not_inf_of_finite ha]), if_neg (by simp [not_inf_of_finite hb])]
  exact addUnits_spec _ _ _ _

theorem fAdd_spec (a b : F) (ha : isFinite a = true) (hb : isFinite b = true) :
    isNaN (fAdd a b) = false ∧ fKey (fAdd a b) = signedRound (valueUnits a + valueUnits b) 1 :=
  addSigned_spec .add a b _ ha hb

theorem fSub_spec (a b : F) (ha : isFinite a = true) (hb : isFinite b = true) :
    isNaN (fSub a b) = false ∧ fKey (fSub a b) = signedRound (valueUnits a - valueUnits b) 1 := by
  obtain ⟨h1, h2⟩ := addSigned_spec .sub a b (!fNeg b) ha hb
  refine ⟨h1, h2.trans (congrArg (signedRound · 1) ?_)⟩
  unfold valueUnits
  cases fNeg b <;> simp [sub_eq_add_neg]

theorem fMul_spec (a b : F) (ha : isFinite a = true) (hb : isFinite b = true) :
    isNaN (fMul a b) = false ∧ fKey (fMul a b) = signedRound (valueUnits a * valueUnits b) (2 ^ 149) := by
  have h : fMul a b = fPack (fNeg a != fNeg b) (roundUnits (fUnits a * fUnits b) (2 ^ 149)) := by
    unfold fMul
    rw [if_neg (by simp [not_nan_of_finite ha, not_nan_of_finite hb]), if_neg (by simp [not_inf_of_finite ha, not_inf_of_finite hb])]
  rw [h]
  refine ⟨isNaN_fPack_round _ _ _, ?_⟩
  rw [fKey_pack_round _ _ _ (by positivity)]
  congr 1
  unfold valueUnits
  cases fNeg a <;> cases fNeg b <;> simp

theorem fDiv_spec (a b : F) (ha : isFinite a = true) (hb : isFinite b = true) (h0 : fUnits b ≠ 0) :
    isNaN (fDiv a b) = false ∧
      fKey (fDiv a b) =
        signedRound (if fNeg b then -(valueUnits a * 2 ^ 149) else valueUnits a * 2 ^ 149) (fUnits b) := by
  have h : fDiv a b = fPack (fNeg a != fNeg b) (roundUnits (fUnits a * 2 ^ 149) (fUnits b)) := by
    unfold fDiv
    rw [if_neg (by simp [not_nan_of_finite ha, not_nan_of_finite hb]), if_neg (by simp [not_inf_of_finite ha]), if_neg (by simp [not_inf_of_finite hb]),
      if_neg h0]
  rw [h]
  refine ⟨isNaN_fPack_round _ _ _, ?_⟩
  rw [fKey_pack_round _ _ _ (by omega)]
  congr 1
  unfold valueUnits
  cases fNeg a <;> cases fNeg b <;> simp

/-- From magnitudes to signed values: the nearer magnitude with the sign of the exact value is the nearer value. -/
theorem signed_nearest (va vb num n A B : Int) (even : Prop) (hA : 0 ≤ A) (hB : 0 ≤ B)
    (hn : (num < 0 ∧ n = -num) ∨ (0 ≤ num ∧ n = num)) (n1 : |A - n| ≤ |B - n|)
    (n2 : |A - n| = |B - n| → A ≠ B → even) (hvb : vb = B ∨ vb = -B)
    (hs : A = 0 ∧ va = 0 ∨ (va = A ∧ 0 ≤ num) ∨ (va = -A ∧ num < 0)) (hz : num = 0 → A = 0) :
    |va - num| ≤ |vb - num| ∧ (|va - num| = |vb - num| → va ≠ vb → even) := by
  have hva : |va - num| = |A - n| := by
    rcases hs with ⟨h, h'⟩ | ⟨h, h'⟩ | ⟨h, h'⟩
    · rw [h, h', zero_sub, zero_sub, abs_neg, abs_neg]
      rcases hn with ⟨_, h''⟩ | ⟨_, h''⟩ <;> rw [h''] <;> simp
    · rw [h]; congr 1; omega
    · rw [h, ← abs_neg]; congr 1; omega
  have hvb' : |B - n| ≤ |vb - num| ∧ (|B - n| = |vb - num| → vb = B ∧ n = num ∨ vb = -B ∧ n = -num ∨ B = 0 ∨ n = 0) := by
    rcases abs_cases (B - n) with ⟨h1, _⟩ | ⟨h1, _⟩ <;> rcases abs_cases (vb - num) with ⟨h2, _⟩ | ⟨h2, _⟩ <;>
      rw [h1, h2] <;> (refine ⟨?_, fun h => ?_⟩ <;> omega)
  rw [hva]
  refine ⟨le_trans n1 hvb'.1, fun h hne => ?_⟩
  have h1 : |A - n| = |B - n| := le_antisymm n1 (h ▸ hvb'.1)
  refine n2 h1 fun hAB => hne ?_
  have := hvb'.2 (h1 ▸ h)
  omega

/-- A finite pattern whose place is a rounded value has no nearer finite neighbour, and is even on a tie. -/
theorem nearest_of_round (a : F) (num : Int) (den : Nat) (hd : 0 < den) (hf : isFinite a = true)
    (h : fKey a = signedRound num den) : Nearest a num den := by
  intro b _
  have hm := (isFinite_iff a).1 hf
  have hmag : fMag a = roundUnits num.natAbs den := by
    unfold signedRound at h; rw [fKey_eq] at h; split_ifs at h <;> omega
  obtain ⟨n1, n2⟩ := roundUnits_nearest num.natAbs den (fMag b) hd (by omega)
  rw [← hmag] at n1 n2
  have hpar : fMag a % 2 = 0 → a.getLsbD 0 = false := by
    unfold fMag
    rw [BitVec.getLsbD, Nat.testBit_zero, decide_eq_false_iff_not]
    omega
  have hsign : fMag a = 0 ∨ (fNeg a = false ∧ 0 ≤ num) ∨ (fNeg a = true ∧ num < 0) := by
    unfold signedRound at h; rw [fKey_eq] at h
    cases hn : fNeg a <;> simp only [hn, if_true, if_false, Bool.false_eq_true] at h <;> split_ifs at h <;>
      simp <;> omega
  have hsn := signed_nearest (valueUnits a * den) (valueUnits b * den) num num.natAbs (magUnits (fMag a) * den)
    (magUnits (fMag b) * den) (a.getLsbD 0 = false) (by positivity) (by positivity) (by omega) n1
    (fun h1 h2 => hpar (n2 h1 fun h3 => h2 (by rw [h3])))
    (by rw [valueUnits_eq]; cases fNeg b <;> simp)
    (by
      rw [valueUnits_eq]
      rcases hsign with h0 | ⟨h1, h2⟩ | ⟨h1, h2⟩
      · exact .inl (by simp [h0, magUnits_zero])
      · exact .inr (.inl ⟨by simp [h1], h2⟩)
      · exact .inr (.inr ⟨by simp [h1], h2⟩))
    (by rintro rfl; rw [hmag]; simp [roundUnits_zero den hd, magUnits_zero])
  exact ⟨hsn.1, fun h1 h2 => hsn.2 h1 fun h3 => h2 (Int.eq_of_mul_eq_mul_right (Int.ofNat_ne_zero.2 (by omega)) h3)⟩

/-! ## Overflow and signs -/

/-- Rounding stays finite exactly below the overflow threshold. -/
theorem roundUnits_lt_inf_iff (num den : Nat) (hd : 0 < den) :
    roundUnits num den < 0x7F800000 ↔ (num : Int) < overflowUnits * den := by
  obtain ⟨l, hl, hl', hr⟩ := roundUnits_spec num den hd
  obtain ⟨p, hp⟩ : ∃ p, p = 2 ^ 252 := ⟨_, rfl⟩
  have e1 : magUnits 0x7F7FFFFF = (2 ^ 25 - 2) * p := by rw [hp]; decide +kernel
  have e2 : magUnits 0x7F800000 = 2 ^ 25 * p := by rw [hp]; decide +kernel
  have hov : overflowUnits * (den : Int) = (((2 ^ 25 - 1) * (p * den) : Nat) : Int) := by
    unfold overflowUnits; rw [hp]; push_cast; ring
  rw [hov, Nat.cast_lt, hr]
  have hp0 : 0 < p := by rw [hp]; positivity
  clear hp hov hr
  have hpd : 0 < p * den := Nat.mul_pos hp0 hd
  rcases lt_trichotomy l 0x7F7FFFFF with h | h | h
  · have hm := magUnits_strictMono.monotone (Nat.succ_le_of_lt h)
    have hlt := lt_of_lt_of_le hl' (Nat.mul_le_mul_right den hm)
    rw [e1, Nat.mul_assoc] at hlt
    have hlt' : num < (2 ^ 25 - 1) * (p * den) := by omega
    refine ⟨fun _ => hlt', fun _ => ?_⟩
    have h1 : l + 1 < 0x7F800000 := by omega
    refine lt_of_le_of_lt (Nat.min_le_left _ _) ?_
    split_ifs
    · exact Nat.lt_of_succ_lt h1
    · exact Nat.lt_of_succ_lt h1
    · exact h1
  · subst h
    rw [show (0x7F7FFFFF + 1 : Nat) = 0x7F800000 from rfl, e1, e2]
    have : ((2 ^ 25 - 2) * p + 2 ^ 25 * p) * den = 2 * ((2 ^ 25 - 1) * (p * den)) := by
      rw [← Nat.add_mul, Nat.mul_assoc, show (2 ^ 25 - 2 + 2 ^ 25 : Nat) = 2 * (2 ^ 25 - 1) from rfl, Nat.mul_assoc]
    rw [this]
    split_ifs with h1 h2
    · exact ⟨fun _ => by omega, fun _ => by omega⟩
    · exact absurd h2.2 (by decide)
    · exact ⟨fun h => absurd h (by decide), fun h => absurd (by omega) h1⟩
  · have hm := magUnits_strictMono.monotone (Nat.succ_le_of_lt h)
    have hge := le_trans (Nat.mul_le_mul_right den hm) hl
    rw [e2, Nat.mul_assoc] at hge
    refine ⟨fun h' => ?_, fun h' => by omega⟩
    rw [Nat.min_eq_right] at h'
    · exact absurd h' (lt_irrefl _)
    · have h1 : 0x7F800000 ≤ l := Nat.succ_le_of_lt h
      split_ifs
      · exact h1
      · exact h1
      · exact Nat.le_succ_of_le h1

/-- A value in the place that rounding gives, with this sign bit, is the exact value rounded. -/
theorem roundedTo_of_key {r : F} {neg : Bool} {num : Int} {den : Nat} (hd : 0 < den) (hn : isNaN r = false)
    (hs : fNeg r = neg) (hk : fKey r = signedRound num den) : RoundedTo r neg num den := by
  refine ⟨hn, hs, ?_, fun hf => nearest_of_round r num den hd hf hk⟩
  have hmag : fMag r = roundUnits num.natAbs den := by
    unfold signedRound at hk; rw [fKey_eq] at hk; split_ifs at hk <;> omega
  rw [isFinite_iff, hmag, roundUnits_lt_inf_iff _ _ hd, Int.natCast_natAbs]

/-- The sign bit of a sum: an exact zero of opposite signs is +0.0. -/
theorem addUnits_neg (na : Bool) (ua : Nat) (nb : Bool) (ub : Nat) :
    fNeg (addUnits na ua nb ub) =
      sumNeg na nb ((if na then -(ua : Int) else ua) + (if nb then -(ub : Int) else ub)) := by
  unfold addUnits sumNeg
  have hz : fNeg fZero = false := by decide
  split_ifs <;> simp_all [fNeg_fPack _ _ (round_lt _ _)] <;> omega

theorem addSigned_neg (op : FOp) (a b : F) (nb : Bool) (ha : isFinite a = true) (hb : isFinite b = true) :
    fNeg (addSigned op a b nb) =
      sumNeg (fNeg a) nb (valueUnits a + (if nb then -(fUnits b : Int) else fUnits b)) := by
  unfold addSigned
  rw [if_neg (by simp [not_nan_of_finite ha, not_nan_of_finite hb]), if_neg (by simp [not_inf_of_finite ha]),
    if_neg (by simp [not_inf_of_finite hb])]
  exact addUnits_neg _ _ _ _

/-! ## The primitives -/

/-- What `clamp` does to a value and bounds that are no NaN and in order: it lies between the bounds, and is the value if
that does. -/
theorem fClamp_spec {v lo hi : F} (hv : isNaN v = false) (h : fLe lo hi = true) :
    fLe lo (fClamp v lo hi) = true ∧ fLe (fClamp v lo hi) hi = true ∧
      (fLe lo v = true → fLe v hi = true → fClamp v lo hi = v) := by
  obtain ⟨hlo, hhi, hle⟩ := fLe_ordered h
  unfold fClamp
  rw [if_neg (by simp [hv, hlo, hhi])]
  by_cases h1 : fLt v lo = true
  · rw [if_pos h1]
    refine ⟨fLe_refl hlo, h, fun h2 _ => ?_⟩
    have a := (fLt_ordered h1).2.2
    have b := (fLe_ordered h2).2.2
    omega
  · rw [if_neg h1]
    have hlv := fLe_of_not_fLt hv hlo (by simpa using h1)
    by_cases h2 : fLt hi v = true
    · rw [if_pos h2]
      refine ⟨h, fLe_refl hhi, fun _ h3 => ?_⟩
      have a := (fLt_ordered h2).2.2
      have b := (fLe_ordered h3).2.2
      omega
    · rw [if_neg h2]
      exact ⟨hlv, fLe_of_not_fLt hhi hv (by simpa using h2), fun _ _ => rfl⟩

/-- What `min` does to values that are no NaN. -/
theorem fMin_spec {a b : F} (ha : isNaN a = false) (hb : isNaN b = false) :
    fLe (fMin a b) a = true ∧ fLe (fMin a b) b = true ∧ (fMin a b = a ∨ fMin a b = b) := by
  unfold fMin
  rw [if_neg (by simp [ha, hb])]
  by_cases h : fLe a b = true
  · rw [if_pos h]; exact ⟨fLe_refl ha, h, .inl rfl⟩
  · rw [if_neg h]
    exact ⟨fLe_of_fLt (fLt_of_not_fLe ha hb (by simpa using h)), fLe_refl hb, .inr rfl⟩

/-- A value of at least 0.0 is its magnitude. -/
theorem valueUnits_nonneg {v : F} (h : fLe fZero v = true) : valueUnits v = (fUnits v : Int) := by
  have hk := (fKey_le_iff _ _).1 (fLe_ordered h).2.2
  have hz : valueUnits fZero = 0 := by decide
  rw [hz] at hk
  unfold valueUnits at hk ⊢
  split_ifs at hk ⊢ <;> omega

/-- `floorN` is the greatest natural at most its operand. -/
theorem floorN_spec {v : F} (hv : isFinite v = true) (h0 : fLe fZero v = true) :
    (floorN v : Int) * 2 ^ 149 ≤ valueUnits v ∧ valueUnits v < ((floorN v : Int) + 1) * 2 ^ 149 := by
  unfold floorN
  rw [hv, h0, Bool.and_true, if_pos rfl, valueUnits_nonneg h0]
  norm_cast
  have hp : 0 < 2 ^ 149 := by positivity
  exact ⟨Nat.div_mul_le_self _ _, by rw [← Nat.div_lt_iff_lt_mul hp]; omega⟩

/-- Every number of units with a 24-bit significand is the value of a magnitude. -/
theorem magUnits_repr (e q : Nat) (hq : q < 2 ^ 24) : ∃ m, magUnits m = q * 2 ^ e := by
  induction e generalizing q with
  | zero => exact ⟨0 * 2 ^ 23 + q, magUnits_step 0 q (by omega) (.inl rfl)⟩
  | succ e ih =>
    rcases Nat.lt_or_ge q (2 ^ 23) with h | h
    · obtain ⟨m, hm⟩ := ih (2 * q) (by omega)
      exact ⟨m, by rw [hm, Nat.pow_succ]; ring⟩
    · exact ⟨_, magUnits_step (e + 1) q (by omega) (.inr h)⟩

/-- The remainder of the values of two magnitudes is the value of a smaller magnitude than the divisor. -/
theorem magUnits_mod (m k : Nat) (hk : 0 < k) : ∃ r, r < k ∧ magUnits r = magUnits m % magUnits k := by
  have hk0 : 0 < magUnits k := Nat.pos_of_ne_zero fun h => by rw [magUnits_eq_zero] at h; omega
  suffices h : ∃ r, magUnits r = magUnits m % magUnits k by
    obtain ⟨r, hr⟩ := h
    exact ⟨r, magUnits_strictMono.lt_iff_lt.1 (hr ▸ Nat.mod_lt _ hk0), hr⟩
  obtain ⟨e, q, hm, hq, h⟩ := mag_step m
  obtain ⟨e', q', hk', hq', h'⟩ := mag_step k
  rcases Nat.lt_or_ge e e' with he | he
  · refine ⟨m, (Nat.mod_eq_of_lt ?_).symm⟩
    rw [hm, hk', magUnits_step e q (by omega) h, magUnits_step e' q' (by omega) h']
    obtain ⟨d, rfl⟩ := Nat.exists_eq_add_of_lt he
    rw [show e + d + 1 = e + (d + 1) by omega, pow_add, pow_succ]
    have h1 : 0 < 2 ^ e := by positivity
    have h2 : 1 ≤ 2 ^ d := Nat.one_le_two_pow
    have h3 : q < q' * 2 := by omega
    calc q * 2 ^ e < q' * 2 * 2 ^ e := Nat.mul_lt_mul_of_pos_right h3 h1
      _ ≤ q' * (2 ^ e * (2 ^ d * 2)) := by nlinarith [Nat.zero_le (q' * 2 ^ e)]
  · rw [hm, hk', magUnits_step e q (by omega) h, magUnits_step e' q' (by omega) h']
    obtain ⟨d, rfl⟩ := Nat.exists_eq_add_of_le he
    have hq0 : 0 < q' := by
      rcases Nat.eq_zero_or_pos q' with h0 | h0
      · rw [hk', magUnits_step e' q' (by omega) h', h0] at hk0; omega
      · exact h0
    obtain ⟨r, hr⟩ := magUnits_repr e' (q * 2 ^ d % q') (lt_trans (Nat.mod_lt _ hq0) hq')
    refine ⟨r, ?_⟩
    rw [hr, pow_add, show q * (2 ^ e' * 2 ^ d) = q * 2 ^ d * 2 ^ e' by ring, Nat.mul_mod_mul_right]

/-- `fmodF` is exact: `a − b × trunc(a/b)`, in [0, b). -/
theorem fMod_spec {a b : F} (ha : isFinite a = true) (hb : isFinite b = true) (ha0 : fLe fZero a = true)
    (hb0 : fLt fZero b = true) :
    isFinite (fMod a b) = true ∧
      valueUnits (fMod a b) = valueUnits a - valueUnits b * (valueUnits a / valueUnits b) ∧
        fLe fZero (fMod a b) = true ∧ fLt (fMod a b) b = true := by
  have hva := valueUnits_nonneg ha0
  have hvb := valueUnits_nonneg (fLe_of_fLt hb0)
  have hka := (isFinite_iff a).1 ha
  have hkb := (isFinite_iff b).1 hb
  have hz : fKey fZero = 0 := by decide
  have hk0 := (fLt_ordered hb0).2.2
  have hka0 := (fLe_ordered ha0).2.2
  rw [hz] at hk0 hka0
  have hb1 : 0 < fMag b := by rw [fKey_eq] at hk0; split_ifs at hk0 <;> omega
  have hbn : fKey b = (fMag b : Int) := by rw [fKey_eq] at hk0 ⊢; split_ifs at hk0 ⊢ <;> omega
  obtain ⟨r, hr1, hr2⟩ := magUnits_mod (fMag a) (fMag b) hb1
  have hround := roundUnits_exact r 1 (by omega) (by omega)
  have hmod : fMod a b = fPack (fNeg a) r := by
    unfold fMod
    rw [ha, hb, ha0, hb0]
    simp only [Bool.and_self, if_true]
    rw [fUnits_eq, fUnits_eq, ← hr2]
    rw [Nat.mul_one] at hround
    rw [hround]
  have hr31 : r < 2 ^ 31 := by omega
  have hm := fMag_fPack (fNeg a) r hr31
  have hs := fNeg_fPack (fNeg a) r hr31
  have hkey := fKey_fPack (fNeg a) r hr31
  have hfin : isFinite (fPack (fNeg a) r) = true := by rw [isFinite_iff, hm]; omega
  have hr0 : fNeg a = true → r = 0 := by
    intro hn
    rw [fKey_eq, if_pos hn] at hka0
    have ha0' : fMag a = 0 := by omega
    rw [ha0', magUnits_zero, Nat.zero_mod, magUnits_eq_zero] at hr2
    exact hr2
  have hkr : fKey (fPack (fNeg a) r) = (r : Int) := by
    rw [hkey]; split_ifs with h
    · rw [hr0 h]; rfl
    · rfl
  rw [hmod]
  refine ⟨hfin, ?_, (fLe_iff (by decide) (not_nan_of_finite hfin)).2 (by rw [hz, hkr]; omega),
    (fLt_iff (not_nan_of_finite hfin) (not_nan_of_finite hb)).2 (by rw [hkr, hbn]; omega)⟩
  have hv : valueUnits (fPack (fNeg a) r) = (magUnits r : Int) := by
    rw [valueUnits_eq, hm, hs]; split_ifs with h
    · rw [hr0 h]; rfl
    · rfl
  rw [hv, hva, hvb, fUnits_eq, fUnits_eq, hr2, ← Int.emod_def]; norm_cast

/-- A result of `fmodF` by a positive divisor lies in [0, b), open results included. -/
theorem fMod_range (a : F) {b : F} (hb : fLt fZero b = true) : fLe fZero (fMod a b) = true ∧ fLt (fMod a b) b = true := by
  by_cases h : (isFinite a && isFinite b && fLe fZero a && fLt fZero b) = true
  · simp only [Bool.and_eq_true] at h
    exact (fMod_spec h.1.1.1 h.1.1.2 h.1.2 h.2).2.2
  · unfold fMod
    rw [if_neg h, hb]
    simp only [Bool.true_and]
    split_ifs with h1
    · exact ⟨by decide, hb⟩
    · simpa using h1

/-! ## How results grow with operands -/

/-- The magnitude of a product is the product of the magnitudes, rounded. -/
theorem fMag_fMul (a b : F) (ha : isFinite a = true) (hb : isFinite b = true) :
    fMag (fMul a b) = roundUnits (fUnits a * fUnits b) (2 ^ 149) := by
  unfold fMul
  rw [if_neg (by simp [not_nan_of_finite ha, not_nan_of_finite hb]), if_neg (by simp [not_inf_of_finite ha, not_inf_of_finite hb])]
  exact fMag_fPack _ _ (round_lt _ _)

/-- A product grows with the magnitudes of its factors. -/
theorem fMag_fMul_mono {a b c d : F} (ha : isFinite a = true) (hb : isFinite b = true) (hc : isFinite c = true)
    (hd : isFinite d = true) (h1 : fMag a ≤ fMag c) (h2 : fMag b ≤ fMag d) : fMag (fMul a b) ≤ fMag (fMul c d) := by
  rw [fMag_fMul a b ha hb, fMag_fMul c d hc hd]
  have hm := Nat.mul_le_mul (magUnits_strictMono.monotone h1) (magUnits_strictMono.monotone h2)
  rw [← fUnits_eq, ← fUnits_eq, ← fUnits_eq, ← fUnits_eq] at hm
  exact roundUnits_mono _ _ _ _ (by positivity) (by positivity) (Nat.mul_le_mul_right _ hm)

/-- Scaling by at most 1.0 enlarges no magnitude. -/
theorem fMag_fMul_le {a b : F} (ha : isFinite a = true) (hb : isFinite b = true) (h : fMag a ≤ fMag fOne) :
    fMag (fMul a b) ≤ fMag b := by
  refine (fMag_fMul_mono ha hb (by decide) hb h le_rfl).trans ?_
  rw [fMag_fMul fOne b (by decide) hb, show fUnits fOne = 2 ^ 149 by decide]
  have hr := roundUnits_exact (fMag b) (2 ^ 149) (by positivity) ((isFinite_iff b).1 hb).le
  rw [← fUnits_eq, Nat.mul_comm] at hr
  exact hr.le

/-- A sum grows with its terms. -/
theorem fAdd_key_le {a b c d : F} (ha : isFinite a = true) (hb : isFinite b = true) (hc : isFinite c = true)
    (hd : isFinite d = true) (h1 : fKey a ≤ fKey c) (h2 : fKey b ≤ fKey d) : fKey (fAdd a b) ≤ fKey (fAdd c d) := by
  rw [(fAdd_spec a b ha hb).2, (fAdd_spec c d hc hd).2]
  refine signedRound_mono _ _ _ (by omega) ?_
  have := (fKey_le_iff _ _).1 h1
  have := (fKey_le_iff _ _).1 h2
  omega

/-- A difference grows with its first term and shrinks with its second. -/
theorem fSub_key_le {a b c d : F} (ha : isFinite a = true) (hb : isFinite b = true) (hc : isFinite c = true)
    (hd : isFinite d = true) (h1 : fKey a ≤ fKey c) (h2 : fKey d ≤ fKey b) : fKey (fSub a b) ≤ fKey (fSub c d) := by
  rw [(fSub_spec a b ha hb).2, (fSub_spec c d hc hd).2]
  refine signedRound_mono _ _ _ (by omega) ?_
  have := (fKey_le_iff _ _).1 h1
  have := (fKey_le_iff _ _).1 h2
  omega

/-- A half grows with its operand. -/
theorem fHalf_key_le {a b : F} (ha : isFinite a = true) (hb : isFinite b = true) (h : fKey a ≤ fKey b) :
    fKey (fDiv a fTwo) ≤ fKey (fDiv b fTwo) := by
  have h2f : isFinite fTwo = true := by decide
  have hu2 : fUnits fTwo ≠ 0 := by decide
  have hn : fNeg fTwo = false := by decide
  rw [(fDiv_spec a _ ha h2f hu2).2, (fDiv_spec b _ hb h2f hu2).2, hn]
  simp only [Bool.false_eq_true, if_false]
  exact signedRound_mono _ _ _ (by omega) (mul_le_mul_of_nonneg_right ((fKey_le_iff _ _).1 h) (by positivity))

/-- A place within `m` of zero is that of a magnitude of at most `m`. -/
theorem fMag_le_of_key {v : F} {m : Nat} (h1 : -(m : Int) ≤ fKey v) (h2 : fKey v ≤ m) : fMag v ≤ m := by
  rw [fKey_eq] at h1 h2; split_ifs at h1 h2 <;> omega

/-- A place is at most its magnitude away from zero. -/
theorem fKey_bound (v : F) : -(fMag v : Int) ≤ fKey v ∧ fKey v ≤ fMag v := by
  rw [fKey_eq]; split_ifs <;> omega

/-- A magnitude at most that of a finite value is finite. -/
theorem finite_of_mag {v w : F} (h : fMag v ≤ fMag w) (hw : isFinite w = true) : isFinite v = true := by
  rw [isFinite_iff] at *; omega

/-- Half of a finite value is finite. -/
theorem isFinite_half {a : F} (ha : isFinite a = true) : isFinite (fDiv a fTwo) = true := by
  have h2 : isFinite fTwo = true := by decide
  have hm : fMag (fDiv a fTwo) = roundUnits (fUnits a * 2 ^ 149) (fUnits fTwo) := by
    unfold fDiv
    rw [if_neg (by simp [not_nan_of_finite ha, not_nan_of_finite h2]), if_neg (by simp [not_inf_of_finite ha]),
      if_neg (by decide), if_neg (by decide)]
    exact fMag_fPack _ _ (round_lt _ _)
  rw [isFinite_iff, hm]
  have hr := roundUnits_exact (fMag a) 1 (by omega) ((isFinite_iff a).1 ha).le
  refine lt_of_le_of_lt (roundUnits_mono _ _ _ _ (by decide) (by omega) ?_) (hr.trans_lt ((isFinite_iff a).1 ha))
  rw [← fUnits_eq, Nat.mul_one, show fUnits fTwo = 2 ^ 150 by decide, Nat.mul_one]
  exact Nat.mul_le_mul_left _ (by decide)

/-- A product of values of at least 0.0 is at least 0.0. -/
theorem fMul_key_nonneg {a b : F} (ha : isFinite a = true) (hb : isFinite b = true) (h1 : 0 ≤ valueUnits a)
    (h2 : 0 ≤ valueUnits b) : 0 ≤ fKey (fMul a b) := by
  have h0 : signedRound 0 (2 ^ 149) = 0 := by unfold signedRound; simp [roundUnits_zero]
  rw [(fMul_spec a b ha hb).2, ← h0]
  exact signedRound_mono _ _ _ (by positivity) (mul_nonneg h1 h2)

end Sys2Proof.Machine
end

