-- ==== Sys2Proof/Laws/Legal.lean ====
section
/-! SUPPORT. Ranges: what a legal configuration (00_scope.md R7) gives for the Nyquist limit and the swept cutoff, and where
the phases stay. -/

namespace Sys2Proof.Machine

/-- `inRange` in three parts. -/
theorem inRange_iff {lo hi v : F} : inRange lo hi v = true ↔ isFinite v = true ∧ fLe lo v = true ∧ fLe v hi = true := by
  unfold inRange; simp only [Bool.and_eq_true, and_assoc]

/-- The constraints of R7 on the sample rate, the cutoff range and NYQ_EPS. -/
theorem configLegal_filter {c : Config} (h : configLegal c = true) :
    isFinite c.fsMin = true ∧ isFinite c.fsMax = true ∧ fLt fZero c.fsMin = true ∧ fLe c.fsMin c.fsMax = true ∧
      isFinite c.filterMinCutoff = true ∧ isFinite c.filterMaxCutoff = true ∧
        fLe c.filterMinCutoff c.filterMaxCutoff = true ∧ fLe (fMul c.fsMax fTwoPowMinus20) c.filterMinCutoff = true ∧
          isFinite c.nyqEps = true ∧ fLt c.filterMinCutoff (fSub (fDiv c.fsMin fTwo) c.nyqEps) = true := by
  unfold configLegal rangesLegal positiveRange at h
  simp only [Bool.and_eq_true] at h
  tauto

/-- Every entry of LFO_ROM, and the default beyond its end, lies in [−1.0, 1.0]. -/
theorem configLegal_lfo {c : Config} (h : configLegal c = true) (k : Nat) :
    inRange fMinusOne fOne (c.lfoRom.getD k fZero) = true := by
  unfold configLegal wavesLegal at h
  simp only [Bool.and_eq_true, List.all_eq_true] at h
  rcases Nat.lt_or_ge k c.lfoRom.length with hk | hk
  · rw [List.getD_eq_getElem _ _ hk]; exact h.1.2.1.1.1.2 _ (List.getElem_mem hk)
  · rw [List.getD_eq_default _ _ hk]; decide

/-- FILTER_MIN_CUTOFF is at least 0.0, being at least FS_MAX × 2^−20. -/
theorem filterMin_nonneg {c : Config} (h : configLegal c = true) : 0 ≤ fKey c.filterMinCutoff := by
  obtain ⟨-, hf, h1, h2, -, -, -, h6, -⟩ := configLegal_filter h
  refine le_trans (fMul_key_nonneg hf (by decide) ?_ (by decide)) (fLe_ordered h6).2.2
  rw [valueUnits_nonneg (fLe_trans (fLe_of_fLt h1) h2)]; exact Int.natCast_nonneg _

/-- For a legal sample rate NYQ_LIMIT lies in [FILTER_MIN_CUTOFF, FILTER_MAX_CUTOFF], at most (FS / 2.0) − NYQ_EPS. -/
theorem nyqLimit_spec {c : Config} {fs : F} (h : configLegal c = true) (h1 : fLe c.fsMin fs = true)
    (h2 : fLe fs c.fsMax = true) :
    fLe c.filterMinCutoff (rateRegsOf c fs).nyqLimit = true ∧
      fLe (rateRegsOf c fs).nyqLimit c.filterMaxCutoff = true ∧
        fLe (rateRegsOf c fs).nyqLimit (fSub (fDiv fs fTwo) c.nyqEps) = true := by
  obtain ⟨hf1, hf2, hpos, -, m1, m2, m3, -, e1, e2⟩ := configLegal_filter h
  have hfs := isFinite_between hf1 hf2 h1 h2
  have hs := fSub_spec (fDiv fs fTwo) c.nyqEps (isFinite_half hfs) e1
  have hle : fLe (fSub (fDiv c.fsMin fTwo) c.nyqEps) (fSub (fDiv fs fTwo) c.nyqEps) = true := by
    rw [fLe_iff (fSub_spec _ _ (isFinite_half hf1) e1).1 hs.1]
    exact fSub_key_le (isFinite_half hf1) e1 (isFinite_half hfs) e1 (fHalf_key_le hf1 hfs (fLe_ordered h1).2.2) le_rfl
  have hm := fMin_spec (not_nan_of_finite m2) hs.1
  show fLe _ (fMin _ _) = true ∧ fLe (fMin _ _) _ = true ∧ fLe (fMin _ _) _ = true
  refine ⟨?_, hm.1, hm.2.1⟩
  rcases hm.2.2 with h | h
  · rw [h]; exact m3
  · rw [h]; exact fLe_trans (fLe_of_fLt e2) hle

/-- The unipolar LFO value of R289 has a magnitude of at most 1.0. -/
theorem lfo_unipolar {v : F} (h : inRange fMinusOne fOne v = true) :
    isFinite (fMul (fAdd v fOne) fHalf) = true ∧ fMag (fMul (fAdd v fOne) fHalf) ≤ fMag fOne := by
  obtain ⟨hf, h1, h2⟩ := inRange_iff.1 h
  have a1 := fAdd_key_le (a := fMinusOne) (b := fOne) (c := v) (d := fOne) (by decide) (by decide) hf (by decide)
    (fLe_ordered h1).2.2 le_rfl
  have a2 := fAdd_key_le (a := v) (b := fOne) (c := fOne) (d := fOne) hf (by decide) (by decide) (by decide)
    (fLe_ordered h2).2.2 le_rfl
  have k1 : fKey (fAdd fMinusOne fOne) = 0 := by decide +kernel
  have k2 : fKey (fAdd fOne fOne) = fMag fTwo := by decide +kernel
  rw [k1] at a1; rw [k2] at a2
  have hm : fMag (fAdd v fOne) ≤ fMag fTwo := fMag_le_of_key (by omega) a2
  have hs : isFinite (fAdd v fOne) = true := finite_of_mag hm (by decide)
  have hu := fMag_fMul_mono (b := fHalf) (d := fHalf) hs (by decide) (by decide : isFinite fTwo = true) (by decide) hm le_rfl
  have e : fMag (fMul fTwo fHalf) = fMag fOne := by decide +kernel
  rw [e] at hu
  exact ⟨finite_of_mag hu (by decide), hu⟩

/-- The default sweep law (R294) on such a value, a legal depth and a finite range from 0.0 up gives no NaN. -/
theorem linear_not_nan {u d lo hi : F} (hu : isFinite u = true) (hu1 : fMag u ≤ fMag fOne) (hd : inRange fZero fOne d = true)
    (hlo : isFinite lo = true) (hhi : isFinite hi = true) (l0 : 0 ≤ fKey lo) (h0 : 0 ≤ fKey hi) :
    isNaN (fAdd lo (fMul (fMul u d) (fSub hi lo))) = false := by
  obtain ⟨hdf, d1, d2⟩ := inRange_iff.1 hd
  have k0 : fKey fZero = 0 := by decide
  have k1 : fKey fOne = fMag fOne := by decide
  have d1 := (fLe_ordered d1).2.2
  have d2 := (fLe_ordered d2).2.2
  rw [k0] at d1; rw [k1] at d2
  have hdm : fMag d ≤ fMag fOne := fMag_le_of_key (by omega) d2
  have hud := (fMag_fMul_le hu hdf hu1).trans hdm
  have hudf : isFinite (fMul u d) = true := finite_of_mag hud (by decide)
  have s1 := fSub_key_le hhi hlo hhi (by decide : isFinite fZero = true) le_rfl (by omega)
  have s2 := fSub_key_le (by decide : isFinite fZero = true) hlo hhi hlo (by omega) le_rfl
  rw [(fSub_spec hi fZero hhi (by decide)).2, show valueUnits fZero = 0 by decide, sub_zero, signedRound_value hi hhi] at s1
  have hneg : fKey (fSub fZero lo) = - fKey lo := by
    rw [(fSub_spec fZero lo (by decide) hlo).2, show valueUnits fZero = 0 by decide, zero_sub]
    rw [← signedRound_value lo hlo]
    unfold signedRound
    split_ifs <;> first | omega | (simp; try (have : valueUnits lo = 0 := by omega); simp_all [roundUnits_zero])
  rw [hneg] at s2
  have b1 := fKey_bound hi
  have b2 := fKey_bound lo
  have hsf : isFinite (fSub hi lo) = true := by
    rw [isFinite_iff] at hhi hlo ⊢
    exact lt_of_le_of_lt (fMag_le_of_key (m := max (fMag hi) (fMag lo)) (by omega) (by omega)) (by omega)
  have hp := finite_of_mag (fMag_fMul_le hudf hsf hud) hsf
  exact (fAdd_spec _ _ hlo hp).1

/-- The swept cutoff lies in [FILTER_MIN_CUTOFF, NYQ_LIMIT], with either sweep law (R289). -/
theorem sweptCutoff_spec {s : State} (h : configLegal s.cfg = true) (hl : LawsLegal s.cfg)
    (h1 : fLe s.cfg.filterMinCutoff s.rate.nyqLimit = true) (h2 : isFinite s.rate.nyqLimit = true)
    (hd : inRange fZero fOne s.lfo.depth = true) (k : Nat) :
    fLe s.cfg.filterMinCutoff (sweptCutoff s (s.cfg.lfoRom.getD k fZero)) = true ∧
      fLe (sweptCutoff s (s.cfg.lfoRom.getD k fZero)) s.rate.nyqLimit = true := by
  suffices hn : isNaN (lfoSweep s.cfg (fMul (fAdd (s.cfg.lfoRom.getD k fZero) fOne) fHalf) s.lfo.depth s.cfg.filterMinCutoff
      (fMul s.rate.nyqLimit fHalf)) = false by
    have := fClamp_spec hn h1
    exact ⟨this.1, this.2.1⟩
  unfold lfoSweep
  cases hc : s.cfg.lfoSweep with
  | custom => exact not_nan_of_finite (hl.2 hc _ _ _ _)
  | linear =>
    have hu := lfo_unipolar (configLegal_lfo h k)
    have hmin := filterMin_nonneg h
    have hf := configLegal_filter h
    have hk := (fLe_ordered h1).2.2
    have hmg : fMag (fMul s.rate.nyqLimit fHalf) ≤ fMag s.rate.nyqLimit := by
      rw [fMag_fMul _ _ h2 (by decide), Nat.mul_comm, ← fMag_fMul _ _ (by decide) h2]
      exact fMag_fMul_le (by decide) h2 (by decide)
    refine linear_not_nan hu.1 hu.2 hd hf.2.2.2.2.1 (finite_of_mag hmg h2) hmin ?_
    refine fMul_key_nonneg h2 (by decide) ?_ (by decide)
    rw [← show valueUnits fZero = 0 by decide]
    exact (fKey_le_iff _ _).1 (by rw [show fKey fZero = 0 by decide]; omega)

/-! ## Phases (42_oscillator.md R193, 46_ring_modulator.md R265) -/

/-- The oscillator's advance leaves the phase in [0.0, 1.0), whatever the frequency. -/
theorem oscAdvance_phase (fs bend : F) (v : Voice) :
    fLe fZero (oscAdvance fs bend v).phase = true ∧ fLt (oscAdvance fs bend v).phase fOne = true :=
  fMod_range _ (by decide)

/-- Ring modulation keeps RM_PHASE in [0.0, TWO_PI_F). -/
theorem rmApply_phase (nc n : Nat) (s : State) (h : fLe fZero s.rm.phase = true ∧ fLt s.rm.phase fTwoPi = true) :
    fLe fZero (rmApply nc n s).rm.phase = true ∧ fLt (rmApply nc n s).rm.phase fTwoPi = true := by
  unfold rmApply
  split
  · exact h
  · exact forUpTo_keep (fun t : State => fLe fZero t.rm.phase = true ∧ fLt t.rm.phase fTwoPi = true) _ _ _ h
      fun i t _ _ => fMod_range _ (by decide)

end Sys2Proof.Machine
end

