-- ==== Sys2Proof/Laws/PerInstr.lean ====
section
/-! SUPPORT. Laws proved instruction by instruction. -/

namespace Sys2Proof.Laws.EncodesOpcode

/-- The encoded word of a command carries its OP byte in bits 7:0 and its fields where the decoder reads them (R91, R95). -/
def Statement (i : Instr) : Prop := (encode i).extractLsb' 0 8 = i.opcode.code ∧ fieldsOfWord (encode i) = i.fields

theorem nop (f : Fields) : Statement (.nop f) := ⟨opcode_encode _, fields_encode _⟩
theorem init (f : Fields) : Statement (.init f) := ⟨opcode_encode _, fields_encode _⟩
theorem stopAll (f : Fields) : Statement (.stopAll f) := ⟨opcode_encode _, fields_encode _⟩
theorem clearStatus (f : Fields) : Statement (.clearStatus f) := ⟨opcode_encode _, fields_encode _⟩
theorem get (f : Fields) : Statement (.get f) := ⟨opcode_encode _, fields_encode _⟩
theorem setAttack (f : Fields) : Statement (.setAttack f) := ⟨opcode_encode _, fields_encode _⟩
theorem setDecay (f : Fields) : Statement (.setDecay f) := ⟨opcode_encode _, fields_encode _⟩
theorem setSustain (f : Fields) : Statement (.setSustain f) := ⟨opcode_encode _, fields_encode _⟩
theorem setRelease (f : Fields) : Statement (.setRelease f) := ⟨opcode_encode _, fields_encode _⟩
theorem setPitchBend (f : Fields) : Statement (.setPitchBend f) := ⟨opcode_encode _, fields_encode _⟩
theorem setGlide (f : Fields) : Statement (.setGlide f) := ⟨opcode_encode _, fields_encode _⟩
theorem voiceStart (f : Fields) : Statement (.voiceStart f) := ⟨opcode_encode _, fields_encode _⟩
theorem voiceRelease (f : Fields) : Statement (.voiceRelease f) := ⟨opcode_encode _, fields_encode _⟩
theorem voiceKill (f : Fields) : Statement (.voiceKill f) := ⟨opcode_encode _, fields_encode _⟩
theorem voiceSetFreq (f : Fields) : Statement (.voiceSetFreq f) := ⟨opcode_encode _, fields_encode _⟩
theorem voiceSetVolume (f : Fields) : Statement (.voiceSetVolume f) := ⟨opcode_encode _, fields_encode _⟩
theorem voiceSetMute (f : Fields) : Statement (.voiceSetMute f) := ⟨opcode_encode _, fields_encode _⟩
theorem voiceGlide (f : Fields) : Statement (.voiceGlide f) := ⟨opcode_encode _, fields_encode _⟩
theorem setRmRate (f : Fields) : Statement (.setRmRate f) := ⟨opcode_encode _, fields_encode _⟩
theorem rmBlock (f : Fields) : Statement (.rmBlock f) := ⟨opcode_encode _, fields_encode _⟩
theorem setCutoff (f : Fields) : Statement (.setCutoff f) := ⟨opcode_encode _, fields_encode _⟩
theorem setResonance (f : Fields) : Statement (.setResonance f) := ⟨opcode_encode _, fields_encode _⟩
theorem setLfoEnable (f : Fields) : Statement (.setLfoEnable f) := ⟨opcode_encode _, fields_encode _⟩
theorem filtBlock (f : Fields) : Statement (.filtBlock f) := ⟨opcode_encode _, fields_encode _⟩
theorem setLfoRate (f : Fields) : Statement (.setLfoRate f) := ⟨opcode_encode _, fields_encode _⟩
theorem setLfoDepth (f : Fields) : Statement (.setLfoDepth f) := ⟨opcode_encode _, fields_encode _⟩
theorem lfoPeek (f : Fields) : Statement (.lfoPeek f) := ⟨opcode_encode _, fields_encode _⟩
theorem synthBlock (f : Fields) : Statement (.synthBlock f) := ⟨opcode_encode _, fields_encode _⟩

end Sys2Proof.Laws.EncodesOpcode
end

