-- ==== Sys2Proof/Tests/Slice0.lean ====
section
/-! SUPPORT. The model's own tests: smoke tests of well-formedness, one decoding per command, at most two one-step tests
per command with the values of 95_test_vectors.md, and a witness for the hypotheses of every statement that has some. -/

namespace Sys2Proof.Tests

set_option Elab.async false

open Sys2Proof.Machine

/-! ## Helpers -/

/-- Operand fields with RSV = 0. -/
def fields (slot : BitVec 8) (arg : BitVec 32) : Fields := { slot := slot, rsv := 0, arg := arg }

/-- The state of an outcome, if it is one. -/
def next? : Host.Outcome State Fault Refusal → Option State
  | .next t => some t
  | .fault _ => none
  | .refused _ => none

/-- What `f` reads of the next state of an outcome, if there is one. -/
def after {α : Type} (o : Host.Outcome State Fault Refusal) (f : State → α) : Option α := (next? o).map f

theorem next_of_isSome {o : Host.Outcome State Fault Refusal} (h : (next? o).isSome = true) : ∃ t, o = .next t := by
  cases o with
  | next t => exact ⟨t, rfl⟩
  | fault r => cases r
  | refused r => cases h

/-- TC1 after `INIT 1024.0` from power-on. -/
def booted : State := initState 0x44800000 State.reset

/-- `booted` with slot 0 holding this voice. -/
def playing (v : Voice) : State :=
  { booted with voices := [v, initVoice, initVoice, initVoice], regList := [0] }

/-- The voice of vector V1: 128 Hz, ATTACK = DECAY = 2^-8, SUSTAIN = 0.5. -/
def v1 : Voice :=
  { initVoice with
    state := .attack, decayEn := true, freq := 0x43000000, baseFreq := 0x43000000, glideTarget := 0x43000000
    sustain := 0x3F000000, attackInc := 0x3E800000, decayInc := 0x3E000000 }

/-- A voice at 128 Hz with the envelope at 1.0, as VOICE_START leaves it after INIT. -/
def steady : Voice :=
  { initVoice with
    state := .sustain, freq := 0x43000000, baseFreq := 0x43000000, glideTarget := 0x43000000, sustain := 0x3F800000
    attackInc := 0x3F800000, currentValue := 0x3F800000 }

/-! ## Decoding (95_test_vectors.md section 3): every command -/

/-- `NOP` -/
theorem test_decode_nop : decode 0x0000000000000000 = .ok (.nop (fields 0 0x00000000)) := by decide +kernel
/-- `INIT 1024.0` -/
theorem test_decode_init : decode 0x4480000000000001 = .ok (.init (fields 0 0x44800000)) := by decide +kernel
/-- `STOP_ALL` -/
theorem test_decode_stopAll : decode 0x0000000000000002 = .ok (.stopAll (fields 0 0x00000000)) := by decide +kernel
/-- `CLEAR_STATUS 0x3F` -/
theorem test_decode_clearStatus :
    decode 0x0000003F00000003 = .ok (.clearStatus (fields 0 0x0000003F)) := by decide +kernel
/-- `GET V_FREQ, v3` -/
theorem test_decode_get : decode 0x0000002100000304 = .ok (.get (fields 3 0x00000021)) := by decide +kernel
/-- `SET_ATTACK 0.00390625` -/
theorem test_decode_setAttack :
    decode 0x3B80000000000010 = .ok (.setAttack (fields 0 0x3B800000)) := by decide +kernel
/-- `SET_DECAY 0.1` -/
theorem test_decode_setDecay : decode 0x3DCCCCCD00000011 = .ok (.setDecay (fields 0 0x3DCCCCCD)) := by decide +kernel
/-- `SET_SUSTAIN 0.5` -/
theorem test_decode_setSustain :
    decode 0x3F00000000000012 = .ok (.setSustain (fields 0 0x3F000000)) := by decide +kernel
/-- `SET_RELEASE 0.0` -/
theorem test_decode_setRelease :
    decode 0x0000000000000013 = .ok (.setRelease (fields 0 0x00000000)) := by decide +kernel
/-- `SET_PITCH_BEND 2.0` -/
theorem test_decode_setPitchBend :
    decode 0x4000000000000014 = .ok (.setPitchBend (fields 0 0x40000000)) := by decide +kernel
/-- `SET_GLIDE 0.00390625` -/
theorem test_decode_setGlide : decode 0x3B80000000000015 = .ok (.setGlide (fields 0 0x3B800000)) := by decide +kernel
/-- `VOICE_START v0, 128.0` -/
theorem test_decode_voiceStart :
    decode 0x4300000000000020 = .ok (.voiceStart (fields 0 0x43000000)) := by decide +kernel
/-- `VOICE_RELEASE v0` -/
theorem test_decode_voiceRelease :
    decode 0x0000000000000021 = .ok (.voiceRelease (fields 0 0x00000000)) := by decide +kernel
/-- `VOICE_KILL v2` -/
theorem test_decode_voiceKill :
    decode 0x0000000000000222 = .ok (.voiceKill (fields 2 0x00000000)) := by decide +kernel
/-- `VOICE_SET_FREQ v0, 256.0` -/
theorem test_decode_voiceSetFreq :
    decode 0x4380000000000023 = .ok (.voiceSetFreq (fields 0 0x43800000)) := by decide +kernel
/-- `VOICE_SET_VOLUME v1, 0.5` -/
theorem test_decode_voiceSetVolume :
    decode 0x3F00000000000124 = .ok (.voiceSetVolume (fields 1 0x3F000000)) := by decide +kernel
/-- `VOICE_SET_MUTE v1, 1` -/
theorem test_decode_voiceSetMute :
    decode 0x0000000100000125 = .ok (.voiceSetMute (fields 1 0x00000001)) := by decide +kernel
/-- `VOICE_GLIDE v0, 128.0` -/
theorem test_decode_voiceGlide :
    decode 0x4300000000000026 = .ok (.voiceGlide (fields 0 0x43000000)) := by decide +kernel
/-- `SET_RM_RATE 0.75` -/
theorem test_decode_setRmRate :
    decode 0x3F40000000000030 = .ok (.setRmRate (fields 0 0x3F400000)) := by decide +kernel
/-- `RM_BLOCK nc=1, n=4` -/
theorem test_decode_rmBlock : decode 0x0000000400000131 = .ok (.rmBlock (fields 1 0x00000004)) := by decide +kernel
/-- `SET_CUTOFF 256.0` -/
theorem test_decode_setCutoff :
    decode 0x4380000000000038 = .ok (.setCutoff (fields 0 0x43800000)) := by decide +kernel
/-- `SET_RESONANCE 1.0` -/
theorem test_decode_setResonance :
    decode 0x3F80000000000039 = .ok (.setResonance (fields 0 0x3F800000)) := by decide +kernel
/-- `SET_LFO_ENABLE 1` -/
theorem test_decode_setLfoEnable :
    decode 0x000000010000003A = .ok (.setLfoEnable (fields 0 0x00000001)) := by decide +kernel
/-- `FILT_BLOCK nc=1, n=6` -/
theorem test_decode_filtBlock :
    decode 0x000000060000013B = .ok (.filtBlock (fields 1 0x00000006)) := by decide +kernel
/-- `SET_LFO_RATE 16.0` -/
theorem test_decode_setLfoRate :
    decode 0x4180000000000040 = .ok (.setLfoRate (fields 0 0x41800000)) := by decide +kernel
/-- `SET_LFO_DEPTH 0.5` -/
theorem test_decode_setLfoDepth :
    decode 0x3F00000000000041 = .ok (.setLfoDepth (fields 0 0x3F000000)) := by decide +kernel
/-- `LFO_PEEK` -/
theorem test_decode_lfoPeek : decode 0x0000000000000042 = .ok (.lfoPeek (fields 0 0x00000000)) := by decide +kernel
/-- `SYNTH_BLOCK nc=2, n=64` -/
theorem test_decode_synthBlock :
    decode 0x0000004000000250 = .ok (.synthBlock (fields 2 0x00000040)) := by decide +kernel

/-- The byte stream of `INIT 1024.0` (R102). -/
theorem test_decode_bytes :
    decodeBytes [0x01, 0x00, 0x00, 0x00, 0x00, 0x00, 0x80, 0x44] = .ok (.init (fields 0 0x44800000)) := by
  decide +kernel

theorem test_decode_reserved : decode 0x00000000000000FF = .error (.reservedOpcode 0xFF) := by decide +kernel

theorem test_decode_short : decodeBytes [0x01, 0x00] = .error .notOneCommand := by decide +kernel

theorem test_table_word : decodeTableWord 64 0x4300000000000020 = some (.voiceStart (fields 0 0x43000000)) := by
  decide +kernel

/-! ## Well-formedness: each check refuses (95_test_vectors.md section 3, corner cases) -/

theorem test_wf_rsv : wellFormed tc1 (.nop { slot := 0, rsv := 1, arg := 0 }) = false := by decide +kernel
theorem test_wf_z_slot : wellFormed tc1 (.lfoPeek (fields 2 0)) = false := by decide +kernel
theorem test_wf_gf_slot : wellFormed tc1 (.setAttack (fields 1 0x3F000000)) = false := by decide +kernel
theorem test_wf_gu_slot : wellFormed tc1 (.clearStatus (fields 1 0)) = false := by decide +kernel
theorem test_wf_v_slot : wellFormed tc1 (.voiceKill (fields 4 0)) = false := by decide +kernel
theorem test_wf_vf_slot : wellFormed tc1 (.voiceStart (fields 4 0)) = false := by decide +kernel
theorem test_wf_vu_slot : wellFormed tc1 (.voiceSetMute (fields 4 0)) = false := by decide +kernel
theorem test_wf_b_channels : wellFormed tc1 (.synthBlock (fields 3 1)) = false := by decide +kernel
theorem test_wf_b_size : wellFormed tc1 (.synthBlock (fields 1 65)) = false := by decide +kernel
theorem test_wf_b_maxima : wellFormed tc1 (.rmBlock (fields 2 64)) = true := by decide +kernel
theorem test_wf_q_selector : wellFormed tc1 (.get (fields 0 0x1E)) = false := by decide +kernel
theorem test_wf_q_gap : wellFormed tc1 (.get (fields 0 0x1F)) = false := by decide +kernel
theorem test_wf_q_end : wellFormed tc1 (.get (fields 0 0x32)) = false := by decide +kernel
theorem test_wf_q_high_bits : wellFormed tc1 (.get (fields 0 0x100)) = false := by decide +kernel
theorem test_wf_q_rm_prev : wellFormed tc1 (.get (fields 2 0x0B)) = false := by decide +kernel
theorem test_wf_q_rm_prev_last : wellFormed tc1 (.get (fields 1 0x0B)) = true := by decide +kernel
theorem test_wf_q_global_slot : wellFormed tc1 (.get (fields 1 0x1C)) = false := by decide +kernel
theorem test_wf_q_config : wellFormed tc1 (.get (fields 0 0x1D)) = true := by decide +kernel
theorem test_wf_q_channel : wellFormed tc1 (.get (fields 2 0x18)) = false := by decide +kernel
theorem test_wf_q_channel_last : wellFormed tc1 (.get (fields 1 0x1B)) = true := by decide +kernel
theorem test_wf_q_voice : wellFormed tc1 (.get (fields 4 0x20)) = false := by decide +kernel
theorem test_wf_q_voice_last : wellFormed tc1 (.get (fields 3 0x31)) = true := by decide +kernel
theorem test_wf_arg_ignored : wellFormed tc1 (.nop (fields 0 0x12345678)) = true := by decide +kernel

/-- TC1 meets every constraint of R7. -/
theorem test_config_tc1 : configLegal tc1 = true := by decide +kernel
theorem test_config_sizes : sizesLegal { tc1 with numVoices := 33 } = false := by decide +kernel
theorem test_config_waves : wavesLegal { tc1 with pulseHi := 0x40000000 } = false := by decide +kernel
theorem test_config_ranges : rangesLegal { tc1 with lfoRateMax := 0x447A0000 } = false := by decide +kernel
theorem test_in_range_nan : inRange fZero fOne 0x7FC00000 = false := by decide +kernel

/-! ## One step of each command -/

/-- ARG is ignored (R97). -/
theorem test_nop :
    next? (exec (.nop (fields 0 0x12345678)) State.reset) = some State.reset := by decide +kernel
/-- Section 4.1, second row. -/
theorem test_init_48000 :
    after (exec (.init (fields 0 0x473B8000)) booted) (fun t => (t.rate.fs, t.rate.nyqLimit, t.rate.lfoSpe)) =
      some (0x473B8000, 0x46800000, 0x43BB8000) := by decide +kernel
/-- Section 4.1: FilterCoeffs(511.0, 0.125). -/
theorem test_init_coefficients :
    after (exec (.init (fields 0 0x44800000)) State.reset)
      (fun t => (t.filt.a1, t.filt.a2, t.filt.b1, t.filt.b2, t.status)) =
      some (0x3F7FE643, 0x3FFFE643, 0x3FFFE5A5, 0x3F7FCDC1, 0x80000000) := by decide +kernel
/-- Section 4.4. -/
theorem test_stop_all :
    after (exec (.stopAll (fields 0 0))
        { playing { steady with phase := 0x3E000000 } with
          rm := { booted.rm with phase := 0x40490FDB, prev0 := 0xBF000000 } })
      (fun t => (t.voice 0, t.regList, t.rm.prev0, t.rm.phase)) =
      some ({ steady with state := .free, phase := 0x3E000000 }, [], 0, 0x40490FDB) := by decide +kernel
/-- Section 4.3. -/
theorem test_clear_status :
    after (exec (.clearStatus (fields 0 1)) { booted with status := 0x80000005 }) (·.status) = some 0x80000004 := by
  decide +kernel
/-- Section 4.3: READY is never cleared. -/
theorem test_clear_status_all :
    after (exec (.clearStatus (fields 0 0xFFFFFFFF)) { booted with status := 0x8000003F }) (·.status) = some 0x80000000 := by
  decide +kernel
/-- Section 4.3. -/
theorem test_get_config :
    after (exec (.get (fields 0 0x1D)) booted) (·.fifo) = some [0x00400204] := by decide +kernel
/-- Section 5, V1. -/
theorem test_get_state :
    after (exec (.get (fields 0 0x20)) (playing v1)) (·.fifo) = some [0x00000401] := by decide +kernel
/-- Section 5: +Inf. -/
theorem test_set_attack :
    after (exec (.setAttack (fields 0 0x7F800000)) booted) (·.params.attack) = some 0x3F800000 := by decide +kernel
/-- Section 5: −5.0. -/
theorem test_set_attack_negative :
    after (exec (.setAttack (fields 0 0xC0A00000)) booted) (·.params.attack) = some 0 := by decide +kernel
/-- Section 7, E3. -/
theorem test_set_decay :
    after (exec (.setDecay (fields 0 0x3DCCCCCD)) booted) (·.params.decay) = some 0x3DCCCCCD := by decide +kernel
/-- P1, line 4. -/
theorem test_set_sustain :
    after (exec (.setSustain (fields 0 0x3F000000)) booted) (·.params.sustain) = some 0x3F000000 := by decide +kernel
/-- P1, line 5. -/
theorem test_set_release :
    after (exec (.setRelease (fields 0 0x3B800000)) booted) (·.params.release) = some 0x3B800000 := by decide +kernel
/-- Section 5: 3.0. -/
theorem test_set_pitch_bend :
    after (exec (.setPitchBend (fields 0 0x40400000)) booted) (·.params.bend) = some 0x40000000 := by decide +kernel
/-- Section 5: −Inf. -/
theorem test_set_pitch_bend_inf :
    after (exec (.setPitchBend (fields 0 0xFF800000)) booted) (·.params.bend) = some 0x3F000000 := by decide +kernel
/-- Section 5: 2.0. -/
theorem test_set_glide :
    after (exec (.setGlide (fields 0 0x40000000)) booted) (·.params.glide) = some 0x3F800000 := by decide +kernel
/-- Section 5, V1. -/
theorem test_voice_start :
    after (exec (.voiceStart (fields 0 0x43000000))
        { booted with
          params := { booted.params with attack := 0x3B800000, decay := 0x3B800000, sustain := 0x3F000000 } })
      (fun t => (t.voice 0, t.regList)) = some (v1, [0]) := by decide +kernel
/-- Section 5, V2 and V3: 1e6 on an active slot. -/
theorem test_voice_start_clamped :
    after (exec (.voiceStart (fields 0 0x49742400)) (playing v1)) (fun t => ((t.voice 0).freq, t.regList)) =
      some (0x44000000, [0]) := by decide +kernel
/-- Section 5, V4. -/
theorem test_voice_release :
    after (exec (.voiceRelease (fields 0 0))
        { playing v1 with params := { booted.params with release := 0x3B800000 } })
      (fun t => ((t.voice 0).releaseInc, (t.voice 0).releaseValue, (t.voice 0).state)) =
      some (0x3E000000, 0x3F000000, .release) := by decide +kernel
/-- Section 5, V5. -/
theorem test_voice_release_zero :
    after (exec (.voiceRelease (fields 0 0)) (playing steady)) (fun t => (t.voice 0, t.regList)) =
      some ({ steady with state := .free }, []) := by decide +kernel
/-- Section 5, V7. -/
theorem test_voice_kill :
    after (exec (.voiceKill (fields 0 0)) (playing v1)) (fun t => (t.voice 0, t.activeMask)) =
      some ({ v1 with state := .free }, 0) := by decide +kernel
/-- Section 8, G2. -/
theorem test_voice_set_freq :
    after (exec (.voiceSetFreq (fields 0 0x42C80000))
        (playing { steady with glideEn := true, glideRem := 3, glideInc := 0x41800000 })) (·.voice 0) =
      some ({ steady with freq := 0x42C80000, glideInc := 0x41800000 }) := by decide +kernel
/-- Section 5, V8: −1.0. -/
theorem test_voice_set_volume :
    after (exec (.voiceSetVolume (fields 1 0xBF800000)) booted) (fun t => (t.voice 1).volume) = some 0 := by
  decide +kernel
/-- Section 5, V9. -/
theorem test_voice_set_mute :
    after (exec (.voiceSetMute (fields 1 7)) booted) (fun t => (t.voice 1).muted) = some true := by decide +kernel
/-- Section 8, G1. -/
theorem test_voice_glide :
    after (exec (.voiceGlide (fields 0 0x43000000)) (playing { steady with freq := 0x42800000 }))
      (fun t => ((t.voice 0).glideRem, (t.voice 0).glideInc, (t.voice 0).glideEn)) = some (1, 0x42800000, true) := by
  decide +kernel
/-- Section 5, V10. -/
theorem test_voice_glide_free :
    after (exec (.voiceGlide (fields 2 0x43000000)) booted) (fun t => (t.voice 2).glideEn) = some false := by
  decide +kernel
/-- Section 9, M1: 0.75. -/
theorem test_set_rm_rate :
    after (exec (.setRmRate (fields 0 0x3F400000)) booted) (·.rm.incr) = some 0x4016CBE4 := by decide +kernel
/-- Section 9, M1: f32(0.1). -/
theorem test_set_rm_rate_tenth :
    after (exec (.setRmRate (fields 0 0x3DCCCCCD)) booted) (·.rm.incr) = some 0x3EA0D97C := by decide +kernel
/-- R264, the example: two frames from the first and second samples 1.0. -/
theorem test_rm_block :
    after (exec (.rmBlock (fields 1 2))
        { (booted.writeBuf 0 0 0x3F800000).writeBuf 0 1 0x3F800000 with
          rm := { booted.rm with rate := 0x3F800000, incr := 0x40490FDB } })
      (fun t => (t.readBuf 0 0, t.readBuf 0 1, t.rm.prev0, t.rm.phase)) = some (0x3F000000, 0xBF000000, 0xBF000000, 0) := by
  decide +kernel
/-- Section 9, M5. -/
theorem test_rm_block_bypass :
    after (exec (.rmBlock (fields 1 1)) (booted.writeBuf 0 0 0x7FC00001)) (fun t => (t.readBuf 0 0, t.status)) =
      some (0x7FC00001, 0x80000000) := by decide +kernel
/-- Section 10, F1: 0.0. -/
theorem test_set_cutoff :
    after (exec (.setCutoff (fields 0 0)) booted) (fun t => (t.filt.cutoff, t.filt.a1, t.filt.b2)) =
      some (0x41800000, 0x3B1CD37F, 0x3F7CE1EE) := by decide +kernel
/-- Section 10, F1 and F2: 100.0 gives 1.5 at 511 Hz. -/
theorem test_set_resonance :
    after (exec (.setResonance (fields 0 0x42C80000)) booted) (fun t => (t.filt.resonance, t.filt.a1, t.filt.b2)) =
      some (0x3FC00000, 0x3F7ED32D, 0x3F7DA796) := by decide +kernel
/-- P7, line 11: disabling restores the cutoff and its coefficients. -/
theorem test_set_lfo_enable :
    after (exec (.setLfoEnable (fields 0 0))
        { booted with
          lfo := { booted.lfo with en := true }, filt := { booted.filt with tempCutoff := 0x41F7C000, a1 := 0 } })
      (fun t => (t.lfo.en, t.filt.tempCutoff, t.filt.a1)) = some (false, 0x43FF8000, 0x3F7FE643) := by decide +kernel
/-- P3: the first two outputs of the impulse at 256 Hz, r = 1.0. -/
theorem test_filt_block :
    after (exec (.filtBlock (fields 1 2))
        { booted.writeBuf 0 0 0x3F800000 with
          filt := { booted.filt with
            a1 := 0x3EAAAAAB, a2 := 0x3F2AAAAB, a3 := 0x3EAAAAAB, b1 := 0, b2 := 0x3EAAAAAB } })
      (fun t => (t.readBuf 0 0, t.readBuf 0 1)) = some (0x3EAAAAAB, 0x3F2AAAAB) := by decide +kernel
/-- Section 10, F5 and F7: one frame without channels at depth 1.0. -/
theorem test_filt_block_sweep :
    after (exec (.filtBlock (fields 0 1))
        { booted with
          lfo := { en := true, rate := 0x41800000, depth := 0x3F800000, acc := 0 }
          filt := { booted.filt with resonance := 0x3F800000 } })
      (fun t => (t.filt.tempCutoff, t.filt.a1, t.filt.b1, t.filt.b2, t.lfo.acc)) =
      some (0x41800000, 0x3B166A4E, 0xBFF2DD66, 0x3F681474, 0x41800000) := by decide +kernel
/-- Section 11, L3. -/
theorem test_set_lfo_rate :
    after (exec (.setLfoRate (fields 0 0x447A0000)) booted) (·.lfo.rate) = some 0x44000000 := by decide +kernel
/-- Section 11, L3. -/
theorem test_set_lfo_depth :
    after (exec (.setLfoDepth (fields 0 0x40000000)) booted) (·.lfo.depth) = some 0x3F800000 := by decide +kernel
/-- Section 11, L2: the eleventh peek. -/
theorem test_lfo_peek :
    after (exec (.lfoPeek (fields 0 0)) { booted with lfo := { booted.lfo with rate := 0x42C80000, acc := 0x447A0000 } })
      (fun t => (t.fifo, t.lfo.acc)) = some ([0xBF680000], 0x42980000) := by decide +kernel
/-- Section 9, M4: the first two samples on both channels. -/
theorem test_synth_block :
    after (exec (.synthBlock (fields 2 2))
        { playing steady with rm := { booted.rm with rate := 0x3F800000, incr := 0x40490FDB } })
      (fun t => ([t.readBuf 0 0, t.readBuf 0 1, t.readBuf 1 0, t.readBuf 1 1], t.fifo, t.rm.prev1)) =
      some ([0xBF000000, 0x3E800000, 0xBF000000, 0x3E800000], [1], 0x3E800000) := by decide +kernel
/-- P1, step 9: 0.375 is the first sample, and the slot dies on the fifth. -/
theorem test_synth_block_release :
    after (exec (.synthBlock (fields 1 5))
        (playing { v1 with
          state := .release, releaseInc := 0x3E000000, releaseValue := 0x3F000000, currentValue := 0x3F000000
          pwmCounter := 8 }))
      (fun t => ([t.readBuf 0 0, t.readBuf 0 3, t.readBuf 0 4], (t.voice 0).state, (t.voice 0).phase, t.regList)) =
      some ([0x3EC00000, 0, 0], .free, 0x3F200000, []) := by decide +kernel

/-! ## Rejections, responses and the bus (95_test_vectors.md sections 3, 4.2, 4.5) -/

/-- OP 0x05 before INIT. -/
theorem test_reserved :
    after (runCommand 0x0000000000000005 State.reset) (fun t => (t.status, t.fifo)) = some (0x00000001, []) := by
  decide +kernel
/-- NOINIT is checked before RSV. -/
theorem test_no_init :
    after (exec (.setAttack { slot := 0, rsv := 1, arg := 0x3F000000 }) State.reset) (·.status) = some 0x00000008 := by
  decide +kernel
/-- GET of the reserved selector 0x1E. -/
theorem test_bad_op_responds :
    after (exec (.get (fields 0 0x1E)) booted) (fun t => (t.status, t.fifo)) = some (0x80000001, [0xFFFFFFFF]) := by
  decide +kernel
/-- VOICE_START v0, NaN. -/
theorem test_nan_operand :
    after (exec (.voiceStart (fields 0 0x7FC00000)) booted) (fun t => (t.status, (t.voice 0).state)) = some (0x80000002, .free) := by
  decide +kernel
/-- The seventeenth response. -/
theorem test_respovf :
    after (exec (.get (fields 0 0x1D)) { booted with fifo := List.replicate 16 0x00400204 })
      (fun t => (t.status, t.fifo.length)) = some (0x80000020, 16) := by decide +kernel
/-- RESP read of an empty FIFO. -/
theorem test_resp_empty :
    after (step { State.reset with pending := [.read 0x8 .w4] }) (fun t => (t.status, t.replies)) = some (0x10, [0]) := by
  decide +kernel
/-- A 32-bit write to CMD. -/
theorem test_cmd_narrow :
    after (step { booted with pending := [.write 0 .w4 2] }) (·.status) = some 0x80000010 := by decide +kernel
/-- A 32-bit read of 0x10002. -/
theorem test_buf_misaligned :
    after (step { booted with pending := [.read 0x10002 .w4] }) (fun t => (t.status, t.replies)) = some (0x80000010, [0]) := by
  decide +kernel
/-- A 32-bit write of 1.0 to 0x10100 is BUF[1][0]. -/
theorem test_buf_write :
    after (step { booted with pending := [.write 0x10100 .w4 0x3F800000] }) (fun t => (t.readBuf 1 0, t.status)) =
      some (0x3F800000, 0x80000000) := by decide +kernel
/-- A 32-bit write to 0x10200. -/
theorem test_buf_past_end :
    after (step { booted with pending := [.write 0x10200 .w4 1] }) (fun t => (t.buf, t.status)) = some ([], 0x80000010) := by
  decide +kernel
/-- `INIT 1024.0` as the first command after reset. -/
theorem test_fetch :
    after (step (State.reset.withFetchWord 64 0x4480000000000001)) (fun t => (t.status, t.rate.fs)) =
      some (0x80000000, 0x44800000) := by decide +kernel

/-! ## Witnesses: concrete states and operands that meet the hypotheses of the statements -/

open Sys2Proof.Claims

theorem registryExact_of (s : State) (h1 : s.voices.length = s.cfg.numVoices) (h2 : s.regList.Nodup)
    (h3 : ∀ k, k ∈ s.regList → k < s.cfg.numVoices)
    (h4 : ∀ k, k < s.cfg.numVoices → (k ∈ s.regList ↔ (s.voice k).state ≠ .free)) : RegistryExact s :=
  ⟨h1, h2, fun k => ⟨fun h => ⟨h3 k h, (h4 k (h3 k h)).1 h⟩, fun h => (h4 k h.1).2 h.2⟩⟩

/-- O1, O2: a command word, and the boundary bytes of the reserved ranges. -/
theorem witness_decode : ∃ i, decode 0x0000002100000304 = .ok i := ⟨_, test_decode_get⟩
theorem witness_reserved :
    reservedByte 0x05 ∧ reservedByte 0x0F ∧ reservedByte 0x16 ∧ reservedByte 0x1F ∧ reservedByte 0x27 ∧
      reservedByte 0x2F ∧ reservedByte 0x32 ∧ reservedByte 0x37 ∧ reservedByte 0x3C ∧ reservedByte 0x3F ∧
        reservedByte 0x43 ∧ reservedByte 0x4F ∧ reservedByte 0x51 ∧ reservedByte 0xFF := by
  simp [reservedByte]
theorem witness_not_reserved :
    ¬reservedByte 0x04 ∧ ¬reservedByte 0x10 ∧ ¬reservedByte 0x15 ∧ ¬reservedByte 0x20 ∧ ¬reservedByte 0x26 ∧
      ¬reservedByte 0x31 ∧ ¬reservedByte 0x38 ∧ ¬reservedByte 0x42 ∧ ¬reservedByte 0x50 := by
  simp [reservedByte]

/-- StepRunsTheDecodedCommand: a pending command and an idle block. -/
theorem witness_step :
    ∃ (s : State) (w : CommandWord) (i : Instr) (rest : List HostAccess),
      s.pending = .write 0 .w8 w :: rest ∧ decodeBytes (bytesOfWord w) = .ok i ∧ decode w = .ok i :=
  ⟨{ booted with pending := [.write 0 .w8 0x0000000000000002] }, 0x0000000000000002, .stopAll (fields 0 0), [], rfl,
    by decide +kernel, by decide +kernel⟩
theorem witness_idle : booted.pending = [] := rfl

/-- CommandsBeforeInitRaiseNoInit: a command that responds and one that does not; GET beside the one GET allowed. -/
theorem witness_before_init :
    State.reset.ready = false ∧ ¬beforeInit (.voiceStart (fields 0 0x43000000)) ∧ ¬beforeInit (.get (fields 0 1)) ∧
      ¬beforeInit (.get (fields 1 0)) := by
  unfold beforeInit; decide +kernel
theorem witness_allowed :
    beforeInit (.nop (fields 1 0)) ∧ beforeInit (.init (fields 0 0)) ∧ beforeInit (.get (fields 0 0)) := by
  unfold beforeInit; decide +kernel

/-- MalformedCommandsRaiseBadOp: after INIT, responding or not, the FIFO full or not; and before INIT. -/
theorem witness_malformed :
    booted.ready = true ∧ wellFormed booted.cfg (.setAttack (fields 1 0)) = false ∧
      wellFormed booted.cfg (.lfoPeek (fields 1 0)) = false ∧ responding (.lfoPeek (fields 1 0)) ∧
        ¬responding (.setAttack (fields 1 0)) ∧ wellFormed State.reset.cfg (.nop (fields 1 0)) = false := by
  unfold responding; decide +kernel
theorem witness_full :
    ∃ s : State, s.ready = true ∧ s.cfg.respDepth ≤ s.fifo.length ∧ booted.fifo.length < booted.cfg.respDepth :=
  ⟨{ booted with fifo := List.replicate 16 0 }, by decide +kernel⟩

/-- NanOperandsRaiseNanArg: GF and VF after INIT, and INIT before it. -/
theorem witness_nan :
    booted.ready = true ∧ wellFormed booted.cfg (.setGlide (fields 0 0x7FC00000)) = true ∧
      wellFormed booted.cfg (.voiceGlide (fields 3 0xFF800001)) = true ∧
        wellFormed State.reset.cfg (.init (fields 0 0x7F800001)) = true ∧ isNaN 0x7FC00000 = true ∧
          isNaN 0xFF800001 = true ∧ isNaN 0x7F800001 = true ∧ Opcode.format .setGlide = .gf ∧
            Opcode.format .voiceGlide = .vf := by
  decide +kernel

/-- InfiniteOperandsClampToBounds: different bounds, and equal ones; an operand below them, above them, and at each. -/
theorem witness_bounds :
    isFinite fZero = true ∧ isFinite fOne = true ∧ fLe fZero fOne = true ∧ fLe fOne fOne = true := by decide +kernel
theorem witness_clamp :
    isNaN 0xBF800000 = false ∧ fLt 0xBF800000 fZero = true ∧ fLt fTwo fZero = false ∧ fLt fOne fTwo = true ∧
      fLt fZero fZero = false ∧ fLt fOne fZero = false ∧ fLt fOne fOne = false ∧ fLt 0x80000000 fZero = false := by
  decide +kernel

/-- The statements about commands of formats Z and GU (ARG zero and not; STOP_ALL, CLEAR_STATUS, SET_LFO_ENABLE, LFO_PEEK). -/
theorem witness_global : RunsGlobal booted (fields 0 0) ∧ RunsGlobal booted (fields 0 1) := by
  unfold RunsGlobal Admitted; decide +kernel

/-- The statements about commands of format GF; an infinite operand is one. -/
theorem witness_global_f :
    RunsGlobalF booted (fields 0 0x3F000000) ∧ RunsGlobalF booted (fields 0 0x7F800000) := by
  unfold RunsGlobalF RunsGlobal Admitted; decide +kernel

/-- NOP, INIT and GET STATUS, which need no INIT before them. -/
theorem witness_before : (fields 0 0x44800000).rsv = 0 ∧ (fields 0 0x44800000).slot = 0 ∧ isNaN 0x44800000 = false ∧
    (fields 0 0).arg = 0 := by decide +kernel

/-- The GET statements: the first and the last slot, channel and selector. -/
theorem witness_get :
    Admitted booted (fields 0 0x1D) ∧ Admitted booted (fields 1 0x0B) ∧ Admitted booted (fields 1 0x1B) ∧
      Admitted booted (fields 3 0x31) ∧ (fields 3 0x31).arg = (0x31 : BitVec 8).setWidth 32 ∧
        1 < booted.cfg.maxChannels ∧ 3 < booted.cfg.numVoices ∧ booted.cfg.numVoices ≤ 32 := by
  unfold Admitted; decide +kernel
theorem witness_get_states :
    ((playing v1).voice 0).state = .attack ∧ ((playing { v1 with state := .decay }).voice 0).state = .decay ∧
      ((playing steady).voice 0).state = .sustain ∧
        ((playing { v1 with state := .release }).voice 0).state = .release ∧ ((playing v1).voice 3).state = .free := by
  decide +kernel

/-- SetCommandsAreIdempotent. -/
theorem witness_set : isSetCommand (.setCutoff (fields 0 0x43800000)) ∧
    ∃ t, exec (.setCutoff (fields 0 0x43800000)) booted = .next t :=
  ⟨by unfold isSetCommand; decide, next_of_isSome (by decide +kernel)⟩

/-- The statements about voice commands: the first and the last slot. -/
theorem witness_voice :
    RunsVoice booted (fields 0 0) ∧ RunsVoice booted (fields 3 0) ∧ RunsVoiceF booted (fields 0 0x43000000) ∧
      RunsVoiceF (playing v1) (fields 3 0xFF800000) := by
  unfold RunsVoiceF RunsVoice Admitted; decide +kernel

/-- VoiceReleaseSeedsOrRetires: a FREE slot, a released one, RELEASE = 0, sustain = 0, and a release that starts. -/
theorem witness_release_idle :
    (RunsVoice (playing v1) (fields 3 0) ∧ ((playing v1).voice 3).state = .free) ∧
      RunsVoice (playing { v1 with state := .release }) (fields 0 0) ∧
        ((playing { v1 with state := .release }).voice 0).state = .release := by
  unfold RunsVoice Admitted; decide +kernel
theorem witness_release_retires :
    RunsVoice (playing v1) (fields 0 0) ∧ ((playing v1).voice 0).state = .attack ∧
      fEq (playing v1).params.release fZero = true ∧ RunsVoice (playing { v1 with sustain := 0 }) (fields 0 0) ∧
        ((playing { v1 with sustain := 0 }).voice 0).state = .attack ∧
          fEq ((playing { v1 with sustain := 0 }).voice 0).sustain fZero = true := by
  unfold RunsVoice Admitted; decide +kernel

/-- `playing v1` with RELEASE = 2^-8. -/
def releasing : State := { playing v1 with params := { booted.params with release := 0x3B800000 } }

theorem witness_release_starts :
    RunsVoice releasing (fields 0 0) ∧ (releasing.voice 0).state = .attack ∧
      fEq releasing.params.release fZero = false ∧ fEq (releasing.voice 0).sustain fZero = false := by
  unfold RunsVoice Admitted; decide +kernel

/-- VoiceKillRetires and VoiceGlideStartsFromTheCurrentFrequency: an active slot and a FREE one. -/
theorem witness_active :
    RunsVoiceF (playing v1) (fields 0 0x43000000) ∧ ((playing v1).voice 0).state = .attack ∧
      RunsVoiceF (playing v1) (fields 3 0x43000000) ∧ ((playing v1).voice 3).state = .free := by
  unfold RunsVoiceF RunsVoice Admitted; decide +kernel

theorem registry_playing : RegistryExact (playing v1) :=
  registryExact_of _ (by decide +kernel) (by decide +kernel) (by decide +kernel) (by decide +kernel)

/-- StartThenReleaseWithZeroReleaseFrees: on an active slot and on a FREE one. -/
theorem witness_start_release :
    RegistryExact (playing v1) ∧ RunsVoiceF (playing v1) (fields 0 0x43000000) ∧
      RunsVoiceF (playing v1) (fields 3 0x43000000) ∧ fEq (playing v1).params.release fZero = true ∧
        (fields 3 0).rsv = 0 ∧ (fields 3 0).slot = (fields 3 0x43000000).slot :=
  ⟨registry_playing, by unfold RunsVoiceF RunsVoice Admitted; decide +kernel⟩

/-- SlotSampleFollowsTheRenderOrder: a muted slot and an unmuted one. -/
theorem witness_mute : v1.muted = false ∧ ({ v1 with muted := true } : Voice).muted = true := by decide

/-- EnvelopeStepFollowsItsState: each state, at its threshold where it has one. -/
theorem witness_env_attack :
    v1.state = .attack ∧ fLe fOne (fAdd v1.attackValue v1.attackInc) = false ∧
      fLe fOne (fAdd ({ v1 with attackValue := 0x3F400000 } : Voice).attackValue v1.attackInc) = true ∧
        v1.decayEn = true ∧ ({ v1 with decayEn := false } : Voice).decayEn = false := by
  decide +kernel
theorem witness_env_decay :
    ∃ v w : Voice,
      v.state = .decay ∧ fLe (fSub v.currentValue v.decayInc) v.sustain = true ∧
        w.state = .decay ∧ fLe (fSub w.currentValue w.decayInc) w.sustain = false :=
  ⟨{ v1 with state := .decay, currentValue := 0x3F200000 }, { v1 with state := .decay, currentValue := fOne },
    by decide +kernel⟩
theorem witness_env_release :
    ∃ v w : Voice,
      v.state = .release ∧ fLt (fSub v.releaseValue v.releaseInc) fZero = false ∧
        w.state = .release ∧ fLt (fSub w.releaseValue w.releaseInc) fZero = true :=
  ⟨{ v1 with state := .release, releaseValue := 0x3E000000, releaseInc := 0x3E000000 },
    { v1 with state := .release, releaseValue := 0, releaseInc := 0x3E000000 }, by decide +kernel⟩
theorem witness_env_sustain : steady.state = .sustain := rfl

/-- EnvelopeAmplitudeStaysInUnit. -/
theorem witness_envelope : v1.state ≠ .free ∧ EnvelopeLegal v1 := by unfold EnvelopeLegal; decide +kernel

/-- GET of glideRem with 2^32 + 3 steps left: the u32 view of the whole count. -/
theorem test_get_glide_rem :
    after (exec (.get (fields 0 0x2B)) (playing { v1 with glideEn := true, glideRem := 4294967299 })) (·.fifo) =
      some [3] := by
  decide +kernel
/-- GLIDE = 0.0 is a one-step glide where toF(GLIDE_MAX_SAMPLES) is +Inf too (R236). -/
theorem test_zero_duration :
    toF (2 ^ 128) = 0x7F800000 ∧ samples fZero (2 ^ 128) = 1 ∧ samples 0x80000000 1024 = 1 := by decide +kernel
/-- GetReadsTheVoiceSlots: no step left, 2^32 steps left, and a count that is no multiple of 2^32. -/
theorem witness_glide_count :
    ((playing v1).voice 0).glideRem = 0 ∧
      ((playing { v1 with glideEn := true, glideRem := 4294967296 }).voice 0).glideRem = 2 ^ 32 ∧
      ((playing { v1 with glideEn := true, glideRem := 4294967299 }).voice 0).glideRem % 2 ^ 32 ≠ 0 := by
  decide +kernel

/-- GlideEndsOnItsTarget: no glide, the last step, and a glide with a step before its last. -/
theorem witness_glide_idle : v1.glideEn = false := rfl
theorem witness_glide :
    ∃ v : Voice, v.glideEn = true ∧ v.glideRem ≠ 0 ∧ 0 < v.glideRem ∧ v.glideRem ≤ 1 :=
  ⟨{ v1 with glideEn := true, glideRem := 1 }, by decide +kernel⟩
theorem witness_glide_running :
    ∃ v : Voice, v.glideEn = true ∧ v.glideRem ≠ 0 ∧ 0 + 1 < v.glideRem ∧ v.glideRem ≤ 2 :=
  ⟨{ v1 with glideEn := true, glideRem := 2 }, by decide +kernel⟩

/-- SweepStepFollowsTheLfo. -/
theorem witness_sweep : booted.cfg.lfoSweep = .linear := rfl

/-- ArithmeticRoundsToNearest: an inexact sum, difference, product and quotient, all finite. -/
theorem witness_arithmetic :
    isFinite 0x3DCCCCCD = true ∧ isFinite 0x3EAAAAAB = true ∧ isFinite (fAdd 0x3DCCCCCD 0x3EAAAAAB) = true ∧
      isFinite (fSub 0x3DCCCCCD 0x3EAAAAAB) = true ∧ isFinite (fMul 0x3DCCCCCD 0x3EAAAAAB) = true ∧
        fUnits 0x3EAAAAAB ≠ 0 ∧ isFinite (fDiv 0x3DCCCCCD 0x3EAAAAAB) = true := by
  decide +kernel

/-- At the overflow threshold: the largest finite value plus a quarter of its last place, and plus half of it. -/
theorem test_overflow :
    fAdd 0x7F7FFFFF 0x72800000 = 0x7F7FFFFF ∧ fAdd 0x7F7FFFFF 0x73000000 = 0x7F800000 ∧
      fMul 0x7F7FFFFF 0xC0000000 = 0xFF800000 := by
  decide +kernel

/-- ArithmeticOnSpecialValues: a NaN, infinities of both signs, a zero divisor and a nonzero one. -/
theorem witness_special :
    isNaN 0x7FC00000 = true ∧ isInf 0x7F800000 = true ∧ isInf 0xFF800000 = true ∧
      fNeg 0x7F800000 = fNeg 0x7F800000 ∧ fNeg 0x7F800000 ≠ fNeg 0xFF800000 ∧ isFinite fZero = true ∧
        isFinite fOne = true ∧ fUnits fZero = 0 ∧ fUnits fOne ≠ 0 := by
  decide +kernel

/-- PrimitivesFollowTheirDefinitions: operands of floorN and fmodF, 5.5 and 2.0 among them. -/
theorem witness_primitives :
    isFinite 0x40B00000 = true ∧ fLe fZero 0x40B00000 = true ∧ isFinite fTwo = true ∧ fLt fZero fTwo = true ∧
      isNaN fZero = false ∧ isNaN 0x7FC00000 = true := by
  decide +kernel
/-- By hand: floorN(5.5) = 5, fmodF(5.5, 2.0) = 1.5, toF(2^24 + 1) = 2^24. -/
theorem test_primitives :
    floorN 0x40B00000 = 5 ∧ fMod 0x40B00000 fTwo = 0x3FC00000 ∧ toF 16777217 = 0x4B800000 := by decide +kernel

/-- The block statements: the largest block, and the empty one. -/
theorem witness_block :
    RunsBlock (playing steady) (fields 2 64) ∧ RunsBlock (playing steady) (fields 0 0) ∧
      (playing steady).buf.wf = true := by
  unfold RunsBlock Admitted; decide +kernel

/-- `playing steady` with three channels, the ring modulator and the LFO running, and a full response FIFO. -/
def modulated : State :=
  { playing steady with
    cfg := { tc1 with maxChannels := 3 }
    delays := List.replicate 3 Delay.zero
    rm := { booted.rm with rate := 0x3F800000, incr := 0x40490FDB }
    lfo := { en := true, rate := 0x41800000, depth := 0x3F800000, acc := 0 }
    fifo := List.replicate 16 0 }

theorem witness_rm :
    RunsBlock modulated (fields 3 64) ∧ modulated.buf.wf = true ∧ fEq modulated.rm.rate fZero = false := by
  unfold RunsBlock Admitted; decide +kernel
theorem witness_rm_bypass :
    RunsBlock (playing steady) (fields 2 64) ∧ fEq (playing steady).rm.rate fZero = true ∧
      fEq (0x80000000 : F) fZero = true := by
  unfold RunsBlock Admitted; decide +kernel
theorem storage_modulated : StorageSound modulated := by unfold StorageSound; decide +kernel
theorem witness_filter :
    (RunsBlock modulated (fields 3 64) ∧ modulated.lfo.en = true) ∧
      RunsBlock (playing steady) (fields 2 64) ∧ (playing steady).lfo.en = false := by
  unfold RunsBlock Admitted; decide +kernel
theorem witness_filter_storage : StorageSound modulated ∧ StorageSound (playing steady) :=
  ⟨storage_modulated, by unfold StorageSound; decide +kernel⟩

theorem registry_modulated : RegistryExact modulated :=
  registryExact_of _ (by decide +kernel) (by decide +kernel) (by decide +kernel) (by decide +kernel)
theorem witness_synth :
    RunsBlock modulated (fields 3 64) ∧ modulated.buf.wf = true ∧ RegistryExact modulated ∧ modulated.regList ≠ [] ∧
      modulated.cfg.respDepth ≤ modulated.fifo.length :=
  ⟨by unfold RunsBlock Admitted; decide +kernel, by decide +kernel, registry_modulated, by decide +kernel,
    by decide +kernel⟩
theorem witness_synth_silent :
    RunsBlock booted (fields 2 64) ∧ booted.buf.wf = true ∧ booted.regList = [] ∧
      booted.fifo.length < booted.cfg.respDepth := by
  unfold RunsBlock Admitted; decide +kernel
theorem witness_synth_empty : RunsBlock modulated (fields 2 0) ∧ (fields 2 0).arg = 0 := by
  unfold RunsBlock Admitted; decide +kernel

/-- RespReadPopsTheOldestWord: a word queued, and none. -/
theorem witness_resp :
    ∃ s t : State, s.pending = [.read 0x8 .w4] ∧ s.fifo = [1, 2] ∧ t.pending = [.read 0x8 .w4] ∧ t.fifo = [] :=
  ⟨{ booted with pending := [.read 0x8 .w4], fifo := [1, 2] }, { booted with pending := [.read 0x8 .w4] }, rfl, rfl,
    rfl, rfl⟩

/-- An address below BUF_BASE is no sample's. -/
theorem not_buf (a : BitVec 32) (h : a.toNat < 0x10000) (k : Nat) : ¬a.toNat = 0x10000 + 4 * k := by omega

/-- RefusedAccessesOnlyRaiseBadAcc: CMD is write-only, RESP_COUNT read-only, 0x14 reserved, a narrow CMD write, and a RESP
read of an empty FIFO. -/
theorem witness_refused :
    ¬admittedAccess booted (.read 0 .w8) ∧ ¬admittedAccess booted (.read 0x14 .w4) ∧
      ¬admittedAccess booted (.read 0x8 .w4) ∧ ¬admittedAccess booted (.write 0xC .w4 1) ∧
        ¬admittedAccess booted (.write 0 .w4 2) := by
  refine ⟨fun h => absurd h.1 (by decide), ?_, ?_, ?_, ?_⟩
  · rintro ⟨_, h | h | h | ⟨c, i, _, _, h⟩⟩
    · exact absurd h.1 (by decide)
    · exact absurd h (by decide)
    · exact absurd h (by decide)
    · exact not_buf _ (by decide) _ h
  · rintro ⟨_, h | h | h | ⟨c, i, _, _, h⟩⟩
    · exact h.2 rfl
    · exact absurd h (by decide)
    · exact absurd h (by decide)
    · exact not_buf _ (by decide) _ h
  · rintro (h | ⟨_, c, i, _, _, h⟩)
    · exact absurd h.1 (by decide)
    · exact not_buf _ (by decide) _ h
  · rintro (h | ⟨_, c, i, _, _, h⟩)
    · exact absurd h.2 (by decide)
    · exact not_buf _ (by decide) _ h

/-- The first address past BUF is refused as well; the last sample is admitted. -/
theorem witness_buf_end : ¬admittedAccess booted (.write 0x10200 .w4 1) ∧ admittedAccess booted (.write 0x101FC .w4 1) := by
  have hb : booted.cfg.maxBlock = 64 := rfl
  have hc : booted.cfg.maxChannels = 2 := rfl
  refine ⟨?_, .inr ⟨rfl, 1, 63, by omega, by omega, by rw [hb]; decide⟩⟩
  rintro (h | ⟨_, c, i, h1, h2, h3⟩)
  · exact absurd h.1 (by decide)
  · rw [hb] at h2 h3
    have h4 : (0x10200 : BitVec 32).toNat = 0x10200 := by decide
    omega

/-- OtherReadsHaveNoSideEffect and BufWriteStoresThePattern: the first and the last sample. -/
theorem witness_buf :
    0 < booted.cfg.maxChannels ∧ 1 < booted.cfg.maxChannels ∧ 63 < booted.cfg.maxBlock ∧
      (0x10000 : BitVec 32).toNat = 0x10000 + 4 * (0 * booted.cfg.maxBlock + 0) ∧
        (0x101FC : BitVec 32).toNat = 0x10000 + 4 * (1 * booted.cfg.maxBlock + 63) ∧ booted.fifo.length < 2 ^ 32 ∧
          booted.buf.wf = true := by
  decide +kernel
theorem witness_bus_pending :
    ∃ s t u v : State,
      s.pending = [.read 0xC .w4] ∧ t.pending = [.read 0x10 .w4] ∧ u.pending = [.read 0x101FC .w4] ∧
        v.pending = [.write 0x101FC .w4 0x3F800000] :=
  ⟨{ booted with pending := [.read 0xC .w4] }, { booted with pending := [.read 0x10 .w4] },
    { booted with pending := [.read 0x101FC .w4] }, { booted with pending := [.write 0x101FC .w4 0x3F800000] }, rfl, rfl,
    rfl, rfl⟩

/-! The invariants: a state that meets each, and a step from it. -/

/-- `s` with `SYNTH_BLOCK nc=1, n=1` pending. -/
def rendering (s : State) : State := { s with pending := [commandWrite 0x0000000100000150] }

theorem witness_registry : RegistryExact (rendering (playing v1)) ∧ ∃ t, step (rendering (playing v1)) = .next t :=
  ⟨registryExact_of _ (by decide +kernel) (by decide +kernel) (by decide +kernel) (by decide +kernel),
    next_of_isSome (by decide +kernel)⟩
theorem witness_storage :
    StorageSound (rendering (playing v1)) ∧ CoeffsCurrent (rendering (playing v1)) ∧
      DerivedCurrent (rendering (playing v1)) ∧ CutoffInRange (rendering (playing v1)) ∧
        configLegal (rendering (playing v1)).cfg = true ∧ (rendering (playing v1)).ready = true := by
  unfold StorageSound CoeffsCurrent DerivedCurrent CutoffInRange; decide +kernel

/-- CutoffNeverExceedsTheNyquistLimit: no law of TC1 is custom. -/
theorem witness_laws : LawsLegal (rendering (playing v1)).cfg ∧ ∃ t, step (rendering (playing v1)) = .next t :=
  ⟨⟨fun h => absurd h (by decide), fun h => absurd h (by decide)⟩, next_of_isSome (by decide +kernel)⟩

/-- StepKeepsGlidesCountedAndPhasesInRange: a slot that glides, on a step that renders it. -/
theorem witness_glides :
    GlidesCounted (rendering (playing { steady with glideEn := true, glideRem := 2 })) ∧
      PhasesInRange (rendering (playing { steady with glideEn := true, glideRem := 2 })) ∧
      ∃ t, step (rendering (playing { steady with glideEn := true, glideRem := 2 })) = .next t :=
  ⟨by unfold GlidesCounted; decide +kernel, by unfold PhasesInRange; decide +kernel, next_of_isSome (by decide +kernel)⟩

/-- PowerOnIsNotReady: a canonical memory with something in it. -/
theorem witness_memory : Memory.wf [(0x10000, 0x01), (0x10004, 0xFF)] = true := by decide +kernel

/-- UnspecifiedRegistersAreUnobservable: two blocks that differ in FS and the slots, with INIT pending. -/
theorem witness_unspecified :
    ∃ s t : State, SameSpecified s t ∧ s ≠ t ∧ s.ready = false ∧ ∃ s', step s = .next s' :=
  ⟨State.reset.withFetchWord 64 0x4480000000000001,
    { State.reset.withFetchWord 64 0x4480000000000001 with voices := [], params := { State.reset.params with bend := fOne } },
    by unfold SameSpecified; decide +kernel, by decide +kernel, by decide +kernel, next_of_isSome (by decide +kernel)⟩

/-- OnlyInitWritesTheSampleRate, OnlyBlockCommandsTouchBuf and OnlyThreeOpcodesRespondOnce: a responding command with room
in the FIFO and without, and one that does not respond. -/
theorem witness_commands :
    (∃ t, exec (.lfoPeek (fields 0 0)) booted = .next t) ∧
      (∃ t, exec (.lfoPeek (fields 0 0)) { booted with fifo := List.replicate 16 0 } = .next t) ∧
        (∃ t, exec (.setCutoff (fields 0 0)) booted = .next t) ∧ responding (.lfoPeek (fields 0 0)) ∧
          ¬responding (.setCutoff (fields 0 0)) :=
  ⟨next_of_isSome (by decide +kernel), next_of_isSome (by decide +kernel), next_of_isSome (by decide +kernel),
    by unfold responding; decide, by unfold responding; decide⟩

end Sys2Proof.Tests
end

section
/-! What the commands leave of the configuration, the sample rate and READY, and the settlement of O55. -/

namespace Sys2Proof.Machine

/-! ## The sample rate and READY: only INIT writes them (40_control.md R123) -/

/-- `t` has the configuration, FS with its derived constants, and READY of `s`. -/
structure SameRate (s t : State) : Prop where
  cfg   : t.cfg = s.cfg
  rate  : t.rate = s.rate
  ready : t.ready = s.ready

theorem SameRate.refl (s : State) : SameRate s s := ⟨rfl, rfl, rfl⟩

theorem SameRate.trans {s t u : State} (h : SameRate s t) (h' : SameRate t u) : SameRate s u :=
  ⟨h'.cfg.trans h.cfg, h'.rate.trans h.rate, h'.ready.trans h.ready⟩

theorem raise_sameRate (s : State) (e : Event) : SameRate s (s.raise e) := ⟨rfl, rfl, s.ready_raise e⟩

theorem respond_sameRate (s : State) (w : Word) : SameRate s (s.respond w) :=
  ⟨s.respond_cfg w, s.respond_rate w, s.ready_respond w⟩

theorem busAccess_sameRate (a : HostAccess) (s : State) : SameRate s (busAccess a s) := by
  obtain ⟨hframe, hready⟩ := busAccess_frame a s
  exact ⟨by rw [hframe], by rw [hframe], hready⟩

theorem rmApply_sameRate (nc n : Nat) (s : State) : SameRate s (rmApply nc n s) := by
  rw [(rmApply_writes nc n s).frame]; exact ⟨rfl, rfl, rfl⟩

theorem filtBlock_sameRate (nc n : Nat) (s : State) : SameRate s (forUpTo n (filtFrame nc) s) := by
  rw [(filtBlock_writes nc n s).frame]; exact ⟨rfl, rfl, rfl⟩

theorem synthBlock_sameRate (nc n : Nat) (s : State) : SameRate s (synthBlock nc n s) := by
  obtain ⟨hframe, _, _, hready, _, _⟩ := synthBlock_frame nc n s
  exact ⟨by rw [hframe], by rw [hframe], hready⟩

/-- CLEAR_STATUS cannot reach READY: only bits 5:0 of its mask act (R125). -/
theorem clearedStatus_ready (status mask : Word) : (clearedStatus status mask).getLsbD 31 = status.getLsbD 31 := by
  simp [clearedStatus, stickyMask]

theorem body_sameRate (i : Instr) (s : State) (hi : i.opcode ≠ .init) : SameRate s (body i s) := by
  cases i with
  | init f => exact absurd rfl hi
  | clearStatus f => exact ⟨rfl, rfl, clearedStatus_ready _ _⟩
  | get f =>
    dsimp only [body]
    split
    · exact respond_sameRate _ _
    · exact .refl s
  | voiceRelease f => dsimp only [body]; split_ifs <;> exact ⟨rfl, rfl, rfl⟩
  | voiceKill f | voiceGlide f | setLfoEnable f => dsimp only [body]; split <;> exact ⟨rfl, rfl, rfl⟩
  | lfoPeek f => exact .trans (t := (lfoPeek s).2) ⟨rfl, rfl, rfl⟩ (respond_sameRate _ _)
  | rmBlock f => exact rmApply_sameRate _ _ s
  | filtBlock f => exact filtBlock_sameRate _ _ s
  | synthBlock f => exact synthBlock_sameRate _ _ s
  | _ => exact ⟨rfl, rfl, rfl⟩

/-! ## RM_RATE and RM_INCR: only INIT and SET_RM_RATE write them (46_ring_modulator.md R260, R262) -/

theorem busAccess_rm (a : HostAccess) (s : State) : (busAccess a s).rm = s.rm := by
  rw [(busAccess_frame a s).1]

theorem body_rm_rate_incr (i : Instr) (s : State) (hinit : i.opcode ≠ .init) (hrate : i.opcode ≠ .setRmRate) :
    (body i s).rm.rate = s.rm.rate ∧ (body i s).rm.incr = s.rm.incr := by
  cases i with
  | init f => exact absurd rfl hinit
  | setRmRate f => exact absurd rfl hrate
  | get f => dsimp only [body]; split <;> simp
  | voiceRelease f => dsimp only [body]; split_ifs <;> exact ⟨rfl, rfl⟩
  | voiceKill f | voiceGlide f | setLfoEnable f => dsimp only [body]; split <;> exact ⟨rfl, rfl⟩
  | lfoPeek f => simp [body, lfoPeek]
  | rmBlock f =>
    have h := rmApply_writes (operandChannels f) (operandSize f) s
    exact ⟨h.rate, h.incr⟩
  | filtBlock f => dsimp only [body]; rw [(filtBlock_writes _ _ s).frame]; exact ⟨rfl, rfl⟩
  | synthBlock f =>
    obtain ⟨_, hrmRate, hrmIncr, _⟩ := synthBlock_frame (operandChannels f) (operandSize f) s
    exact ⟨hrmRate, hrmIncr⟩
  | _ => exact ⟨rfl, rfl⟩

/-! ## The derived constants stay those of FS, and RM_INCR that of RM_RATE (00_scope.md R8) -/

/-- `DerivedCurrent` in the words of the functions that INIT and SET_RM_RATE compute these registers with. -/
theorem derivedCurrent_iff (s : State) :
    DerivedCurrent s ↔
      (s.ready = true → s.rate = rateRegsOf s.cfg s.rate.fs ∧ s.rm.incr = rmIncr s.cfg s.rate.fs s.rm.rate) := by
  obtain ⟨cfg, status, ⟨fs, envMax, glideMax, spe, nyq⟩, _⟩ := s
  simp [DerivedCurrent, rateRegsOf, and_assoc]

/-- A state with the same rate registers, READY, RM_RATE and RM_INCR has the invariant too. -/
theorem DerivedCurrent.of_sameRate {s t : State} (hs : DerivedCurrent s) (h : SameRate s t)
    (hrm : t.rm.rate = s.rm.rate ∧ t.rm.incr = s.rm.incr) : DerivedCurrent t := by
  unfold DerivedCurrent
  rw [h.cfg, h.rate, h.ready, hrm.1, hrm.2]
  exact hs

theorem powerOn_derivedCurrent (c : Config) (m : Memory) : DerivedCurrent (State.powerOn c m) :=
  fun hready => absurd hready (by decide : ¬(0 : Word).getLsbD 31 = true)

/-- INIT makes the invariant hold, whatever held before it (R122). -/
theorem initState_derivedCurrent (fs : F) (s : State) : DerivedCurrent (initState fs s) :=
  (derivedCurrent_iff _).2 fun _ => ⟨rfl, rfl⟩

/-- SET_RM_RATE computes RM_INCR anew from the rate it stores (R262). -/
theorem setRmRate_derivedCurrent (f : Fields) (s : State) (hs : DerivedCurrent s) :
    DerivedCurrent (body (.setRmRate f) s) :=
  (derivedCurrent_iff _).2 fun hready => ⟨((derivedCurrent_iff s).1 hs hready).1, rfl⟩

theorem body_derivedCurrent (i : Instr) (s : State) (hs : DerivedCurrent s) : DerivedCurrent (body i s) := by
  cases i with
  | init f => exact initState_derivedCurrent _ s
  | setRmRate f => exact setRmRate_derivedCurrent f s hs
  | _ => exact hs.of_sameRate (body_sameRate _ s nofun) (body_rm_rate_incr _ s nofun nofun)

/-- Settles O55: true at power-on, where READY is 0, and every part of a step keeps it. -/
theorem stepKeepsDerivedConstantsCurrent : Obligations.StepKeepsDerivedConstantsCurrent := by
  refine ⟨powerOn_derivedCurrent, step_keeps DerivedCurrent ?pending ?raise ?respond ?bus ?body⟩
  case pending => exact fun _ _ hs => hs
  case raise => exact fun s e hs => hs.of_sameRate (raise_sameRate s e) ⟨rfl, rfl⟩
  case respond => exact fun s w hs => hs.of_sameRate (respond_sameRate s w) (by simp)
  case bus => exact fun a s hs => hs.of_sameRate (busAccess_sameRate a s) (by rw [busAccess_rm]; exact ⟨rfl, rfl⟩)
  case body => exact fun i s _ hs => body_derivedCurrent i s hs

end Sys2Proof.Machine
end

section
/-! The coefficient registers follow TEMP_CUTOFF and RESONANCE, and the settlement of O54. -/

namespace Sys2Proof.Machine

/-! ## The coefficients (47_filter.md R280, R281) -/

/-- Filter registers as UpdateCoeffs leaves them have the invariant, whatever they were before. -/
theorem CoeffsCurrent.of_update {s : State} {x : FilterRegs} (h : s.filt = updateCoeffs s.cfg s.rate.fs x) :
    CoeffsCurrent s := by
  intro _
  rw [h]
  rfl

/-- A state with the same sample rate, READY and filter registers has the invariant too. -/
theorem CoeffsCurrent.of_sameRate {s t : State} (hs : CoeffsCurrent s) (h : SameRate s t) (hf : t.filt = s.filt) :
    CoeffsCurrent t := by
  unfold CoeffsCurrent
  rw [h.cfg, h.rate, h.ready, hf]
  exact hs

theorem powerOn_coeffsCurrent (c : Config) (m : Memory) : CoeffsCurrent (State.powerOn c m) :=
  fun hready => absurd hready (by decide : ¬(0 : Word).getLsbD 31 = true)

/-! ## FILT_BLOCK (R288, R289): a sweep step ends with UpdateCoeffs, and filtering a sample leaves the filter registers -/

theorem sweepStep_coeffsCurrent (s : State) : CoeffsCurrent (sweepStep s) := .of_update rfl

theorem filtChannel_coeffsCurrent (i c : Nat) (s : State) (hs : CoeffsCurrent s) : CoeffsCurrent (filtChannel i c s) :=
  hs.of_sameRate ⟨rfl, rfl, rfl⟩ rfl

theorem filtFrame_coeffsCurrent (nc i : Nat) (s : State) (hs : CoeffsCurrent s) : CoeffsCurrent (filtFrame nc i s) := by
  refine forUpTo_keep _ _ _ _ ?_ fun c t _ ht => filtChannel_coeffsCurrent i c t ht
  split
  · exact sweepStep_coeffsCurrent s
  · exact hs

/-! ## Every command -/

/-- The commands that write filter registers (10_state.md R37). -/
def writesFilter (op : Opcode) : Bool :=
  match op with
  | .init | .setCutoff | .setResonance | .setLfoEnable | .filtBlock => true
  | _ => false

theorem body_filt (i : Instr) (s : State) (h : writesFilter i.opcode = false) : (body i s).filt = s.filt := by
  cases i with
  | init f | setCutoff f | setResonance f | setLfoEnable f | filtBlock f => exact absurd h nofun
  | get f => dsimp only [body]; split <;> simp
  | voiceRelease f => dsimp only [body]; split_ifs <;> rfl
  | voiceKill f | voiceGlide f => dsimp only [body]; split <;> rfl
  | lfoPeek f => simp [body, lfoPeek]
  | rmBlock f => dsimp only [body]; rw [(rmApply_writes _ _ s).frame]
  | synthBlock f => dsimp only [body]; rw [(synthBlock_frame _ _ s).1]
  | _ => rfl

theorem body_coeffsCurrent (i : Instr) (s : State) (hs : CoeffsCurrent s) : CoeffsCurrent (body i s) := by
  cases i with
  | init f | setCutoff f | setResonance f => exact .of_update rfl
  | setLfoEnable f =>
    dsimp only [body]
    split
    · exact .of_update rfl
    · exact hs.of_sameRate ⟨rfl, rfl, rfl⟩ rfl
  | filtBlock f => exact forUpTo_keep _ _ _ _ hs fun i t _ ht => filtFrame_coeffsCurrent _ i t ht
  | _ => exact hs.of_sameRate (body_sameRate _ s nofun) (body_filt _ s rfl)

/-- Settles O54: true at power-on, where READY is 0, and every part of a step keeps it. -/
theorem stepKeepsCoefficientsCurrent : Obligations.StepKeepsCoefficientsCurrent := by
  refine ⟨powerOn_coeffsCurrent, step_keeps CoeffsCurrent ?pending ?raise ?respond ?bus ?body⟩
  case pending => exact fun _ _ hs => hs
  case raise => exact fun s e hs => hs.of_sameRate (raise_sameRate s e) rfl
  case respond => exact fun s w hs => hs.of_sameRate (respond_sameRate s w) (s.respond_filt w)
  case bus => exact fun a s hs => hs.of_sameRate (busAccess_sameRate a s) (by rw [(busAccess_frame a s).1])
  case body => exact fun i s _ hs => body_coeffsCurrent i s hs

end Sys2Proof.Machine
end

section
/-! GET of the global and channel registers, and the settlement of O14. -/

namespace Sys2Proof.Machine

open Sys2Proof.Claims

/-! ## GET (40_control.md R126) -/

/-- A selector byte as ARG has ARG[31:8] = 0. -/
theorem extractHigh_setWidth (b : BitVec 8) : (b.setWidth 32).extractLsb' 8 24 = 0 :=
  BitVec.eq_of_getLsbD_eq fun k _ => by simp [BitVec.getLsbD_of_ge]

/-- The ARG of a selector byte selects its register (10_state.md R54). -/
theorem selector_of_arg {f : Fields} {r : Selector} (h : f.arg = r.code.setWidth 32) : f.selector = some r := by
  have hlow : (r.code.setWidth 32).extractLsb' 0 8 = r.code := by grind
  unfold Fields.selector
  rw [h, if_pos (extractHigh_setWidth r.code), hlow, Selector.ofCode_code]

/-- A GET executes when SLOT is one its selector takes (30_encoding.md R92). -/
theorem rejection_get {s : State} {f : Fields} {r : Selector} (h : Admitted s f) (hr : f.selector = some r)
    (hslot : f.slot.toNat < r.slotCount s.cfg) : s.rejection .get f = none := by
  obtain ⟨hready, hrsv⟩ := h
  refine (s.rejection_none_iff .get f).2 ⟨.inl hready, hrsv, ?_, nofun⟩
  simp [formatOK, Opcode.format, hr, hslot]

theorem respond_respondedWith (s : State) (w : Word) : RespondedWith w s (s.respond w) := by
  rcases s.respond_cases w with ⟨hroom, h⟩ | ⟨hfull, h⟩
  · exact ⟨fun _ => h, fun hfull => by omega⟩
  · exact ⟨fun hroom => by omega, fun _ => h⟩

/-- GET answers the register of its selector, for every SLOT the selector takes. -/
theorem getAnswers_register (s : State) (r : Selector) (k : Nat) (hk : k < r.slotCount s.cfg) :
    GetAnswers s r.code k (s.register k r) := by
  rintro f hadm rfl harg
  have hr := selector_of_arg harg
  refine ⟨_, exec_runs (.get f) s (rejection_get hadm hr hk), ?_⟩
  have hbody : body (.get f) s = s.respond (s.register f.slot.toNat r) := by simp only [body, hr, operandSlot]
  rw [hbody]
  exact respond_respondedWith s _

/-! ## ACTIVE_MASK (10_state.md R40) -/

/-- The sum that ACTIVE_MASK is: 2^k for every k < n without `p k`. -/
def maskSum (p : Nat → Prop) [DecidablePred p] (n : Nat) : Nat :=
  (List.range n).foldl (fun m k => if p k then m else m + 2 ^ k) 0

section
variable (p : Nat → Prop) [DecidablePred p] (n : Nat)

theorem maskSum_succ : maskSum p (n + 1) = if p n then maskSum p n else maskSum p n + 2 ^ n := by
  simp [maskSum, List.range_succ]

theorem maskSum_lt : maskSum p n < 2 ^ n := by
  induction n with
  | zero => exact Nat.one_pos
  | succ n ih => rw [maskSum_succ]; split <;> omega

/-- Each power is added once and above the sum so far, so no carry reaches a bit. -/
theorem testBit_maskSum (k : Nat) : (maskSum p n).testBit k = (decide (k < n) && decide (¬p k)) := by
  induction n with
  | zero => simp [maskSum]
  | succ n ih =>
    have hlt := maskSum_lt p n
    rcases Nat.lt_trichotomy k n with hk | rfl | hk
    · have hbit : (maskSum p (n + 1)).testBit k = (maskSum p n).testBit k := by
        rw [maskSum_succ]
        split
        · rfl
        · rw [Nat.add_comm, Nat.testBit_two_pow_add_gt hk]
      rw [hbit, ih]
      simp [hk, hk.trans (Nat.lt_succ_self n)]
    · rw [maskSum_succ]
      split <;> rename_i hp
      · simp [Nat.testBit_lt_two_pow hlt, hp]
      · rw [Nat.add_comm, Nat.testBit_two_pow_add_eq, Nat.testBit_lt_two_pow hlt]
        simp [hp]
    · have hbound : maskSum p (n + 1) < 2 ^ k :=
        (maskSum_lt p (n + 1)).trans_le (Nat.pow_le_pow_right Nat.two_pos hk)
      rw [Nat.testBit_lt_two_pow hbound]
      simp [show ¬k < n + 1 by omega]

end

theorem activeMask_eq (s : State) :
    s.activeMask = BitVec.ofNat 32 (maskSum (fun k => (s.voice k).state = .free) s.cfg.numVoices) := rfl

/-- Bit k of ACTIVE_MASK says whether slot k exists and is active, on a block of at most 32 slots (00_scope.md R7). -/
theorem getLsbD_activeMask (s : State) (h : s.cfg.numVoices ≤ 32) (k : Nat) :
    s.activeMask.getLsbD k = (decide (k < s.cfg.numVoices) && decide ((s.voice k).state ≠ .free)) := by
  rw [activeMask_eq, BitVec.getLsbD_ofNat, testBit_maskSum]
  by_cases hk : k < s.cfg.numVoices
  · simp [hk, hk.trans_le h]
  · simp [hk]

/-! ## The settlement -/

/-- Settles O14: each clause is `getAnswers_register` at its selector. -/
theorem getReadsTheGlobalRegisters : Obligations.GetReadsTheGlobalRegisters := by
  intro s
  have get (r : Selector) (h : r.slotCount s.cfg = 1 := by rfl) : GetAnswers s r.code 0 (s.register 0 r) :=
    getAnswers_register s r 0 (by omega)
  refine ⟨get .status, get .fs, get .attack, get .decay, get .sustain, get .release, get .bend, get .glide,
    get .rmRate, get .rmIncr, get .rmPhase, getAnswers_register s .rmPrev 0 Nat.two_pos,
    getAnswers_register s .rmPrev 1 Nat.one_lt_two, get .cutoff, get .resonance, get .tempCutoff, get .lfoEn,
    get .lfoRate, get .lfoDepth, get .lfoAcc, get .a1, get .a2, get .a3, get .b1, get .b2, fun c hc => ?_,
    get .config, fun hv => ⟨s.activeMask, get .activeMask, getLsbD_activeMask s hv⟩⟩
  exact ⟨getAnswers_register s .fdIn1 c hc, getAnswers_register s .fdIn2 c hc, getAnswers_register s .fdOut1 c hc,
    getAnswers_register s .fdOut2 c hc⟩

end Sys2Proof.Machine
end

section
/-! What a word of the encoding decodes to, and the settlement of O3. -/

namespace Sys2Proof

/-- The decoder reads a command back from its word, every field at every value (30_encoding.md R91, R95). -/
theorem decode_encode (i : Instr) : decode (encode i) = .ok i := by
  unfold decode
  rw [opcode_encode, Opcode.ofCode_code, fields_encode]
  exact congrArg Except.ok (Opcode.instr_of_instr i)

/-- And from the little-endian bytes of that word (20_memory.md R74). -/
theorem decodeBytes_encode (i : Instr) : decodeBytes (bytesOfWord (encode i)) = .ok i :=
  (decodeBytes_bytesOfWord _).trans (decode_encode i)

/-- A reserved OP byte is the byte of no opcode: the list of R96 and the opcode map R95 do not meet. -/
theorem not_reservedByte_code (o : Opcode) : ¬Claims.reservedByte o.code := by
  unfold Claims.reservedByte
  cases o <;> decide

/-- A word with a reserved OP byte is no command (30_encoding.md R96). -/
theorem decode_reserved {w : CommandWord} (h : Claims.reservedByte (w.extractLsb' 0 8)) :
    decode w = .error (.reservedOpcode (w.extractLsb' 0 8)) := by
  unfold decode
  cases ho : Opcode.ofCode (w.extractLsb' 0 8) with
  | none => rfl
  | some o =>
    rw [← Opcode.code_of_ofCode ho] at h
    exact absurd h (not_reservedByte_code o)

/-- Settles O3: each word of R102, and the byte stream, is the encoding of its command. -/
theorem workedEncodingsDecode : Obligations.WorkedEncodingsDecode :=
  ⟨decode_encode (.voiceStart { slot := 0, rsv := 0, arg := 0x43000000 }),
    decode_encode (.synthBlock { slot := 2, rsv := 0, arg := 256 }),
    decode_encode (.get { slot := 3, rsv := 0, arg := 0x21 }),
    decode_encode (.init { slot := 0, rsv := 0, arg := 0x44800000 }),
    decodeBytes_encode (.init { slot := 0, rsv := 0, arg := 0x44800000 })⟩

end Sys2Proof
end

section
/-! Which commands touch the response FIFO, and how: the settlement of O60. -/

namespace Sys2Proof.Machine

open Sys2Proof.Claims

/-! ## One response (10_state.md R51) -/

/-- As far as the FIFO goes, `t` is `s` after one response `w`: queued, or lost with RESPOVF where the FIFO is full. -/
structure PushedOnce (w : Word) (s t : State) : Prop where
  queued : s.fifo.length < s.cfg.respDepth → t.fifo = s.fifo ++ [w]
  lost   : s.cfg.respDepth ≤ s.fifo.length → t.fifo = s.fifo ∧ t.status.getLsbD 5 = true

/-- A response pushes once, whatever came before it that left the FIFO and the configuration. -/
theorem respond_pushedOnce {s u : State} (hcfg : u.cfg = s.cfg) (hfifo : u.fifo = s.fifo) (w : Word) :
    PushedOnce w s (u.respond w) := by
  have hcases := u.respond_cases w
  rw [hfifo, hcfg] at hcases
  rcases hcases with ⟨hroom, h⟩ | ⟨hfull, h⟩ <;> rw [h]
  · exact ⟨fun _ => rfl, fun hfull => by omega⟩
  · exact ⟨fun hroom => by omega, fun _ => ⟨rfl, by simp⟩⟩

/-- The non-finite check keeps RESPOVF as the response left it: it sets at most NONFINITE (60_exceptions.md R333). -/
theorem PushedOnce.checkFinite {w : Word} {s t : State} (h : PushedOnce w s t) (op : Opcode) (nc n : Nat) :
    PushedOnce w s (t.checkFinite op nc n) := by
  refine ⟨fun hroom => (t.checkFinite_fifo op nc n).trans (h.queued hroom), fun hfull => ?_⟩
  obtain ⟨hfifo, hovf⟩ := h.lost hfull
  refine ⟨(t.checkFinite_fifo op nc n).trans hfifo, ?_⟩
  rcases t.checkFinite_cases op nc n with h' | h' <;> simp [h', hovf]

/-! ## The bodies -/

theorem responds_iff_responding (i : Instr) : i.opcode.responds = true ↔ responding i := by
  unfold responding
  cases i <;> simp [Instr.opcode, Opcode.responds]

/-- No body but those of the three responding commands touches the FIFO (30_encoding.md R106). -/
theorem body_fifo (i : Instr) (s : State) (hi : ¬responding i) : (body i s).fifo = s.fifo := by
  cases i with
  | get f => exact absurd (.inl rfl) hi
  | lfoPeek f => exact absurd (.inr (.inl rfl)) hi
  | synthBlock f => exact absurd (.inr (.inr rfl)) hi
  | voiceRelease f => dsimp only [body]; split_ifs <;> rfl
  | voiceKill f | voiceGlide f | setLfoEnable f => dsimp only [body]; split <;> rfl
  | rmBlock f => dsimp only [body]; rw [(rmApply_writes _ _ s).frame]
  | filtBlock f => dsimp only [body]; rw [(filtBlock_writes _ _ s).frame]
  | _ => rfl

/-- SYNTH_BLOCK responds once, at its end: clearing, rendering, disposal and the ring modulator leave the FIFO alone
(45_render.md R240). -/
theorem synthBlock_pushedOnce (nc n : Nat) (s : State) : ∃ w, PushedOnce w s (synthBlock nc n s) := by
  have hclear := clearRegion_writes nc n s
  rcases synthBlock_cases nc n s with ⟨_, h⟩ | ⟨_, h⟩
  · exact ⟨0, h ▸ respond_pushedOnce (by rw [hclear.frame]) (by rw [hclear.frame]) 0⟩
  · have hrender := (renderSlots_writes (.buf (.refl nc n s) hclear) (waveSel s.rm) s.regList.reverse).frame
    refine ⟨1, h ▸ respond_pushedOnce ?cfg ?fifo 1⟩
    all_goals rw [(rmApply_writes nc n _).frame, disposeSlots_frame, hrender]

/-- A GET whose checks pass selects a register (30_encoding.md R92). -/
theorem selector_of_rejection_none {s : State} {f : Fields} (h : s.rejection .get f = none) :
    ∃ r, f.selector = some r := by
  obtain ⟨_, _, hformat, _⟩ := (s.rejection_none_iff .get f).1 h
  cases hsel : f.selector with
  | some r => exact ⟨r, rfl⟩
  | none => simp [formatOK, Opcode.format, hsel] at hformat

/-- The body of an accepted responding command pushes exactly one word (30_encoding.md R106). -/
theorem body_pushedOnce (i : Instr) (s : State) (hi : responding i) (hn : s.rejection i.opcode i.fields = none) :
    ∃ w, PushedOnce w s (body i s) := by
  cases i with
  | get f =>
    obtain ⟨r, hr⟩ := selector_of_rejection_none (f := f) hn
    simp only [body, hr]
    exact ⟨_, respond_pushedOnce rfl rfl _⟩
  | lfoPeek f => exact ⟨_, respond_pushedOnce (s := s) (u := (lfoPeek s).2) rfl rfl (lfoPeek s).1⟩
  | synthBlock f => exact synthBlock_pushedOnce _ _ s
  | _ => exact absurd ((responds_iff_responding _).2 hi) nofun

/-! ## Rejections (60_exceptions.md R331) -/

theorem reject_fifo {op : Opcode} (hop : op.responds = false) (s : State) (e : Event) :
    (s.reject e op).fifo = s.fifo := by
  simp [State.reject, hop]

theorem reject_pushedOnce {op : Opcode} (hop : op.responds = true) (s : State) (e : Event) :
    PushedOnce rejectWord s (s.reject e op) := by
  unfold State.reject
  rw [if_pos hop]
  exact respond_pushedOnce (s.raise_cfg e) (s.raise_fifo e) rejectWord

/-- A command whose checks pass may run at this READY and is well formed. -/
theorem accepted_of_rejection_none {i : Instr} {s : State} (h : s.rejection i.opcode i.fields = none) :
    (s.ready = true ∨ beforeInit i) ∧ wellFormed s.cfg i = true := by
  obtain ⟨hready, hrsv, hformat, _⟩ := (s.rejection_none_iff _ _).1 h
  refine ⟨hready.imp_right fun hallowed => ?_, by simp [wellFormed, hrsv, hformat]⟩
  unfold beforeInit
  cases i <;> simp_all [Instr.opcode, Instr.fields, allowedBeforeInit]

/-! ## Every command -/

theorem exec_fifo {i : Instr} {s t : State} (hi : ¬responding i) (h : exec i s = .next t) : t.fifo = s.fifo := by
  rcases exec_cases i s t h with ⟨e, _, rfl⟩ | ⟨_, _, rfl⟩ | ⟨_, _, rfl⟩
  · exact reject_fifo (Bool.eq_false_iff.2 fun hop => hi ((responds_iff_responding i).1 hop)) s e
  · exact body_fifo i s hi
  · exact (State.checkFinite_fifo ..).trans (body_fifo i s hi)

/-- A responding command pushes exactly one word, the word of a rejection where it may not run or is malformed. -/
theorem exec_pushedOnce {i : Instr} {s t : State} (hi : responding i) (h : exec i s = .next t) :
    ∃ w, PushedOnce w s t ∧ (¬(s.ready = true ∨ beforeInit i) ∨ wellFormed s.cfg i = false → w = rejectWord) := by
  rcases exec_cases i s t h with ⟨e, _, rfl⟩ | ⟨hn, _, rfl⟩ | ⟨hn, _, rfl⟩
  · exact ⟨rejectWord, reject_pushedOnce ((responds_iff_responding i).2 hi) s e, fun _ => rfl⟩
  all_goals
    obtain ⟨w, hw⟩ := body_pushedOnce i s hi hn
    obtain ⟨hmay, hwf⟩ := accepted_of_rejection_none hn
    refine ⟨w, ?_, fun hbad => absurd hbad (by simp [hmay, hwf])⟩
  · exact hw
  · exact hw.checkFinite _ _ _

/-- Settles O60: `exec_fifo` and `exec_pushedOnce` for the commands; a reserved opcode only raises BADOP. -/
theorem onlyThreeOpcodesRespondOnce : Obligations.OnlyThreeOpcodesRespondOnce := by
  refine ⟨fun i s t h => ⟨fun hi => exec_fifo hi h, fun hi hroom => ?_, fun hi hfull => ?_⟩, fun w s hw => ?_⟩
  · obtain ⟨w, hpush, hword⟩ := exec_pushedOnce hi h
    exact ⟨w, hpush.queued hroom, hword⟩
  · obtain ⟨w, hpush, _⟩ := exec_pushedOnce hi h
    exact hpush.lost hfull
  · refine ⟨rejectReserved s, ?_, rfl⟩
    unfold runCommand
    rw [decode_reserved hw]

end Sys2Proof.Machine
end

section
/-! VOICE_START followed by VOICE_RELEASE with a zero release time, and the settlement of O29. -/

namespace Sys2Proof.Machine

/-! ## VOICE_START (41_voice.md R160) -/

/-- A started slot is in attack, decay or sustain: what VOICE_RELEASE acts on. -/
theorem startedVoice_state (p : ParamRegs) (envMax : Nat) (freq : F) (v : Voice) :
    ¬((startedVoice p envMax freq v).state = .free ∨ (startedVoice p envMax freq v).state = .release) := by
  dsimp only [startedVoice]
  split_ifs <;> simp

theorem exec_voiceStart {s : State} {f : Fields} (h : RunsVoiceF s f) :
    exec (.voiceStart f) s = .next (body (.voiceStart f) s) :=
  exec_runs (.voiceStart f) s (h.rejection_none .voiceStart rfl)

theorem body_voiceStart_voice (f : Fields) (s : State) (h : f.slot.toNat < s.voices.length) :
    (body (.voiceStart f) s).voice f.slot.toNat =
      startedVoice s.params s.rate.envMaxSamples (clampFreq s f) (s.voice f.slot.toNat) :=
  s.voice_setVoice_same _ _ h

theorem body_voiceStart_voices_length (f : Fields) (s : State) :
    (body (.voiceStart f) s).voices.length = s.voices.length :=
  List.length_set

/-- An exact registry has the slot at most once, so VOICE_START appends it to a list without it (10_state.md R44). -/
theorem body_voiceStart_regList (f : Fields) (s : State) (h : RegistryExact s) :
    ∃ kept, f.slot.toNat ∉ kept ∧ (body (.voiceStart f) s).regList = kept ++ [f.slot.toNat] := by
  obtain ⟨_, hnodup, hactive⟩ := h
  refine ⟨_, ?_, rfl⟩
  split
  case isTrue hfree => exact fun hmem => ((hactive _).1 hmem).2 hfree
  case isFalse => exact hnodup.not_mem_erase

/-- After VOICE_START the slot stands in REG_LIST once, so retiring it takes it out. -/
theorem not_mem_retire_voiceStart (f : Fields) (s : State) (h : RegistryExact s) :
    f.slot.toNat ∉ ((body (.voiceStart f) s).retire f.slot.toNat).regList := by
  obtain ⟨kept, hkept, hlist⟩ := body_voiceStart_regList f s h
  simp [hlist, List.erase_append_right _ hkept, hkept]

/-! ## VOICE_RELEASE (R162) -/

theorem exec_voiceRelease {s : State} {f : Fields} (h : RunsVoice s f) :
    exec (.voiceRelease f) s = .next (body (.voiceRelease f) s) :=
  exec_runs (.voiceRelease f) s (h.rejection_none .voiceRelease (.inl rfl))

/-- With a zero release time VOICE_RELEASE retires a sounding slot at once. -/
theorem body_voiceRelease_retires {f : Fields} {s : State}
    (hstate : ¬((s.voice f.slot.toNat).state = .free ∨ (s.voice f.slot.toNat).state = .release))
    (hzero : fEq s.params.release fZero = true) : body (.voiceRelease f) s = s.retire f.slot.toNat := by
  refine (if_neg hstate).trans (if_pos ?_)
  simp [hzero]

/-- A retired slot is FREE. -/
theorem voice_retire_state (s : State) (k : Nat) (h : k < s.voices.length) : ((s.retire k).voice k).state = .free := by
  simp [State.voice_retire, h]

/-! ## The settlement -/

/-- VOICE_START keeps what lets a command on a slot execute. -/
theorem RunsVoice.voiceStart {s : State} {g : Fields} (h : RunsVoice s g) (f : Fields) :
    RunsVoice (body (.voiceStart f) s) g := by
  obtain ⟨⟨hready, hrsv⟩, hslot⟩ := h
  have hsame := body_sameRate (.voiceStart f) s nofun
  exact ⟨⟨hsame.ready.trans hready, hrsv⟩, hsame.cfg ▸ hslot⟩

/-- Settles O29: the started slot is neither FREE nor in release and RELEASE is unchanged, so VOICE_RELEASE retires it
(R163). -/
theorem startThenReleaseWithZeroReleaseFrees : Obligations.StartThenReleaseWithZeroReleaseFrees := by
  intro f g s hreg hf hrsv hslot hzero
  have ⟨⟨⟨hready, _⟩, hk⟩, _⟩ := hf
  have ⟨hcount, _, _⟩ := hreg
  have hlen : f.slot.toNat < s.voices.length := hcount.symm ▸ hk
  have hg : RunsVoice s g := ⟨⟨hready, hrsv⟩, hslot ▸ hk⟩
  have hretire : body (.voiceRelease g) (body (.voiceStart f) s) = (body (.voiceStart f) s).retire f.slot.toNat := by
    rw [← hslot]
    refine body_voiceRelease_retires ?_ hzero
    rw [hslot, body_voiceStart_voice f s hlen]
    exact startedVoice_state _ _ _ _
  refine ⟨_, _, exec_voiceStart hf, hretire ▸ exec_voiceRelease (hg.voiceStart f), ?free, ?unlisted⟩
  case free => exact voice_retire_state _ _ (by rwa [body_voiceStart_voices_length])
  case unlisted => exact not_mem_retire_voiceStart f s hreg

end Sys2Proof.Machine
end

section
/-! The samples SYNTH_BLOCK leaves in its region, what it does to the slots, and the settlement of O41. -/

namespace Sys2Proof.Machine

open Sys2Proof.Claims

/-! ## Samples of the region -/

theorem State.readBuf_writeBuf {s : State} {c i d j : Nat} (v : F) (hwf : s.buf.wf = true) (hi : i < s.cfg.maxBlock)
    (hj : j < s.cfg.maxBlock) :
    (s.writeBuf c i v).readBuf d j = if d = c ∧ j = i then v else s.readBuf d j := by
  split
  case isTrue h => rw [h.1, h.2, State.readBuf_writeBuf_same s c i v hwf]
  case isFalse h =>
    exact State.readBuf_writeBuf_other s c i d j v fun ha => h (bufAddr_injective s.cfg d j c i hj hi ha)

theorem BufWrites.cfg {k n : Nat} {s t : State} (h : BufWrites k n s t) : t.cfg = s.cfg := by rw [h.frame]

theorem RmWrites.cfg {k n : Nat} {s t : State} (h : RmWrites k n s t) : t.cfg = s.cfg := by rw [h.frame]

theorem RenderWrites.cfg {k n : Nat} {s t : State} (h : RenderWrites k n s t) : t.cfg = s.cfg := by rw [h.frame]

/-- A sample in no region is read from bytes outside the region. -/
theorem SameOutsideRegion.readBuf {k n c i : Nat} {s t : State} (h : SameOutsideRegion k n s t) (hcfg : t.cfg = s.cfg)
    (hn : n ≤ s.cfg.maxBlock) (hi : i < s.cfg.maxBlock) (hout : k ≤ c ∨ n ≤ i) : t.readBuf c i = s.readBuf c i := by
  have hbyte : ∀ b, b < 4 → t.buf.readByte (bufAddr s.cfg c i + b) = s.buf.readByte (bufAddr s.cfg c i + b) := by
    refine fun b hb => h _ fun d j hd hj => ?_
    have hne : bufAddr s.cfg c i ≠ bufAddr s.cfg d j := fun ha => by
      obtain ⟨rfl, rfl⟩ := bufAddr_injective s.cfg c i d j hi (by omega) ha
      omega
    have := bufAddr_apart s.cfg c i d j
    omega
  unfold State.readBuf Memory.readWord
  rw [hcfg, hbyte 3 (by omega), hbyte 2 (by omega), hbyte 1 (by omega)]
  exact congrArg _ (hbyte 0 (by omega))

/-! ## Clearing (45_render.md R240) -/

/-- The samples before (c, i), channel by channel, are +0.0. -/
def ClearedBefore (n c i : Nat) (t : State) : Prop := ∀ d j, j < n → d < c ∨ d = c ∧ j < i → t.readBuf d j = fZero

theorem ClearedBefore.write {n c i : Nat} {t : State} (h : ClearedBefore n c i t) (hwf : t.buf.wf = true)
    (hn : n ≤ t.cfg.maxBlock) (hi : i < n) : ClearedBefore n c (i + 1) (t.writeBuf c i fZero) := by
  intro d j hj hbefore
  rw [State.readBuf_writeBuf _ hwf (by omega) (by omega)]
  split
  · rfl
  · exact h d j hj (by omega)

theorem clearRegion_readBuf {nc n c i : Nat} {s : State} (hwf : s.buf.wf = true) (hn : n ≤ s.cfg.maxBlock)
    (hc : c < nc) (hi : i < n) : (clearRegion nc n s).readBuf c i = fZero := by
  have hall : BufWrites nc n s (clearRegion nc n s) ∧ ClearedBefore n nc 0 (clearRegion nc n s) := by
    refine forUpTo_induct (fun d t => BufWrites nc n s t ∧ ClearedBefore n d 0 t) nc _ s
      ⟨.refl _ _ _, fun _ _ _ h => by omega⟩ fun d t hd ht => ?_
    obtain ⟨hw, hz⟩ := forUpTo_induct (fun j u => BufWrites nc n s u ∧ ClearedBefore n d j u) n
      (fun j u => u.writeBuf d j fZero) t ht fun j u hj ⟨hw, hz⟩ =>
        ⟨hw.write d j _ hd hj, hz.write (hw.wf hwf) (hw.cfg ▸ hn) hj⟩
    exact ⟨hw, fun e j hj hbefore => hz e j hj (by omega)⟩
  exact hall.2 c i hi (.inl hc)

/-! ## One slot over the block (R241–R243) -/

/-- Adding y to frame i of the region. -/
theorem addToChannels_readBuf {nc i c j : Nat} {s : State} (y : F) (hwf : s.buf.wf = true) (hi : i < s.cfg.maxBlock)
    (hj : j < s.cfg.maxBlock) :
    (addToChannels nc i y s).readBuf c j = if c < nc ∧ j = i then fAdd (s.readBuf c j) y else s.readBuf c j := by
  have hall := forUpTo_induct
    (fun d t => BufWrites nc (i + 1) s t ∧
      ∀ c j, j < s.cfg.maxBlock → t.readBuf c j = if c < d ∧ j = i then fAdd (s.readBuf c j) y else s.readBuf c j)
    nc (fun d t => t.writeBuf d i (fAdd (t.readBuf d i) y)) s ⟨.refl _ _ _, by simp⟩ ?step
  case step =>
    refine fun d t hd ⟨hw, hread⟩ => ⟨hw.write d i _ hd (by omega), fun c j hj => ?_⟩
    rw [State.readBuf_writeBuf _ (hw.wf hwf) (by rwa [hw.cfg]) (by rwa [hw.cfg]), hread d i hi, hread c j hj]
    by_cases hsame : c = d ∧ j = i
    · obtain ⟨rfl, rfl⟩ := hsame
      simp
    · rw [if_neg hsame]
      exact if_congr (by omega) rfl rfl
  exact hall.2 c j hj

/-- A sample with what a slot adds to it, if anything. -/
def addSlot (sum : F) (adds : Option F) : F := adds.elim sum (fAdd sum)

theorem mixAt_eq_foldl (s : State) (w : Wave) (i : Nat) :
    mixAt s w i = s.regList.reverse.foldl (fun sum k => addSlot sum (slotAdds s w k i)) fZero := by
  unfold mixAt
  congr 1
  funext sum k
  cases slotAdds s w k i <;> rfl

/-- What a slot does in a block depends on its own registers, FS, BEND and the configuration. -/
theorem slotAt_congr {s t : State} {k : Nat} (hcfg : t.cfg = s.cfg) (hrate : t.rate = s.rate)
    (hparams : t.params = s.params) (hvoice : t.voice k = s.voice k) (w : Wave) (i : Nat) :
    slotAt t w k i = slotAt s w k i := by
  induction i with
  | zero => simp only [slotAt, hvoice]
  | succ i ih => simp only [slotAt, ih, hcfg, hrate, hparams]

theorem slotAdds_congr {s t : State} {k : Nat} (hcfg : t.cfg = s.cfg) (hrate : t.rate = s.rate)
    (hparams : t.params = s.params) (hvoice : t.voice k = s.voice k) (w : Wave) (i : Nat) :
    slotAdds t w k i = slotAdds s w k i := by
  simp only [slotAdds, slotAt_congr hcfg hrate hparams hvoice, hvoice, hcfg, hrate, hparams]

/-- `p` is `t` after i samples of slot k, which is not frozen. -/
structure SlotRun (nc n : Nat) (w : Wave) (k : Nat) (t : State) (i : Nat) (p : State × Bool) : Prop where
  writes : RenderWrites nc n t p.1
  slot   : (p.1.voice k, p.2) = slotAt t w k i
  others : ∀ j, j ≠ k → p.1.voice j = t.voice j
  mix    : ∀ c j, c < nc → j < n →
    p.1.readBuf c j = if j < i then addSlot (t.readBuf c j) (slotAdds t w k j) else t.readBuf c j

/-- The sample of the slot in state `s`, as renderSample takes it. -/
def sampleOf (s : State) (w : Wave) (k : Nat) : SlotSample :=
  slotSample s.cfg s.rate.fs s.params.bend w (s.voice k)

theorem addToChannels_voice (nc i : Nat) (y : F) (s : State) (j : Nat) :
    (addToChannels nc i y s).voice j = s.voice j := by
  unfold State.voice
  rw [(addToChannels_writes nc (i + 1) i y s (by omega)).frame]

theorem renderSample_dead {k nc i : Nat} {w : Wave} {p : State × Bool} (h : p.2 = false) :
    renderSample k nc w i p = p := by
  simp [renderSample, h]

theorem renderSample_alive {k nc i : Nat} {w : Wave} {p : State × Bool} (h : p.2 = true) :
    (renderSample k nc w i p).2 = (sampleOf p.1 w k).alive ∧
      ∀ j, (renderSample k nc w i p).1.voice j = (p.1.setVoice k (sampleOf p.1 w k).voice).voice j := by
  unfold renderSample sampleOf
  rw [if_pos h]
  dsimp only
  split
  · exact ⟨rfl, addToChannels_voice _ _ _ _⟩
  · exact ⟨rfl, fun _ => rfl⟩

theorem renderSample_readBuf {k nc i c j : Nat} {w : Wave} {p : State × Bool} (h : p.2 = true)
    (hwf : p.1.buf.wf = true) (hc : c < nc) (hi : i < p.1.cfg.maxBlock) (hj : j < p.1.cfg.maxBlock) :
    (renderSample k nc w i p).1.readBuf c j =
      if j = i then addSlot (p.1.readBuf c j) (sampleOf p.1 w k).adds else p.1.readBuf c j := by
  unfold renderSample sampleOf
  rw [if_pos h]
  dsimp only
  split
  case h_1 y hy =>
    rw [addToChannels_readBuf (s := p.1.setVoice k _) y hwf hi hj, hy]
    simp only [hc, true_and]
    rfl
  case h_2 hy =>
    rw [hy]
    exact (ite_self _).symm

theorem SlotRun.init (nc n : Nat) (w : Wave) (k : Nat) (t : State) : SlotRun nc n w k t 0 (t, true) :=
  ⟨.refl _ _ _, rfl, fun _ _ => rfl, fun _ _ _ _ => rfl⟩

theorem SlotRun.step {nc n k i : Nat} {w : Wave} {t : State} {p : State × Bool} (h : SlotRun nc n w k t i p)
    (hwf : t.buf.wf = true) (hn : n ≤ t.cfg.maxBlock) (hk : k < t.voices.length) (hrun : frozen (t.voice k) = false)
    (hi : i < n) : SlotRun nc n w k t (i + 1) (renderSample k nc w i p) := by
  have hwrites := renderSample_writes p h.writes k w i hi
  have hslot := h.slot
  cases halive : p.2 with
  | false =>
    have hadds : slotAdds t w k i = none := by simp [slotAdds, ← hslot, halive]
    have hstay : slotAt t w k (i + 1) = slotAt t w k i := by simp [slotAt, ← hslot, halive]
    rw [renderSample_dead halive] at hwrites ⊢
    refine ⟨hwrites, hstay ▸ hslot, h.others, fun c j hc hj => ?_⟩
    rw [h.mix c j hc hj]
    by_cases hji : j = i
    · simp [hji, hadds, addSlot]
    · exact if_congr (by omega) rfl rfl
  | true =>
    have hsample : sampleOf p.1 w k = slotSample t.cfg t.rate.fs t.params.bend w (slotAt t w k i).1 := by
      rw [← hslot]
      unfold sampleOf
      rw [h.writes.frame]
    have hadds : slotAdds t w k i = (sampleOf p.1 w k).adds := by simp [slotAdds, hrun, ← hslot, halive, hsample]
    have hnext : slotAt t w k (i + 1) = ((sampleOf p.1 w k).voice, (sampleOf p.1 w k).alive) := by
      simp [slotAt, hsample, ← hslot, halive]
    obtain ⟨hmark, hvoice⟩ := renderSample_alive (k := k) (nc := nc) (i := i) (w := w) halive
    refine ⟨hwrites, ?slot, ?others, ?mix⟩
    case slot =>
      rw [hmark, hvoice, hnext, State.voice_setVoice_same _ _ _ (h.writes.length ▸ hk)]
    case others => exact fun j hj => (hvoice j).trans ((State.voice_setVoice_other _ _ _ _ hj).trans (h.others j hj))
    case mix =>
      intro c j hc hj
      have hsize : p.1.cfg.maxBlock = t.cfg.maxBlock := by rw [h.writes.cfg]
      rw [renderSample_readBuf halive (h.writes.wf hwf) hc (by omega) (by omega), ← hadds, h.mix c j hc hj]
      by_cases hji : j = i
      · simp [hji]
      · rw [if_neg hji]
        exact if_congr (by omega) rfl rfl

/-! ## The slots one after another (R244) -/

/-- `t` is `s` after slots `ks` were rendered one after another over the region, and `marked` those to dispose. -/
structure SlotsRun (nc n : Nat) (w : Wave) (ks : List Nat) (s : State) (r : State × List Nat) : Prop where
  writes   : RenderWrites nc n s r.1
  rendered : ∀ k, k ∈ ks → r.1.voice k = if frozen (s.voice k) then s.voice k else (slotAt s w k n).1
  others   : ∀ k, k ∉ ks → r.1.voice k = s.voice k
  mix      : ∀ c i, c < nc → i < n →
    r.1.readBuf c i = ks.foldl (fun sum k => addSlot sum (slotAdds s w k i)) (s.readBuf c i)
  marked   : r.2 = ks.filter fun k => disposed s w k n

/-- One slot over the whole block; a frozen one is left as it is (R242). -/
theorem renderSlot_run {nc n k : Nat} {w : Wave} {s : State} (hwf : s.buf.wf = true) (hn : n ≤ s.cfg.maxBlock)
    (hk : k < s.voices.length) :
    (renderSlot nc n w k s).2 = !disposed s w k n ∧
      (renderSlot nc n w k s).1.voice k = (if frozen (s.voice k) then s.voice k else (slotAt s w k n).1) ∧
      (∀ j, j ≠ k → (renderSlot nc n w k s).1.voice j = s.voice j) ∧
      ∀ c i, c < nc → i < n →
        (renderSlot nc n w k s).1.readBuf c i = addSlot (s.readBuf c i) (slotAdds s w k i) := by
  cases hfrozen : frozen (s.voice k) with
  | true =>
    have hskip : renderSlot nc n w k s = (s, true) := if_pos hfrozen
    rw [hskip]
    simp [disposed, slotAdds, hfrozen, addSlot]
  | false =>
    have hloop : renderSlot nc n w k s = forUpTo n (renderSample k nc w) (s, true) :=
      if_neg (Bool.eq_false_iff.1 hfrozen)
    have hrun : SlotRun nc n w k s n (renderSlot nc n w k s) :=
      hloop ▸ forUpTo_induct (SlotRun nc n w k s) n _ _ (.init nc n w k s) fun i p hi hp =>
        hp.step hwf hn hk hfrozen hi
    refine ⟨?_, ?_, hrun.others, fun c i hc hi => (hrun.mix c i hc hi).trans (if_pos hi)⟩
    · simp [disposed, hfrozen, ← hrun.slot]
    · simp [← hrun.slot]

theorem renderSlots_run {nc n : Nat} {w : Wave} {ks : List Nat} {s : State} (hwf : s.buf.wf = true)
    (hn : n ≤ s.cfg.maxBlock) (hlen : ∀ k, k ∈ ks → k < s.voices.length) (hnodup : ks.Nodup) :
    SlotsRun nc n w ks s (renderSlots nc n w ks s) := by
  induction ks generalizing s with
  | nil => exact ⟨.refl _ _ _, by simp, fun _ _ => rfl, fun _ _ _ _ => rfl, rfl⟩
  | cons k ks ih =>
    obtain ⟨hfresh, hnodup⟩ := List.nodup_cons.1 hnodup
    obtain ⟨hmark, hvoice, hothers, hmix⟩ := renderSlot_run (nc := nc) (w := w) hwf hn (hlen k List.mem_cons_self)
    have hw := renderSlot_writes (.refl nc n s) w k
    unfold renderSlots
    dsimp only
    generalize renderSlot nc n w k s = r at *
    have hframe := hw.frame
    have hrest := ih (s := r.1) (hw.wf hwf) (hw.cfg ▸ hn)
      (fun j hj => hw.length ▸ hlen j (List.mem_cons_of_mem k hj)) hnodup
    have hsame : ∀ j, j ∈ ks → r.1.voice j = s.voice j := fun j hj => hothers j fun h => hfresh (h ▸ hj)
    have hrate : r.1.rate = s.rate := by rw [hframe]
    have hparams : r.1.params = s.params := by rw [hframe]
    have hslot : ∀ j, j ∈ ks → ∀ i, slotAt r.1 w j i = slotAt s w j i := fun j hj =>
      slotAt_congr hw.cfg hrate hparams (hsame j hj) w
    refine ⟨renderSlots_writes hw w ks, fun j hj => ?_, fun j hj => ?_, fun c i hc hi => ?_, ?_⟩
    · rcases List.mem_cons.1 hj with rfl | hj
      · exact (hrest.others j hfresh).trans hvoice
      · rw [hrest.rendered j hj, hsame j hj, hslot j hj]
    · obtain ⟨hne, hj⟩ := not_or.1 (mt List.mem_cons.2 hj)
      exact (hrest.others j hj).trans (hothers j hne)
    · rw [hrest.mix c i hc hi, hmix c i hc hi, List.foldl_cons]
      exact List.foldl_ext _ _ _ fun sum j hj => by
        rw [slotAdds_congr hw.cfg hrate hparams (hsame j hj)]
    · have hdisposed : ks.filter (fun j => disposed r.1 w j n) = ks.filter fun j => disposed s w j n :=
        List.filter_congr fun j hj => by simp only [disposed, hsame j hj, hslot j hj]
      rw [hmark, hrest.marked, hdisposed, List.filter_cons]
      cases disposed s w k n <;> rfl

/-! ## Disposal (R245) -/

/-- After rendering and disposal, every slot and REG_LIST are as the block leaves them. -/
theorem disposeSlots_run {nc n : Nat} {w : Wave} {s : State} {r : State × List Nat} (hreg : RegistryExact s)
    (h : SlotsRun nc n w s.regList.reverse s r) :
    (∀ k, k ∈ s.regList → (disposeSlots r.2 r.1).voice k = slotAfter s w k n) ∧
      (∀ k, k ∉ s.regList → (disposeSlots r.2 r.1).voice k = s.voice k) ∧
        (disposeSlots r.2 r.1).regList = s.regList.filter fun k => !disposed s w k n := by
  obtain ⟨hcount, hnodup, hactive⟩ := hreg
  have hlist : r.1.regList = s.regList := by rw [h.writes.frame]
  have hmem : ∀ k, k ∈ r.2 ↔ k ∈ s.regList ∧ disposed s w k n = true := by simp [h.marked]
  refine ⟨fun k hk => ?_, fun k hk => ?_, ?_⟩
  · have hlen : k < r.1.voices.length := by rw [h.writes.length, hcount]; exact ((hactive k).1 hk).1
    rw [disposeSlots_voice, h.rendered k (List.mem_reverse.2 hk)]
    simp only [hmem, hk, hlen, true_and, and_true, disposed, slotAfter]
    cases frozen (s.voice k) <;> cases (slotAt s w k n).2 <;> rfl
  · rw [disposeSlots_voice, if_neg fun hd => hk ((hmem k).1 hd.1).1, h.others k (mt List.mem_reverse.1 hk)]
  · rw [disposeSlots_regList _ _ (hlist ▸ hnodup), hlist]
    refine List.filter_congr fun k hk => ?_
    simp [hmem, hk]

/-! ## The ring modulator (46_ring_modulator.md R265) -/

/-- The recurrence reads the RM registers, the configuration and the samples before frame i. -/
theorem rmPhaseAt_congr {s t : State} (hrm : t.rm = s.rm) (i : Nat) : rmPhaseAt t i = rmPhaseAt s i := by
  induction i with
  | zero => simp only [rmPhaseAt, hrm]
  | succ i ih => simp only [rmPhaseAt, ih, hrm]

theorem rmPrevAt_congr {s t : State} {x y : Nat → F} {i : Nat} (hcfg : t.cfg = s.cfg) (hrm : t.rm = s.rm) (c : Nat)
    (hxy : ∀ j, j < i → x j = y j) : rmPrevAt t x c i = rmPrevAt s y c i := by
  induction i with
  | zero => simp only [rmPrevAt, hrm]
  | succ i ih =>
    simp only [rmPrevAt, rmCarrierAt, ih fun j hj => hxy j (by omega), hxy i (by omega), rmPhaseAt_congr hrm, hcfg]

theorem rmAfter_congr {s t : State} {x y : Nat → Nat → F} {k n : Nat} (hcfg : t.cfg = s.cfg) (hrm : t.rm = s.rm)
    (hxy : ∀ c i, c < k → i < n → x c i = y c i) : rmAfter t x k n = rmAfter s y k n := by
  unfold rmAfter
  rw [rmPhaseAt_congr hrm, hrm]
  congr 1
  · exact ite_congr rfl (fun hk => rmPrevAt_congr hcfg hrm 0 (hxy 0 · hk)) fun _ => rfl
  · exact ite_congr rfl (fun hk => rmPrevAt_congr hcfg hrm 1 (hxy 1 · hk)) fun _ => rfl

/-- The output of one frame of a channel (R265). -/
def rmOutput (m : F) (i c : Nat) (s : State) : F :=
  fAdd (fMul (s.readBuf c i) m) (fMul s.cfg.rmFeedback (s.rm.prev c))

theorem rmChannel_readBuf {m : F} {i c d j : Nat} {s : State} (hwf : s.buf.wf = true) (hi : i < s.cfg.maxBlock)
    (hj : j < s.cfg.maxBlock) :
    (rmChannel m i c s).readBuf d j = if d = c ∧ j = i then rmOutput m i c s else s.readBuf d j :=
  State.readBuf_writeBuf _ hwf hi hj

theorem rmChannel_rm (m : F) (i c : Nat) (s : State) : (rmChannel m i c s).rm = s.rm.setPrev c (rmOutput m i c s) := rfl

/-- `t` is `s` after frame i of the first d channels, with carrier m. -/
structure RmChannelsRun (k n : Nat) (m : F) (i : Nat) (s : State) (d : Nat) (t : State) : Prop where
  writes : RmWrites k n s t
  phase  : t.rm.phase = s.rm.phase
  prev   : ∀ c, c < 2 → t.rm.prev c = if c < d then rmOutput m i c s else s.rm.prev c
  sample : ∀ c j, j < s.cfg.maxBlock →
    t.readBuf c j = if c < d ∧ j = i then rmOutput m i c s else s.readBuf c j

theorem RmChannelsRun.step {k n i d : Nat} {m : F} {s t : State} (h : RmChannelsRun k n m i s d t)
    (hwf : s.buf.wf = true) (hn : n ≤ s.cfg.maxBlock) (hk : k ≤ 2) (hi : i < n) (hd : d < k) :
    RmChannelsRun k n m i s (d + 1) (rmChannel m i d t) := by
  have hcfg := h.writes.cfg
  have hout : rmOutput m i d t = rmOutput m i d s := by
    unfold rmOutput
    rw [h.sample d i (by omega), h.prev d (by omega), hcfg]
    simp
  refine ⟨rmChannel_writes h.writes m i d hd hi, ?phase, fun c hc => ?prev, fun c j hj => ?sample⟩
  case phase => rw [rmChannel_rm, RmRegs.setPrev_phase, h.phase]
  case prev =>
    rw [rmChannel_rm, RmRegs.prev_setPrev _ _ _ _ (by omega) hc, hout, h.prev c hc]
    by_cases hsame : c = d
    · simp [hsame]
    · rw [if_neg hsame]
      exact if_congr (by omega) rfl rfl
  case sample =>
    rw [rmChannel_readBuf (h.writes.wf hwf) (by rw [hcfg]; omega) (by rwa [hcfg]), hout, h.sample c j hj]
    by_cases hsame : c = d ∧ j = i
    · simp [hsame]
    · rw [if_neg hsame]
      exact if_congr (by omega) rfl rfl

/-- `t` is `s` after i frames of the ring modulator on k channels. -/
structure RmRun (k n : Nat) (s : State) (i : Nat) (t : State) : Prop where
  writes : RmWrites k n s t
  phase  : t.rm.phase = rmPhaseAt s i
  prev   : ∀ c, c < 2 → t.rm.prev c = if c < k then rmPrevAt s (s.readBuf c) c i else s.rm.prev c
  sample : ∀ c j, c < k → j < n →
    t.readBuf c j = if j < i then rmPrevAt s (s.readBuf c) c (j + 1) else s.readBuf c j

theorem RmRun.init (k n : Nat) (s : State) : RmRun k n s 0 s :=
  ⟨.refl _ _ _, rfl, fun _ _ => (ite_self _).symm, fun _ _ _ _ => rfl⟩

theorem RmRun.step {k n i : Nat} {s t : State} (h : RmRun k n s i t) (hwf : s.buf.wf = true)
    (hn : n ≤ s.cfg.maxBlock) (hk : k ≤ 2) (hi : i < n) : RmRun k n s (i + 1) (rmFrame k i t) := by
  have hcfg := h.writes.cfg
  have hn' : n ≤ t.cfg.maxBlock := hcfg ▸ hn
  have hrun : RmChannelsRun k n (carrier t.cfg t.rm.phase) i t k
      (forUpTo k (rmChannel (carrier t.cfg t.rm.phase) i) t) :=
    forUpTo_induct (RmChannelsRun k n (carrier t.cfg t.rm.phase) i t) k _ t
      ⟨.refl _ _ _, rfl, by simp, by simp⟩ fun d u hd hu => hu.step (h.writes.wf hwf) hn' hk hi hd
  have hout : ∀ c, c < k →
      rmOutput (carrier t.cfg t.rm.phase) i c t = rmPrevAt s (s.readBuf c) c (i + 1) := by
    intro c hc
    unfold rmOutput
    rw [h.sample c i hc hi, if_neg (by omega), h.prev c (by omega), if_pos hc, h.phase, hcfg]
    rfl
  refine ⟨rmFrame_writes h.writes i hi, ?phase, fun c hc => ?prev, fun c j hc hj => ?sample⟩
  case phase =>
    unfold rmFrame rmPhaseAt
    dsimp only
    rw [hrun.phase, hrun.writes.incr, h.phase, h.writes.incr]
  case prev =>
    refine (hrun.prev c hc).trans ?_
    split
    case isTrue hck => exact hout c hck
    case isFalse hck => rw [h.prev c hc, if_neg hck]
  case sample =>
    refine (hrun.sample c j (by omega)).trans ?_
    by_cases hji : j = i
    · simp [hji, hc, hout c hc]
    · rw [if_neg (by simp [hji]), h.sample c j hc hj]
      exact if_congr (by omega) rfl rfl

theorem RmRegs.eq_of_prev {r q : RmRegs} (hrate : r.rate = q.rate) (hincr : r.incr = q.incr)
    (hphase : r.phase = q.phase) (h0 : r.prev 0 = q.prev 0) (h1 : r.prev 1 = q.prev 1) : r = q := by
  cases r
  cases q
  congr

/-- RmApply with a nonzero rate: the feedback recurrence on the channels it modulates (R265). -/
theorem rmApply_run {nc n : Nat} {s : State} (hwf : s.buf.wf = true) (hn : n ≤ s.cfg.maxBlock)
    (hrate : fEq s.rm.rate fZero = false) :
    (∀ c i, c < min nc 2 → i < n → (rmApply nc n s).readBuf c i = rmPrevAt s (s.readBuf c) c (i + 1)) ∧
      (rmApply nc n s).rm = rmAfter s s.readBuf (min nc 2) n := by
  have hloop : rmApply nc n s = forUpTo n (rmFrame (min nc 2)) s := if_neg (Bool.eq_false_iff.1 hrate)
  have hrun : RmRun (min nc 2) n s n (rmApply nc n s) :=
    hloop ▸ forUpTo_induct (RmRun (min nc 2) n s) n _ s (.init _ n s) fun i t hi ht =>
      ht.step hwf hn (Nat.min_le_right nc 2) hi
  refine ⟨fun c i hc hi => (hrun.sample c i hc hi).trans (if_pos hi), ?_⟩
  exact RmRegs.eq_of_prev hrun.writes.rate hrun.writes.incr hrun.phase (hrun.prev 0 (by omega)) (hrun.prev 1 (by omega))

/-- RmApply with a zero rate is the bypass (R261). -/
theorem rmApply_bypass {nc n : Nat} {s : State} (hrate : fEq s.rm.rate fZero = true) : rmApply nc n s = s :=
  if_pos hrate

/-! ## The mix (45_render.md R240, R244): what the slots do in a block does not depend on BUF -/

theorem slotAt_withBuf (s : State) (m : Memory) (w : Wave) (k i : Nat) :
    slotAt { s with buf := m } w k i = slotAt s w k i :=
  slotAt_congr (s := s) (t := { s with buf := m }) rfl rfl rfl rfl w i

theorem mixAt_withBuf (s : State) (m : Memory) (w : Wave) (i : Nat) : mixAt { s with buf := m } w i = mixAt s w i := by
  rw [mixAt_eq_foldl, mixAt_eq_foldl]
  exact List.foldl_ext _ _ _ fun sum k _ => congrArg (addSlot sum) <|
    slotAdds_congr (s := s) (t := { s with buf := m }) rfl rfl rfl rfl w i

theorem slotAfter_withBuf (s : State) (m : Memory) (w : Wave) (k n : Nat) :
    slotAfter { s with buf := m } w k n = slotAfter s w k n := by
  unfold slotAfter
  rw [slotAt_withBuf]
  rfl

theorem disposed_withBuf (s : State) (m : Memory) (w : Wave) (k n : Nat) :
    disposed { s with buf := m } w k n = disposed s w k n := by
  unfold disposed
  rw [slotAt_withBuf]
  rfl

/-- SYNTH_BLOCK up to the ring modulator: clearing, rendering newest first, disposal (45_render.md R240). -/
def renderedState (nc n : Nat) (w : Wave) (s : State) : State :=
  disposeSlots (renderSlots nc n w s.regList.reverse (clearRegion nc n s)).2
    (renderSlots nc n w s.regList.reverse (clearRegion nc n s)).1

theorem synthBlock_active (nc n : Nat) {s : State} (h : s.regList ≠ []) :
    synthBlock nc n s = (rmApply nc n (renderedState nc n (waveSel s.rm) s)).respond 1 :=
  (synthBlock_cases nc n s).resolve_left (fun hempty => h hempty.1) |>.2

/-- `t` holds the mix of the slots; the slots and REG_LIST are as the block leaves them. -/
structure Mixed (nc n : Nat) (w : Wave) (s t : State) : Prop where
  cfg      : t.cfg = s.cfg
  rm       : t.rm = s.rm
  wf       : t.buf.wf = true
  mix      : ∀ c i, c < nc → i < n → t.readBuf c i = mixAt s w i
  active   : ∀ k, k ∈ s.regList → t.voice k = slotAfter s w k n
  inactive : ∀ k, k ∉ s.regList → t.voice k = s.voice k
  regList  : t.regList = s.regList.filter fun k => !disposed s w k n

theorem renderedState_mixed {nc n : Nat} {w : Wave} {s : State} (hreg : RegistryExact s) (hwf : s.buf.wf = true)
    (hn : n ≤ s.cfg.maxBlock) :
    Mixed nc n w s (renderedState nc n w s) := by
  unfold renderedState
  have hclear := clearRegion_writes nc n s
  have hzero := fun c i => clearRegion_readBuf (nc := nc) (c := c) (i := i) hwf hn
  have hwf' := hclear.wf hwf
  have hframe := hclear.frame
  generalize clearRegion nc n s = u at *
  obtain ⟨m, rfl⟩ : ∃ m, u = { s with buf := m } := ⟨_, hframe⟩
  obtain ⟨hcount, hnodup, hactive⟩ := hreg
  have hrun : SlotsRun nc n w s.regList.reverse { s with buf := m } _ :=
    renderSlots_run hwf' hn
      (fun k hk => hcount ▸ ((hactive k).1 (List.mem_reverse.1 hk)).1) (List.nodup_reverse.2 hnodup)
  obtain ⟨hdone, hother, hlist⟩ := disposeSlots_run (s := { s with buf := m }) ⟨hcount, hnodup, hactive⟩ hrun
  generalize renderSlots nc n w s.regList.reverse { s with buf := m } = r at *
  have hdispose := disposeSlots_frame r.2 r.1
  have hrender := hrun.writes.frame
  refine ⟨by rw [hdispose, hrender], by rw [hdispose, hrender], ?wf, fun c i hc hi => ?mix, fun k hk => ?active, hother,
    ?regList⟩
  case wf =>
    rw [hdispose]
    exact hrun.writes.wf hwf'
  case mix =>
    have hsame : (disposeSlots r.2 r.1).readBuf c i = r.1.readBuf c i := by rw [hdispose]; rfl
    rw [hsame, hrun.mix c i hc hi, hzero c i hc hi, ← mixAt_withBuf s m, mixAt_eq_foldl]
  case active => rw [hdone k hk, slotAfter_withBuf]
  case regList => simp only [hlist, disposed_withBuf]

/-! ## The ring modulator on the mix -/

theorem Mixed.bypass {nc n : Nat} {w : Wave} {s d : State} (h : Mixed nc n w s d)
    (hrate : fEq s.rm.rate fZero = true) : rmApply nc n d = d :=
  rmApply_bypass (h.rm ▸ hrate)

/-- The ring modulator leaves the channels it does not modulate, and with a zero rate all of them (46_ring_modulator.md R261,
R265). -/
theorem Mixed.readBuf_plain {nc n c i : Nat} {w : Wave} {s d : State} (h : Mixed nc n w s d)
    (hn : n ≤ s.cfg.maxBlock) (hc : c < nc) (hi : i < n) (hplain : fEq s.rm.rate fZero = true ∨ 2 ≤ c) :
    (rmApply nc n d).readBuf c i = mixAt s w i := by
  rw [← h.mix c i hc hi]
  rcases hplain with hrate | hc2
  · rw [h.bypass hrate]
  · have hrm := rmApply_writes nc n d
    have hsize : d.cfg.maxBlock = s.cfg.maxBlock := by rw [h.cfg]
    exact hrm.outside.readBuf hrm.cfg (by omega) (by omega) (.inl (by omega))

/-- On the mix the ring modulator is the recurrence over the mix. -/
theorem Mixed.modulated {nc n : Nat} {w : Wave} {s d : State} (h : Mixed nc n w s d) (hn : n ≤ s.cfg.maxBlock)
    (hrate : fEq s.rm.rate fZero = false) :
    (∀ c i, c < min nc 2 → i < n → (rmApply nc n d).readBuf c i = rmPrevAt s (mixAt s w) c (i + 1)) ∧
      (rmApply nc n d).rm = rmAfter s (fun _ => mixAt s w) (min nc 2) n := by
  obtain ⟨hread, hrm⟩ := rmApply_run (nc := nc) h.wf (h.cfg ▸ hn) (h.rm ▸ hrate)
  refine ⟨fun c i hc hi => ?_, ?_⟩
  · rw [hread c i hc hi]
    exact rmPrevAt_congr h.cfg h.rm c fun j hj => h.mix c j (by omega) (by omega)
  · rw [hrm]
    exact rmAfter_congr h.cfg h.rm fun c i hc hi => h.mix c i (by omega) hi

/-! ## The settlement -/

/-- SYNTH_BLOCK with an active slot responds 1 after its ring modulator, and then checks for non-finite samples (R240,
60_exceptions.md R333). -/
theorem exec_synthBlock {f : Fields} {s : State} (h : RunsBlock s f) (hactive : s.regList ≠ []) :
    exec (.synthBlock f) s =
      .next (((rmApply f.slot.toNat f.arg.toNat
        (renderedState f.slot.toNat f.arg.toNat (waveSel s.rm) s)).respond 1).checkFinite .synthBlock f.slot.toNat
          f.arg.toNat) := by
  rw [← synthBlock_active _ _ hactive]
  exact exec_runs (.synthBlock f) s (h.rejection_none .synthBlock rfl)

/-- Neither a response nor the non-finite check touches BUF or the slots. -/
theorem respond_checkFinite_readBuf (s : State) (r : Word) (op : Opcode) (nc n c i : Nat) :
    ((s.respond r).checkFinite op nc n).readBuf c i = s.readBuf c i := by
  simp [State.readBuf]

theorem respond_checkFinite_voice (s : State) (r : Word) (op : Opcode) (nc n k : Nat) :
    ((s.respond r).checkFinite op nc n).voice k = s.voice k := by
  simp [State.voice]

/-- Settles O41: the ring modulator runs on the mix the slots leave (`renderedState_mixed`), or is bypassed. -/
theorem synthBlockMixesTheSlots : Obligations.SynthBlockMixesTheSlots := by
  intro f s hruns hwf hreg hne nc n w
  have ⟨_, _, hn⟩ := hruns
  have hmixed : Mixed nc n w s (renderedState nc n w s) := renderedState_mixed hreg hwf hn
  have hframe := (rmApply_writes nc n (renderedState nc n w s)).frame
  have hvoice : ∀ k, (rmApply nc n (renderedState nc n w s)).voice k = (renderedState nc n w s).voice k := fun k => by
    rw [hframe]; rfl
  refine ⟨_, exec_synthBlock hruns hne, fun c i hc hi hplain => ?plain, fun c i hc hi hrate => ?modulated, ?rm,
    fun k hk => ?active, fun k hk => ?inactive, ?regList⟩
  case plain => exact (respond_checkFinite_readBuf ..).trans (hmixed.readBuf_plain hn hc hi hplain)
  case modulated => exact (respond_checkFinite_readBuf ..).trans ((hmixed.modulated hn hrate).1 c i hc hi)
  case rm =>
    rw [State.checkFinite_rm, State.respond_rm]
    cases hrate : fEq s.rm.rate fZero with
    | true => exact (congrArg State.rm (hmixed.bypass hrate)).trans hmixed.rm
    | false => exact (hmixed.modulated hn hrate).2
  case active => exact (respond_checkFinite_voice ..).trans ((hvoice k).trans (hmixed.active k hk))
  case inactive => exact (respond_checkFinite_voice ..).trans ((hvoice k).trans (hmixed.inactive k hk))
  case regList =>
    rw [State.checkFinite_regList, State.respond_regList]
    exact (congrArg State.regList hframe).trans hmixed.regList

end Sys2Proof.Machine
end

section
/-! The ring modulator's bypass (46_ring_modulator.md R261, R268): at a zero rate neither RmApply nor the non-finite check
does anything; and the settlement of O39. -/

namespace Sys2Proof.Machine

/-- At a zero rate RM_BLOCK processes no channel (60_exceptions.md R333). -/
theorem State.checkedChannels_rmBlock_bypass {s : State} (hrate : fEq s.rm.rate fZero = true) (nc : Nat) :
    s.checkedChannels .rmBlock nc = 0 :=
  if_pos hrate

/-- A region of no channels holds no sample. -/
theorem State.regionNonFinite_zero (s : State) (n : Nat) : s.regionNonFinite 0 n = false := rfl

/-- The non-finite check flags nothing where it looks at no channel, whatever BUF holds. -/
theorem State.checkFinite_of_no_channel {s : State} {op : Opcode} {nc : Nat} (h : s.checkedChannels op nc = 0) (n : Nat) :
    s.checkFinite op nc n = s := by
  unfold State.checkFinite
  rw [h, s.regionNonFinite_zero]
  exact if_neg Bool.false_ne_true

/-- RM_BLOCK whose checks pass is RmApply followed by the non-finite check (R264). -/
theorem exec_rmBlock {f : Fields} {s : State} (h : RunsBlock s f) :
    exec (.rmBlock f) s =
      .next ((rmApply f.slot.toNat f.arg.toNat s).checkFinite .rmBlock f.slot.toNat f.arg.toNat) :=
  exec_runs (.rmBlock f) s (h.rejection_none .rmBlock rfl)

/-- Settles O39: RmApply returns the state it is given (`rmApply_bypass`), and the check that follows looks at no
channel, so that a NaN already in BUF does not raise NONFINITE either. -/
theorem rmBypassIsBitIdentical : Obligations.RmBypassIsBitIdentical := by
  intro f s hruns hrate
  have hbypass : rmApply f.slot.toNat f.arg.toNat s = s := rmApply_bypass hrate
  have hcheck : s.checkFinite .rmBlock f.slot.toNat f.arg.toNat = s :=
    State.checkFinite_of_no_channel (State.checkedChannels_rmBlock_bypass hrate _) _
  exact ⟨by rw [exec_rmBlock hruns, hbypass, hcheck], hbypass⟩

end Sys2Proof.Machine
end

section
/-! The filter (47_filter.md): SET_CUTOFF and SET_RESONANCE, FILT_BLOCK as a difference equation on each channel, and
the settlement of O19 and O40. -/

namespace Sys2Proof.Machine

open Sys2Proof.Claims

/-! ## The parameters (R280, R281, R284, R285) -/

/-- UpdateCoeffs with the formula of R280 written out. -/
theorem updateCoeffs_eq (cfg : Config) (fs : F) (x : FilterRegs) :
    updateCoeffs cfg fs x =
      let c := fDiv fOne (tanF cfg (fDiv (fMul 0x40490FDB x.tempCutoff) fs))
      let a1 := fDiv fOne (fAdd (fAdd fOne (fMul x.resonance c)) (fMul c c))
      { x with
        a1 := a1
        a2 := fMul fTwo a1
        a3 := a1
        b1 := fMul (fMul fTwo (fSub fOne (fMul c c))) a1
        b2 := fMul (fAdd (fSub fOne (fMul x.resonance c)) (fMul c c)) a1 } := rfl

theorem exec_setCutoff {f : Fields} {s : State} (h : RunsGlobalF s f) :
    exec (.setCutoff f) s =
      .next { s with
        filt := updateCoeffs s.cfg s.rate.fs
          { s.filt with
            cutoff := fClamp f.arg s.cfg.filterMinCutoff s.rate.nyqLimit
            tempCutoff := fClamp f.arg s.cfg.filterMinCutoff s.rate.nyqLimit } } :=
  exec_runs (.setCutoff f) s (h.rejection_none .setCutoff rfl)

theorem exec_setResonance {f : Fields} {s : State} (h : RunsGlobalF s f) :
    exec (.setResonance f) s =
      .next { s with
        filt := updateCoeffs s.cfg s.rate.fs
          { s.filt with resonance := fClamp f.arg s.cfg.resMin s.cfg.resMax } } :=
  exec_runs (.setResonance f) s (h.rejection_none .setResonance rfl)

/-- Settles O19: both commands end with UpdateCoeffs, which is the formula of R280 (`updateCoeffs_eq`). -/
theorem filterParametersRecomputeCoefficients : Obligations.FilterParametersRecomputeCoefficients := by
  intro f s hruns coeffs cut res
  constructor
  · rw [exec_setCutoff hruns, updateCoeffs_eq]
  · rw [exec_setResonance hruns, updateCoeffs_eq]

/-! ## The non-finite check (60_exceptions.md R333) -/

@[simp] theorem State.checkFinite_readBuf (s : State) (op : Opcode) (nc n c i : Nat) :
    (s.checkFinite op nc n).readBuf c i = s.readBuf c i := by
  simp [State.readBuf]

@[simp] theorem State.checkFinite_delay (s : State) (op : Opcode) (nc n c : Nat) :
    (s.checkFinite op nc n).delay c = s.delay c := by
  simp [State.delay]

/-- The non-finite check adds NONFINITE for the channels it looks at, and does nothing else. -/
theorem State.checkFinite_flags (s : State) (op : Opcode) (nc n : Nat) :
    FlagsNonFinite (s.checkedChannels op nc) n s.status (s.checkFinite op nc n) := by
  simp only [FlagsNonFinite, State.checkFinite_readBuf]
  cases hregion : s.regionNonFinite (s.checkedChannels op nc) n with
  | true => exact .inl ⟨(s.regionNonFinite_iff _ _).1 hregion, by simp [State.checkFinite, hregion, Event.mask]⟩
  | false =>
    refine .inr ⟨fun c i hc hi => Bool.eq_true_of_not_eq_false fun hbad => ?_, by simp [State.checkFinite, hregion]⟩
    exact Bool.eq_false_iff.1 hregion ((s.regionNonFinite_iff _ _).2 ⟨c, i, hc, hi, hbad⟩)

theorem State.checkFinite_frame (s : State) (op : Opcode) (nc n : Nat) :
    s.checkFinite op nc n = { s with status := (s.checkFinite op nc n).status } := by
  rcases s.checkFinite_cases op nc n with h | h <;> rw [h]

/-! ## The sweeps (R289, R290) -/

/-- What a frame does before its channels: a sweep step while the LFO runs. -/
def frameSweep (s : State) : State := if s.lfo.en then sweepStep s else s

theorem filtFrame_eq (nc i : Nat) (s : State) : filtFrame nc i s = forUpTo nc (filtChannel i) (frameSweep s) := rfl

/-- The sweep neither reads nor writes BUF and FD. -/
theorem frameSweep_withBufDelays (s : State) (m : Memory) (ds : List Delay) :
    frameSweep { s with buf := m, delays := ds } = { frameSweep s with buf := m, delays := ds } := by
  unfold frameSweep
  split <;> rfl

theorem frameSweep_frame (s : State) :
    frameSweep s = { s with filt := (frameSweep s).filt, lfo := (frameSweep s).lfo } := by
  unfold frameSweep
  split <;> rfl

theorem frameSweep_readBuf (s : State) (c i : Nat) : (frameSweep s).readBuf c i = s.readBuf c i := by
  rw [frameSweep_frame]; rfl

theorem frameSweep_delay (s : State) (c : Nat) : (frameSweep s).delay c = s.delay c := by rw [frameSweep_frame]; rfl

/-- `s` after the sweeps of i frames. -/
def sweptFrames (s : State) (i : Nat) : State := if s.lfo.en then sweptState s i else s

theorem sweptFrames_on {s : State} (h : s.lfo.en = true) (i : Nat) : sweptFrames s i = sweptState s i := if_pos h

theorem sweptFrames_off {s : State} (h : s.lfo.en = false) (i : Nat) : sweptFrames s i = s := by simp [sweptFrames, h]

theorem sweptFrames_zero (s : State) : sweptFrames s 0 = s := ite_self s

theorem sweptState_lfo_en (s : State) (i : Nat) : (sweptState s i).lfo.en = s.lfo.en := by
  induction i with
  | zero => rfl
  | succ i ih => exact ih

theorem sweptFrames_succ (s : State) (i : Nat) : sweptFrames s (i + 1) = frameSweep (sweptFrames s i) := by
  cases hen : s.lfo.en with
  | true =>
    rw [sweptFrames_on hen, sweptFrames_on hen, frameSweep, if_pos ((sweptState_lfo_en s i).trans hen)]
    rfl
  | false => rw [sweptFrames_off hen, sweptFrames_off hen, frameSweep, hen]; rfl

/-- Frame i is filtered with the coefficients its own sweep leaves. -/
theorem filterAt_eq (s : State) (i : Nat) : filterAt s i = (sweptFrames s (i + 1)).filt :=
  (apply_ite State.filt _ _ _).symm

/-! ## One frame (R287, R288) -/

/-- The output of FilterStep for frame i of channel c (R287). -/
def filtOutput (i c : Nat) (s : State) : F := filterOutput s.filt (s.delay c) (s.readBuf c i)

/-- FD[c] after FilterStep for frame i. -/
def filtDelay (i c : Nat) (s : State) : Delay := (s.delay c).shift (s.readBuf c i) (filtOutput i c s)

theorem filtChannel_readBuf {i c d j : Nat} {s : State} (hwf : s.buf.wf = true) (hi : i < s.cfg.maxBlock)
    (hj : j < s.cfg.maxBlock) :
    (filtChannel i c s).readBuf d j = if d = c ∧ j = i then filtOutput i c s else s.readBuf d j :=
  State.readBuf_writeBuf (s := s.setDelay c _) _ hwf hi hj

theorem filtChannel_delay {i c : Nat} {s : State} (hc : c < s.delays.length) (d : Nat) :
    (filtChannel i c s).delay d = if d = c then filtDelay i c s else s.delay d := by
  refine (State.delay_setDelay s c d _).trans (if_congr ?_ rfl rfl)
  exact ⟨fun h => h.1.symm, fun h => ⟨h.symm, hc⟩⟩

/-- `t` is `s` after frame i of the first d channels. -/
structure FiltChannelsRun (k n i : Nat) (s : State) (d : Nat) (t : State) : Prop where
  writes : FiltWrites k n s t
  frame  : t = { s with buf := t.buf, delays := t.delays }
  delay  : ∀ c, t.delay c = if c < d then filtDelay i c s else s.delay c
  sample : ∀ c j, j < s.cfg.maxBlock →
    t.readBuf c j = if c < d ∧ j = i then filtOutput i c s else s.readBuf c j

theorem FiltChannelsRun.init (k n i : Nat) (s : State) : FiltChannelsRun k n i s 0 s :=
  ⟨.refl _ _ _, rfl, by simp, by simp⟩

theorem FiltChannelsRun.step {k n i d : Nat} {s t : State} (h : FiltChannelsRun k n i s d t) (hwf : s.buf.wf = true)
    (hn : n ≤ s.cfg.maxBlock) (hk : k ≤ s.delays.length) (hi : i < n) (hd : d < k) :
    FiltChannelsRun k n i s (d + 1) (filtChannel i d t) := by
  have hcfg : t.cfg = s.cfg := by rw [h.frame]
  have hfilt : t.filt = s.filt := by rw [h.frame]
  have hread : t.readBuf d i = s.readBuf d i := by simp [h.sample d i (by omega)]
  have hdelay : t.delay d = s.delay d := by simp [h.delay d]
  have hout : filtOutput i d t = filtOutput i d s := by rw [filtOutput, hfilt, hread, hdelay]; rfl
  have hshift : filtDelay i d t = filtDelay i d s := by rw [filtDelay, hout, hread, hdelay]; rfl
  refine ⟨filtChannel_writes h.writes i d hd hi, ?frame, fun c => ?delay, fun c j hj => ?sample⟩
  case frame => rw [filtChannel_frame, h.frame]
  case delay =>
    rw [filtChannel_delay (by have := h.writes.delays; omega), hshift, h.delay c]
    by_cases hsame : c = d
    · simp [hsame]
    · rw [if_neg hsame]
      exact if_congr (by omega) rfl rfl
  case sample =>
    rw [filtChannel_readBuf (h.writes.wf hwf) (by rw [hcfg]; omega) (by rwa [hcfg]), hout, h.sample c j hj]
    by_cases hsame : c = d ∧ j = i
    · simp [hsame]
    · rw [if_neg hsame]
      exact if_congr (by omega) rfl rfl

/-! ## All frames -/

/-- `t` is `s` after i frames of FILT_BLOCK. -/
structure FiltRun (nc n : Nat) (s : State) (i : Nat) (t : State) : Prop where
  writes : FiltWrites nc n s t
  swept  : t = { sweptFrames s i with buf := t.buf, delays := t.delays }
  delay  : ∀ c, t.delay c = if c < nc then delayAt s c i else s.delay c
  sample : ∀ c j, c < nc → j < n → t.readBuf c j = if j < i then (delayAt s c (j + 1)).out1 else s.readBuf c j

theorem FiltRun.init (nc n : Nat) (s : State) : FiltRun nc n s 0 s :=
  ⟨.refl _ _ _, by rw [sweptFrames_zero], fun _ => (ite_self _).symm, fun _ _ _ _ => rfl⟩

theorem FiltRun.frameSweep_eq {nc n i : Nat} {s t : State} (h : FiltRun nc n s i t) :
    frameSweep t = { sweptFrames s (i + 1) with buf := t.buf, delays := t.delays } := by
  rw [sweptFrames_succ, ← frameSweep_withBufDelays, ← h.swept]

theorem FiltRun.frameSweep_writes {nc n i : Nat} {s t : State} (h : FiltRun nc n s i t) :
    FiltWrites nc n s (frameSweep t) := by
  unfold frameSweep
  split
  · exact sweepStep_writes h.writes
  · exact h.writes

/-- After its sweep, frame i of channel c is one step of the difference equation (R287). -/
theorem FiltRun.filtDelay_eq {nc n i c : Nat} {s t : State} (h : FiltRun nc n s i t) (hi : i < n) (hc : c < nc) :
    filtDelay i c (frameSweep t) = delayAt s c (i + 1) := by
  have hfilt : (frameSweep t).filt = filterAt s i := by rw [h.frameSweep_eq, filterAt_eq]
  have hread : (frameSweep t).readBuf c i = s.readBuf c i := by
    rw [frameSweep_readBuf, h.sample c i hc hi, if_neg (lt_irrefl i)]
  have hdelay : (frameSweep t).delay c = delayAt s c i := by
    rw [frameSweep_delay, h.delay c, if_pos hc]
  unfold filtDelay filtOutput
  rw [hfilt, hread, hdelay]
  rfl

theorem FiltRun.step {nc n i : Nat} {s t : State} (h : FiltRun nc n s i t) (hwf : s.buf.wf = true)
    (hn : n ≤ s.cfg.maxBlock) (hnc : nc ≤ s.delays.length) (hi : i < n) :
    FiltRun nc n s (i + 1) (filtFrame nc i t) := by
  have hsweep := h.frameSweep_writes
  have hcfg : (frameSweep t).cfg = s.cfg := by rw [hsweep.frame]
  have hrun : FiltChannelsRun nc n i (frameSweep t) nc (filtFrame nc i t) := by
    rw [filtFrame_eq]
    exact forUpTo_induct (FiltChannelsRun nc n i _) nc _ _ (.init nc n i _) fun d u hd hu =>
      hu.step (hsweep.wf hwf) (hcfg ▸ hn) (hsweep.delays ▸ hnc) hi hd
  refine ⟨filtFrame_writes h.writes i hi, ?swept, fun c => ?delay, fun c j hc hj => ?sample⟩
  case swept =>
    refine hrun.frame.trans ?_
    rw [h.frameSweep_eq]
  case delay =>
    rw [hrun.delay c]
    split
    case isTrue hc => exact h.filtDelay_eq hi hc
    case isFalse hc => rw [frameSweep_delay, h.delay c, if_neg hc]
  case sample =>
    rw [hrun.sample c j (by rw [hcfg]; omega)]
    by_cases hji : j = i
    · subst hji
      rw [if_pos ⟨hc, rfl⟩, if_pos (Nat.lt_succ_self j), ← h.filtDelay_eq hj hc]
      rfl
    · rw [if_neg fun hsame => hji hsame.2, frameSweep_readBuf, h.sample c j hc hj]
      exact if_congr (by omega) rfl rfl

theorem filtBlock_run {nc n : Nat} {s : State} (hwf : s.buf.wf = true) (hn : n ≤ s.cfg.maxBlock)
    (hnc : nc ≤ s.delays.length) : FiltRun nc n s n (forUpTo n (filtFrame nc) s) :=
  forUpTo_induct (FiltRun nc n s) n _ s (.init nc n s) fun _ _ hi ht => ht.step hwf hn hnc hi

/-! ## The settlement -/

/-- The non-finite check after FILT_BLOCK changes STATUS and nothing else. -/
theorem FiltWrites.checkFinite_frame {k n : Nat} {s t : State} (h : FiltWrites k n s t) (op : Opcode) (c m : Nat) :
    t.checkFinite op c m =
      { s with
        buf := t.buf, delays := t.delays, filt := t.filt, lfo := t.lfo, status := (t.checkFinite op c m).status } := by
  refine (t.checkFinite_frame op c m).trans ?_
  generalize (t.checkFinite op c m).status = status
  rw [h.frame]

/-- FILT_BLOCK whose checks pass is its frames followed by the non-finite check (R288). -/
theorem exec_filtBlock {f : Fields} {s : State} (h : RunsBlock s f) :
    exec (.filtBlock f) s =
      .next ((forUpTo f.arg.toNat (filtFrame f.slot.toNat) s).checkFinite .filtBlock f.slot.toNat f.arg.toNat) :=
  exec_runs (.filtBlock f) s (h.rejection_none .filtBlock rfl)

/-- Settles O40: after n frames the state is that of `FiltRun`, by induction on the frames and, in a frame, on the
channels; the non-finite check that follows touches STATUS alone. -/
theorem filtBlockIsTheDifferenceEquation : Obligations.FiltBlockIsTheDifferenceEquation := by
  intro f s hruns hsound nc n
  have ⟨_, hnc, hn⟩ := hruns
  obtain ⟨hwf, _, _, hlength⟩ := hsound
  have hrun : FiltRun nc n s n (forUpTo n (filtFrame nc) s) := filtBlock_run hwf hn (hlength ▸ hnc)
  refine ⟨_, exec_filtBlock hruns, ?frame, fun c i hc hi => ?sample, fun c hc => ?delay, fun c hc => ?others,
    fun hen => ?swept, fun hen => ?static, fun a ha => ?outside, ?flags⟩
  case frame =>
    rw [State.checkFinite_buf, State.checkFinite_delays, State.checkFinite_filt, State.checkFinite_lfo]
    exact hrun.writes.checkFinite_frame .filtBlock nc n
  case sample => rw [State.checkFinite_readBuf, hrun.sample c i hc hi, if_pos hi]
  case delay => rw [State.checkFinite_delay, hrun.delay, if_pos hc]
  case others => rw [State.checkFinite_delay, hrun.delay, if_neg (by omega)]
  case swept => rw [State.checkFinite_filt, State.checkFinite_lfo, hrun.swept, sweptFrames_on hen]; exact ⟨rfl, rfl⟩
  case static => rw [State.checkFinite_filt, State.checkFinite_lfo, hrun.swept, sweptFrames_off hen]; exact ⟨rfl, rfl⟩
  case outside => rw [State.checkFinite_buf]; exact hrun.writes.outside a ha
  case flags =>
    have hstatus : (forUpTo n (filtFrame nc) s).status = s.status := by rw [hrun.writes.frame]
    exact hstatus ▸ State.checkFinite_flags _ .filtBlock nc n

end Sys2Proof.Machine
end

section
/-! LFO_PEEK (48_lfo.md R312, R313), and the settlement of O22. -/

namespace Sys2Proof.Machine

open Sys2Proof.Claims

/-- LfoPeek with the pseudocode of R313 written out: the entry is the one at the accumulator before its advance. -/
theorem lfoPeek_eq (s : State) :
    lfoPeek s =
      let idx := min 127 (floorN (fDiv s.lfo.acc s.rate.lfoSpe))
      let sum := fAdd s.lfo.acc s.lfo.rate
      let acc := if fLe s.rate.fs sum then fSub sum s.rate.fs else sum
      (s.cfg.lfoRom.getD idx 0, { s with lfo := { s.lfo with acc := acc } }) := rfl

/-- LFO_PEEK whose checks pass answers the entry that LfoPeek returns, in the state LfoPeek leaves (R312). -/
theorem exec_lfoPeek {f : Fields} {s : State} (h : RunsGlobal s f) :
    exec (.lfoPeek f) s = .next ((lfoPeek s).2.respond (lfoPeek s).1) :=
  exec_runs (.lfoPeek f) s (h.rejection_none .lfoPeek (.inl rfl))

/-- Settles O22: LFO_PEEK responds with what LfoPeek returns (`exec_lfoPeek`), which is R313 (`lfoPeek_eq`); the response
is made in the state already advanced, whose FIFO and configuration are those before. -/
theorem lfoPeekAnswersThenAdvances : Obligations.LfoPeekAnswersThenAdvances := by
  intro f s hruns idx sum acc
  refine ⟨_, exec_lfoPeek hruns, ?_⟩
  rw [lfoPeek_eq]
  exact respond_respondedWith _ _

end Sys2Proof.Machine
end

section
/-! The encoding is one-to-one (30_encoding.md R91, R95), its reserved bytes (R96), how a step fetches a command, and the
settlement of O1, O2 and O4. -/

namespace Sys2Proof

open Sys2Proof.Machine Sys2Proof.Claims

/-! ## Encoding what was decoded -/

/-- A decoded command has the opcode of the OP byte and the fields of the word (R95). -/
theorem decode_eq_ok {w : CommandWord} {i : Instr} (h : decode w = .ok i) :
    i.opcode.code = w.extractLsb' 0 8 ∧ i.fields = fieldsOfWord w := by
  unfold decode at h
  split at h
  case h_1 o ho =>
    obtain rfl := Except.ok.inj h
    exact ⟨by rw [Opcode.instr_opcode, Opcode.code_of_ofCode ho], Opcode.instr_fields _ _⟩
  case h_2 => exact absurd h nofun

/-- A word has no bit that its command does not keep (R91). -/
theorem encode_of_decode {w : CommandWord} {i : Instr} (h : decode w = .ok i) : encode i = w := by
  obtain ⟨hcode, hfields⟩ := decode_eq_ok h
  refine BitVec.eq_of_getLsbD_eq fun k hk => ?_
  rw [getLsbD_encode, hcode, hfields]
  simp only [fieldsOfWord, BitVec.getLsbD_extractLsb']
  split_ifs <;> rw [decide_eq_true (by omega), Bool.true_and] <;> congr 1 <;> omega

/-- Settles O1: `decode_encode` and its byte form one way, `encode_of_decode` the other. -/
theorem decodeOfEncode : Obligations.DecodeOfEncode :=
  ⟨fun i => ⟨decode_encode i, decodeBytes_encode i⟩, fun _ _ h => encode_of_decode h⟩

/-! ## Reserved opcodes -/

/-- The list of R96 leaves out no byte but those of the opcode map. -/
theorem ofCode_of_not_reservedByte (b : BitVec 8) (h : ¬reservedByte b) : ∃ o, Opcode.ofCode b = some o := by
  rw [← Option.isSome_iff_exists]
  unfold reservedByte at h
  revert b
  decide

theorem decode_of_not_reservedByte {w : CommandWord} (h : ¬reservedByte (w.extractLsb' 0 8)) : ∃ i, decode w = .ok i := by
  obtain ⟨o, ho⟩ := ofCode_of_not_reservedByte _ h
  exact ⟨o.instr (fieldsOfWord w), by rw [decode, ho]⟩

theorem runCommand_reserved {w : CommandWord} (h : reservedByte (w.extractLsb' 0 8)) (s : State) :
    runCommand w s = .next (rejectReserved s) := by
  rw [runCommand, decode_reserved h]

theorem runCommand_decoded {w : CommandWord} {i : Instr} (h : decode w = .ok i) (s : State) : runCommand w s = exec i s := by
  rw [runCommand, h]

/-- Settles O2: a reserved byte decodes to no command, and every other byte to one. -/
theorem reservedOpcodesOnlyRaiseBadOp : Obligations.ReservedOpcodesOnlyRaiseBadOp := by
  refine fun w s => ⟨fun h => runCommand_reserved h s, fun h => ?_⟩
  obtain ⟨i, hi⟩ := decode_of_not_reservedByte h
  exact ⟨i, hi, runCommand_decoded hi s⟩

/-! ## The step of a CMD write (20_memory.md R76) -/

/-- CMD is at address 0 on every block (R71). -/
theorem commandOf_commandWrite (c : Config) (w : CommandWord) : commandOf c (commandWrite w) = some w := rfl

theorem step_idle {s : State} (h : s.pending = []) : step s = .next s := by
  unfold step
  rw [h]

/-- A step carries out the oldest access: a write of a command word to CMD runs the command. -/
theorem step_command {s : State} {a : HostAccess} {rest : List HostAccess} {w : CommandWord} (hp : s.pending = a :: rest)
    (hc : commandOf s.cfg a = some w) : step s = runCommand w { s with pending := rest } := by
  simp only [step, hp, hc]

/-- Any other access follows the bus map. -/
theorem step_busAccess {s : State} {a : HostAccess} {rest : List HostAccess} (hp : s.pending = a :: rest)
    (hc : commandOf s.cfg a = none) : step s = .next (busAccess a { s with pending := rest }) := by
  simp only [step, hp, hc]

theorem step_commandWrite {s : State} {w : CommandWord} {i : Instr} {rest : List HostAccess}
    (hp : s.pending = commandWrite w :: rest) (hi : decode w = .ok i) : step s = exec i { s with pending := rest } :=
  (step_command hp (commandOf_commandWrite _ _)).trans (runCommand_decoded hi _)

theorem tableWord_toNat (w : CommandWord) : tableWord 64 w.toNat = w := by
  simp [tableWord, Nat.mod_eq_of_lt w.isLt]

/-- Settles O4: the access is a CMD write, so the step is `exec` of what it decodes to. -/
theorem stepRunsTheDecodedCommand : Obligations.StepRunsTheDecodedCommand := by
  refine ⟨fun s w i rest hp hi => ?_, fun s w i hi => ?_, fun s => step_idle⟩
  · rw [decodeBytes_bytesOfWord] at hi
    exact step_commandWrite hp hi
  · have hp : (s.withFetchWord 64 w.toNat).pending = commandWrite w :: s.pending := by
      rw [State.withFetchWord, tableWord_toNat]
    exact step_commandWrite hp hi

end Sys2Proof
end

section
/-! What each kind of command can change, and the settlement of O57, O58 and O59. -/

namespace Sys2Proof.Machine

/-! ## The kinds of commands -/

/-- The commands on one slot (41_voice.md): formats V, VF and VU. -/
def isVoiceCommand (op : Opcode) : Bool :=
  match op.format with
  | .v | .vf | .vu => true
  | _ => false

/-- The commands that neither set up the block nor work on a slot or on samples: at most they write registers and
respond. -/
def isRegisterCommand (op : Opcode) : Bool :=
  match op with
  | .init | .stopAll => false
  | _ => !isVoiceCommand op && !isBlockCommand op

theorem body_register_frame (i : Instr) (s : State) (h : isRegisterCommand i.opcode = true) :
    body i s =
      { s with
        status := (body i s).status, params := (body i s).params, rm := (body i s).rm, filt := (body i s).filt
        lfo := (body i s).lfo, fifo := (body i s).fifo } := by
  cases i with
  | init f | stopAll f => exact absurd h nofun
  | voiceStart f | voiceRelease f | voiceKill f | voiceSetFreq f | voiceSetVolume f | voiceSetMute f | voiceGlide f =>
    exact absurd h nofun
  | rmBlock f | filtBlock f | synthBlock f => exact absurd h nofun
  | get f =>
    dsimp only [body]
    split
    · rw [State.respond_frame]
    · rfl
  | lfoPeek f =>
    dsimp only [body]
    rw [State.respond_frame]
    rfl
  | setLfoEnable f => dsimp only [body]; split <;> rfl
  | _ => rfl

theorem body_voice_frame (i : Instr) (s : State) (h : isVoiceCommand i.opcode = true) :
    body i s = { s with voices := (body i s).voices, regList := (body i s).regList } := by
  cases i with
  | voiceStart f | voiceSetFreq f | voiceSetVolume f | voiceSetMute f => rfl
  | voiceRelease f => dsimp only [body]; split_ifs <;> rfl
  | voiceKill f | voiceGlide f => dsimp only [body]; split <;> rfl
  | _ => exact absurd h nofun

/-- The commands that write the slots or REG_LIST. -/
def writesSlots (op : Opcode) : Bool :=
  match op with
  | .init | .stopAll | .synthBlock => true
  | _ => isVoiceCommand op

theorem body_slots (i : Instr) (s : State) (h : writesSlots i.opcode = false) :
    (body i s).voices = s.voices ∧ (body i s).regList = s.regList := by
  cases i with
  | init f | stopAll f | synthBlock f => exact absurd h nofun
  | voiceStart f | voiceRelease f | voiceKill f | voiceSetFreq f | voiceSetVolume f | voiceSetMute f | voiceGlide f =>
    exact absurd h nofun
  | rmBlock f => dsimp only [body]; rw [(rmApply_writes _ _ s).frame]; exact ⟨rfl, rfl⟩
  | filtBlock f => dsimp only [body]; rw [(filtBlock_writes _ _ s).frame]; exact ⟨rfl, rfl⟩
  | _ => rw [body_register_frame _ s rfl]; exact ⟨rfl, rfl⟩

/-! ## SYNTH_BLOCK (45_render.md R240) -/

/-- Without an active slot it clears its region and responds 0; else the ring modulator runs on what rendering leaves. -/
theorem synthBlock_idle_or_active (nc n : Nat) (s : State) :
    (s.regList = [] ∧ synthBlock nc n s = (clearRegion nc n s).respond 0) ∨
      (s.regList ≠ [] ∧ synthBlock nc n s = (rmApply nc n (renderedState nc n (waveSel s.rm) s)).respond 1) :=
  synthBlock_cases nc n s

/-- Rendering and disposal change BUF in the region, the slots and REG_LIST. -/
theorem renderedState_frame (nc n : Nat) (w : Wave) (s : State) :
    renderedState nc n w s =
        { s with
          buf := (renderedState nc n w s).buf, voices := (renderedState nc n w s).voices
          regList := (renderedState nc n w s).regList } ∧
      (s.buf.wf = true → (renderedState nc n w s).buf.wf = true) ∧ SameOutsideRegion nc n s (renderedState nc n w s) := by
  have hrender := renderSlots_writes (.buf (.refl nc n s) (clearRegion_writes nc n s)) w s.regList.reverse
  unfold renderedState
  rw [disposeSlots_frame]
  exact ⟨by rw [hrender.frame], hrender.wf, hrender.outside⟩

/-! ## Buffer memory and the host's accesses (20_memory.md R75, 10_state.md R52) -/

/-- `t` has the host's accesses and replies of `s`. -/
structure SameHost (s t : State) : Prop where
  pending : t.pending = s.pending
  replies : t.replies = s.replies

theorem body_sameHost (i : Instr) (s : State) : SameHost s (body i s) := by
  cases i with
  | init f | stopAll f => exact ⟨rfl, rfl⟩
  | voiceStart f | voiceRelease f | voiceKill f | voiceSetFreq f | voiceSetVolume f | voiceSetMute f | voiceGlide f =>
    rw [body_voice_frame _ s rfl]; exact ⟨rfl, rfl⟩
  | rmBlock f => dsimp only [body]; rw [(rmApply_writes _ _ s).frame]; exact ⟨rfl, rfl⟩
  | filtBlock f => dsimp only [body]; rw [(filtBlock_writes _ _ s).frame]; exact ⟨rfl, rfl⟩
  | synthBlock f => dsimp only [body]; rw [(synthBlock_frame _ _ s).1]; exact ⟨rfl, rfl⟩
  | _ => rw [body_register_frame _ s rfl]; exact ⟨rfl, rfl⟩

theorem body_buf (i : Instr) (s : State) (h : isBlockCommand i.opcode = false) : (body i s).buf = s.buf := by
  cases i with
  | init f | stopAll f => rfl
  | voiceStart f | voiceRelease f | voiceKill f | voiceSetFreq f | voiceSetVolume f | voiceSetMute f | voiceGlide f =>
    rw [body_voice_frame _ s rfl]
  | rmBlock f | filtBlock f | synthBlock f => exact absurd h nofun
  | _ => rw [body_register_frame _ s rfl]

theorem exec_sameHost {i : Instr} {s t : State} (h : exec i s = .next t) : SameHost s t := by
  have hbody := body_sameHost i s
  rcases exec_cases i s t h with ⟨e, _, rfl⟩ | ⟨_, _, rfl⟩ | ⟨_, _, rfl⟩
  · exact ⟨s.reject_pending e _, s.reject_replies e _⟩
  · exact hbody
  · exact ⟨(State.checkFinite_pending ..).trans hbody.pending, (State.checkFinite_replies ..).trans hbody.replies⟩

theorem exec_buf {i : Instr} {s t : State} (hi : isBlockCommand i.opcode = false) (h : exec i s = .next t) :
    t.buf = s.buf := by
  rcases exec_cases i s t h with ⟨e, _, rfl⟩ | ⟨_, _, rfl⟩ | ⟨_, hblock, _⟩
  · exact s.reject_buf e _
  · exact body_buf i s hi
  · exact absurd (hi.symm.trans hblock) nofun

theorem isBlockCommand_eq_false {op : Opcode} (hsynth : op ≠ .synthBlock) (hrm : op ≠ .rmBlock)
    (hfilt : op ≠ .filtBlock) : isBlockCommand op = false := by
  cases op <;> simp_all [isBlockCommand]

/-- Settles O59: no body touches the host's accesses, and none but a block command's touches BUF. -/
theorem onlyBlockCommandsTouchBuf : Obligations.OnlyBlockCommandsTouchBuf := by
  intro i s t h
  have hhost := exec_sameHost h
  exact ⟨hhost.pending, hhost.replies, fun hsynth hrm hfilt => exec_buf (isBlockCommand_eq_false hsynth hrm hfilt) h⟩

/-! ## The sample rate, READY and the configuration (40_control.md R123, 00_scope.md R7) -/

theorem reject_sameRate (s : State) (e : Event) (op : Opcode) : SameRate s (s.reject e op) :=
  ⟨s.reject_cfg e op, s.reject_rate e op, s.ready_reject e op⟩

theorem checkFinite_sameRate (s : State) (op : Opcode) (nc n : Nat) : SameRate s (s.checkFinite op nc n) :=
  ⟨s.checkFinite_cfg op nc n, s.checkFinite_rate op nc n, s.ready_checkFinite op nc n⟩

theorem exec_sameRate {i : Instr} {s t : State} (hi : i.opcode ≠ .init) (h : exec i s = .next t) : SameRate s t := by
  rcases exec_cases i s t h with ⟨e, _, rfl⟩ | ⟨_, _, rfl⟩ | ⟨_, _, rfl⟩
  · exact reject_sameRate s e _
  · exact body_sameRate i s hi
  · exact (body_sameRate i s hi).trans (checkFinite_sameRate _ _ _ _)

/-- Settles O58: `exec_sameRate`. -/
theorem onlyInitWritesTheSampleRate : Obligations.OnlyInitWritesTheSampleRate :=
  fun _ _ _ hi h => ⟨(exec_sameRate hi h).rate, (exec_sameRate hi h).ready⟩

/-- INIT leaves READY set (R122). -/
theorem initState_ready (fs : F) (s : State) : (initState fs s).ready = true := by
  simp [State.ready, initState, initStatus, readyMask]

/-- What no step undoes: the configuration stays `c`, and READY stays set where it is. -/
structure KeepsReady (c : Config) (r : Bool) (t : State) : Prop where
  cfg   : t.cfg = c
  ready : r = true → t.ready = true

theorem KeepsReady.of_sameRate {c : Config} {r : Bool} {s t : State} (hs : KeepsReady c r s) (h : SameRate s t) :
    KeepsReady c r t :=
  ⟨h.cfg.trans hs.cfg, fun hr => h.ready.trans (hs.ready hr)⟩

theorem body_keepsReady {c : Config} {r : Bool} (i : Instr) {s : State} (hs : KeepsReady c r s) :
    KeepsReady c r (body i s) := by
  cases i with
  | init f => exact ⟨hs.cfg, fun _ => initState_ready _ s⟩
  | _ => exact hs.of_sameRate (body_sameRate _ s nofun)

theorem body_cfg (i : Instr) (s : State) : (body i s).cfg = s.cfg :=
  (body_keepsReady (c := s.cfg) (r := false) i ⟨rfl, nofun⟩).cfg

theorem step_keepsReady {c : Config} {r : Bool} {s t : State} (hs : KeepsReady c r s) (h : step s = .next t) :
    KeepsReady c r t := by
  refine step_keeps (KeepsReady c r) ?pending ?raise ?respond ?bus ?body s t hs h
  case pending => exact fun _ _ hs => ⟨hs.cfg, hs.ready⟩
  case raise => exact fun s e hs => hs.of_sameRate (raise_sameRate s e)
  case respond => exact fun s w hs => hs.of_sameRate (respond_sameRate s w)
  case bus => exact fun a s hs => hs.of_sameRate (busAccess_sameRate a s)
  case body => exact fun i s _ hs => body_keepsReady i hs

/-- Every step completes (60_exceptions.md R346). -/
theorem step_completes (s : State) : ∃ t, step s = .next t := by
  cases hp : s.pending with
  | nil => exact ⟨s, step_idle hp⟩
  | cons a rest =>
    cases hc : commandOf s.cfg a with
    | none => exact ⟨_, step_busAccess hp hc⟩
    | some w =>
      rw [step_command hp hc]
      by_cases hw : Claims.reservedByte (w.extractLsb' 0 8)
      · exact ⟨_, runCommand_reserved hw _⟩
      · obtain ⟨i, hi⟩ := decode_of_not_reservedByte hw
        rw [runCommand_decoded hi]
        exact exec_completes i _

/-- Settles O57: `step_completes`, and the state it answers keeps what `KeepsReady` says. -/
theorem stepsCompleteAndKeepReady : Obligations.StepsCompleteAndKeepReady := by
  intro s
  obtain ⟨t, ht⟩ := step_completes s
  have h : KeepsReady s.cfg s.ready t := step_keepsReady ⟨rfl, id⟩ ht
  exact ⟨t, ht, h.cfg, h.ready⟩

end Sys2Proof.Machine
end

section
/-! REG_LIST stays exactly the active slots (10_state.md R42, R44, R50), and the settlement of O50. -/

namespace Sys2Proof.Machine

/-! ## What keeps the registry exact -/

/-- The invariant depends on which slots are FREE, on their number and on REG_LIST. -/
theorem RegistryExact.of_states {s t : State} (hs : RegistryExact s) (hcfg : t.cfg = s.cfg)
    (hlength : t.voices.length = s.voices.length) (hreg : t.regList = s.regList)
    (hfree : ∀ k, (t.voice k).state = .free ↔ (s.voice k).state = .free) : RegistryExact t := by
  obtain ⟨hcount, hnodup, hactive⟩ := hs
  refine ⟨by rw [hlength, hcount, hcfg], hreg ▸ hnodup, fun k => ?_⟩
  rw [hreg, hactive k, hcfg, ne_eq, ne_eq, hfree k]

theorem RegistryExact.of_same {s t : State} (hs : RegistryExact s) (hcfg : t.cfg = s.cfg)
    (hvoices : t.voices = s.voices) (hreg : t.regList = s.regList) : RegistryExact t :=
  hs.of_states hcfg (by rw [hvoices]) hreg fun k => by rw [State.voice, State.voice, hvoices]

theorem RegistryExact.respond {s : State} (hs : RegistryExact s) (w : Word) : RegistryExact (s.respond w) :=
  hs.of_same (s.respond_cfg w) (s.respond_voices w) (s.respond_regList w)

theorem RegistryExact.rmApply {s : State} (hs : RegistryExact s) (nc n : Nat) : RegistryExact (rmApply nc n s) := by
  have hw := rmApply_writes nc n s
  exact hs.of_same hw.cfg (by rw [hw.frame]) (by rw [hw.frame])

/-- A slot may be written as long as it stays FREE or stays active. -/
theorem RegistryExact.setVoice {s : State} (hs : RegistryExact s) {k : Nat} {v : Voice}
    (hv : v.state = .free ↔ (s.voice k).state = .free) : RegistryExact (s.setVoice k v) := by
  refine hs.of_states rfl (by simp) rfl fun j => ?_
  rw [State.voice_setVoice]
  split
  case isTrue h => rw [← h.1, hv]
  case isFalse => rfl

/-- Retiring a slot frees it and takes it out of REG_LIST (R44). -/
theorem RegistryExact.retire {s : State} (hs : RegistryExact s) (k : Nat) : RegistryExact (s.retire k) := by
  obtain ⟨hcount, hnodup, hactive⟩ := hs
  refine ⟨by simp [hcount], hnodup.erase k, fun j => ?_⟩
  rw [State.retire_regList, hnodup.mem_erase_iff, hactive j, State.voice_retire, hcount, State.retire_cfg]
  by_cases hjk : k = j
  · subst hjk
    by_cases hk : k < s.cfg.numVoices <;> simp [hk]
  · simp [hjk, Ne.symm hjk]

/-- A block without an active slot has an empty REG_LIST. -/
theorem RegistryExact.of_empty {s : State} (hcount : s.voices.length = s.cfg.numVoices) (hreg : s.regList = [])
    (hfree : ∀ v, v ∈ s.voices → v.state = .free) : RegistryExact s := by
  refine ⟨hcount, by simp [hreg], fun k => ?_⟩
  simp only [hreg, List.not_mem_nil, false_iff, not_and, not_not]
  intro hk
  have hlen : k < s.voices.length := hcount ▸ hk
  rw [State.voice, List.getD_eq_getElem _ _ hlen]
  exact hfree _ (List.getElem_mem hlen)

/-- On an exact registry VOICE_START takes the slot out of REG_LIST, where it stands, and appends it (41_voice.md R160). -/
theorem RegistryExact.voiceStart_regList {s : State} (hs : RegistryExact s) (f : Fields) :
    (body (.voiceStart f) s).regList = s.regList.erase (operandSlot f) ++ [operandSlot f] := by
  obtain ⟨_, _, hactive⟩ := hs
  dsimp only [body]
  split
  case isTrue hfree => rw [List.erase_of_not_mem fun hmem => ((hactive _).1 hmem).2 hfree]
  case isFalse => rfl

theorem RegistryExact.voiceStart {s : State} (hs : RegistryExact s) {f : Fields}
    (hk : operandSlot f < s.cfg.numVoices) : RegistryExact (body (.voiceStart f) s) := by
  have hreg := hs.voiceStart_regList f
  have hcfg := (body_sameRate (.voiceStart f) s nofun).cfg
  have hvoice : ∀ j, ((body (.voiceStart f) s).voice j).state ≠ .free ↔
      operandSlot f = j ∨ (s.voice j).state ≠ .free := by
    intro j
    rw [show (body (.voiceStart f) s).voice j = _ from s.voice_setVoice (operandSlot f) j _]
    split
    case isTrue h => simpa [h.1] using fun hfree => startedVoice_state _ _ _ _ (.inl hfree)
    case isFalse h =>
      have hne : operandSlot f ≠ j := fun hj => h ⟨hj, hs.1.symm ▸ hk⟩
      simp [hne]
  obtain ⟨hcount, hnodup, hactive⟩ := hs
  refine ⟨(body_voiceStart_voices_length f s).trans (hcount.trans (by rw [hcfg])), ?nodup, fun j => ?active⟩
  case nodup =>
    rw [hreg]
    refine (hnodup.erase _).append (List.nodup_singleton _) ?_
    simpa using hnodup.not_mem_erase
  case active =>
    rw [hreg, List.mem_append, hnodup.mem_erase_iff, List.mem_singleton, hvoice j, hcfg, hactive j]
    by_cases hj : operandSlot f = j
    · subst hj
      simp [hk]
    · simp [hj, Ne.symm hj]

theorem initState_registryExact (fs : F) (s : State) : RegistryExact (initState fs s) :=
  .of_empty List.length_replicate rfl fun v hv => by rw [List.eq_of_mem_replicate hv]; rfl

theorem stopAll_registryExact (f : Fields) {s : State} (hs : RegistryExact s) : RegistryExact (body (.stopAll f) s) := by
  refine .of_empty ((List.length_map _).trans hs.1) rfl fun v hv => ?_
  obtain ⟨_, _, rfl⟩ := List.mem_map.1 hv
  rfl

/-! ## SYNTH_BLOCK (45_render.md R240, R245) -/

theorem disposeSlots_registryExact (ks : List Nat) {s : State} (hs : RegistryExact s) :
    RegistryExact (disposeSlots ks s) :=
  List.foldlRecOn ks State.retire hs fun _ ht k _ => ht.retire k

/-- Rendering leaves every slot FREE or active as it was, and disposal retires. -/
theorem renderedState_registryExact (nc n : Nat) (w : Wave) {s : State} (hs : RegistryExact s) :
    RegistryExact (renderedState nc n w s) := by
  have hw := renderSlots_writes (.buf (.refl nc n s) (clearRegion_writes nc n s)) w s.regList.reverse
  exact disposeSlots_registryExact _ (hs.of_states hw.cfg hw.length (by rw [hw.frame]) hw.free)

theorem synthBlock_registryExact (nc n : Nat) {s : State} (hs : RegistryExact s) : RegistryExact (synthBlock nc n s) := by
  rcases synthBlock_idle_or_active nc n s with ⟨_, h⟩ | ⟨_, h⟩ <;> rw [h]
  · have hclear := (clearRegion_writes nc n s).frame
    exact RegistryExact.respond (hs.of_same (by rw [hclear]) (by rw [hclear]) (by rw [hclear])) 0
  · exact ((renderedState_registryExact nc n _ hs).rmApply nc n).respond 1

/-! ## Every command -/

/-- A voice command that is accepted names a slot the block has (30_encoding.md R92). -/
theorem slot_lt_of_rejection_none {i : Instr} {s : State} (hi : isVoiceCommand i.opcode = true)
    (h : s.rejection i.opcode i.fields = none) : operandSlot i.fields < s.cfg.numVoices := by
  obtain ⟨_, _, hformat, _⟩ := (s.rejection_none_iff _ _).1 h
  unfold isVoiceCommand at hi
  unfold formatOK at hformat
  split at hi
  case h_4 => exact absurd hi nofun
  all_goals simp_all [operandSlot]

theorem body_registryExact (i : Instr) (s : State) (hn : s.rejection i.opcode i.fields = none) (hs : RegistryExact s) :
    RegistryExact (body i s) := by
  cases i with
  | init f => exact initState_registryExact _ s
  | stopAll f => exact stopAll_registryExact f hs
  | voiceStart f => exact hs.voiceStart (slot_lt_of_rejection_none rfl hn)
  | voiceRelease f =>
    dsimp only [body]
    split_ifs with hidle
    · exact hs
    · exact hs.retire _
    · exact hs.setVoice (by simpa [releasedVoice] using fun hfree => hidle (.inl hfree))
  | voiceKill f =>
    dsimp only [body]
    split
    · exact hs
    · exact hs.retire _
  | voiceSetFreq f | voiceSetVolume f | voiceSetMute f => exact hs.setVoice .rfl
  | voiceGlide f =>
    dsimp only [body]
    split
    · exact hs
    · exact hs.setVoice .rfl
  | synthBlock f => exact synthBlock_registryExact _ _ hs
  | _ => exact hs.of_same (body_cfg _ s) (body_slots _ s rfl).1 (body_slots _ s rfl).2

/-- Settles O50: every part of a step keeps the invariant. -/
theorem stepKeepsTheRegistryExact : Obligations.StepKeepsTheRegistryExact := by
  refine step_keeps RegistryExact ?pending ?raise ?respond ?bus ?body
  case pending => exact fun _ _ hs => hs
  case raise => exact fun _ _ hs => hs
  case respond => exact fun _ w hs => hs.respond w
  case bus =>
    intro a s hs
    have hw := (busAccess_frame a s).1
    exact hs.of_same (by rw [hw]) (by rw [hw]) (by rw [hw])
  case body => exact body_registryExact

end Sys2Proof.Machine
end

section
/-! Running glides have steps left and the phases stay in their ranges (10_state.md R44, 42_oscillator.md R193,
46_ring_modulator.md R265), and the settlement of O51. -/

namespace Sys2Proof.Machine

/-! ## A property of every slot -/

/-- `P` reads glideEn, glideRem and phase alone, holds of a slot as INIT and VOICE_START leave it, and is kept by every unit
that writes those fields. -/
structure SlotInvariant (P : Voice → Prop) : Prop where
  congr   : ∀ {v w : Voice}, P v → w.glideEn = v.glideEn → w.glideRem = v.glideRem → w.phase = v.phase → P w
  fresh   : ∀ v : Voice, v.glideEn = false → v.phase = fZero → P v
  cancel  : ∀ v : Voice, P v → P { v with glideEn := false, glideRem := 0 }
  glide   : ∀ (v : Voice) (n : Nat), n ≠ 0 → P v → P { v with glideEn := true, glideRem := n }
  step    : ∀ v : Voice, P v → P (glideStep v)
  advance : ∀ (fs bend : F) (v : Voice), P v → P (oscAdvance fs bend v)

/-- Every slot of the block has the property. -/
def AllSlots (P : Voice → Prop) (s : State) : Prop := ∀ v, v ∈ s.voices → P v

theorem AllSlots.of_voices {P : Voice → Prop} {s t : State} (hs : AllSlots P s) (h : t.voices = s.voices) : AllSlots P t := by
  unfold AllSlots
  rwa [h]

theorem AllSlots.clearRegion {P : Voice → Prop} {s : State} (hs : AllSlots P s) (nc n : Nat) :
    AllSlots P (clearRegion nc n s) :=
  hs.of_voices (by rw [(clearRegion_writes nc n s).frame])

section
variable {P : Voice → Prop} (hP : SlotInvariant P) {s : State}
include hP

/-- A slot the block does not have reads as zeros (log 13), and zeros have the property. -/
theorem SlotInvariant.voice (hs : AllSlots P s) (k : Nat) : P (s.voice k) := by
  rw [State.voice, List.getD_eq_getElem?_getD]
  cases hk : s.voices[k]? with
  | none => exact hP.fresh _ rfl rfl
  | some v => exact hs v (List.mem_of_getElem? hk)

theorem SlotInvariant.replicate (n : Nat) {v : Voice} (hglide : v.glideEn = false) (hphase : v.phase = fZero)
    (h : s.voices = List.replicate n v) : AllSlots P s := fun u hu => by
  rw [h] at hu
  rw [List.eq_of_mem_replicate hu]
  exact hP.fresh v hglide hphase

theorem SlotInvariant.retire (hs : AllSlots P s) (k : Nat) : AllSlots P (s.retire k) :=
  State.setVoice_all s k _ hs (hP.congr (hP.voice hs k) rfl rfl rfl)

/-! ## Voice render (45_render.md R241) -/

theorem SlotInvariant.envStep {v : Voice} (hv : P v) : P (envStep v).voice := by
  refine hP.congr hv ?_ ?_ ?_ <;> rw [envStep_frame]

theorem SlotInvariant.slotSample (c : Config) (fs bend : F) (w : Wave) {v : Voice} (hv : P v) :
    P (slotSample c fs bend w v).voice := by
  unfold Machine.slotSample
  split
  · exact hP.envStep hv
  · exact hP.envStep (hP.advance fs bend _ (hP.step v hv))

theorem SlotInvariant.renderSample {p : State × Bool} (hp : AllSlots P p.1) (k nc : Nat) (w : Wave) (i : Nat) :
    AllSlots P (renderSample k nc w i p).1 := by
  unfold Machine.renderSample
  split
  case isFalse => exact hp
  case isTrue =>
    have hset : AllSlots P (p.1.setVoice k (sampleOf p.1 w k).voice) :=
      State.setVoice_all p.1 k _ hp (hP.slotSample _ _ _ _ (hP.voice hp k))
    dsimp only
    split
    · exact hset.of_voices (by rw [(addToChannels_writes nc (i + 1) i _ _ (Nat.lt_succ_self i)).frame]; rfl)
    · exact hset

theorem SlotInvariant.renderSlot (hs : AllSlots P s) (nc n : Nat) (w : Wave) (k : Nat) :
    AllSlots P (renderSlot nc n w k s).1 := by
  unfold Machine.renderSlot
  split
  · exact hs
  · exact forUpTo_keep (fun p : State × Bool => AllSlots P p.1) n _ _ hs fun i _ _ hp => hP.renderSample hp k nc w i

theorem SlotInvariant.renderSlots (hs : AllSlots P s) (nc n : Nat) (w : Wave) (ks : List Nat) :
    AllSlots P (renderSlots nc n w ks s).1 := by
  induction ks generalizing s with
  | nil => exact hs
  | cons k ks ih => exact ih (hP.renderSlot hs nc n w k)

theorem SlotInvariant.disposeSlots (hs : AllSlots P s) (ks : List Nat) : AllSlots P (disposeSlots ks s) :=
  List.foldlRecOn ks State.retire hs fun _ ht k _ => hP.retire ht k

theorem SlotInvariant.renderedState (hs : AllSlots P s) (nc n : Nat) (w : Wave) : AllSlots P (renderedState nc n w s) :=
  hP.disposeSlots (hP.renderSlots (hs.clearRegion nc n) nc n w _) _

theorem SlotInvariant.synthBlock (hs : AllSlots P s) (nc n : Nat) : AllSlots P (synthBlock nc n s) := by
  rcases synthBlock_idle_or_active nc n s with ⟨_, h⟩ | ⟨_, h⟩ <;> rw [h]
  · exact (hs.clearRegion nc n).of_voices (State.respond_voices _ _)
  · exact (hP.renderedState hs nc n _).of_voices (by rw [State.respond_voices, (rmApply_writes nc n _).frame])

/-! ## Every command -/

theorem SlotInvariant.body (i : Instr) (hs : AllSlots P s) : AllSlots P (body i s) := by
  have hslot := fun f : Fields => hP.voice hs (operandSlot f)
  cases i with
  | init f => exact hP.replicate _ rfl rfl rfl
  | stopAll f =>
    intro v hv
    obtain ⟨u, hu, rfl⟩ := List.mem_map.1 hv
    exact hP.congr (hs u hu) rfl rfl rfl
  | voiceStart f => exact State.setVoice_all s _ _ hs (hP.fresh _ rfl rfl)
  | voiceRelease f =>
    dsimp only [Machine.body]
    split_ifs
    · exact hs
    · exact hP.retire hs _
    · exact State.setVoice_all s _ _ hs (hP.congr (hslot f) rfl rfl rfl)
  | voiceKill f =>
    dsimp only [Machine.body]
    split
    · exact hs
    · exact hP.retire hs _
  | voiceSetFreq f => exact State.setVoice_all s _ _ hs (hP.congr (hP.cancel _ (hslot f)) rfl rfl rfl)
  | voiceSetVolume f | voiceSetMute f => exact State.setVoice_all s _ _ hs (hP.congr (hslot f) rfl rfl rfl)
  | voiceGlide f =>
    dsimp only [Machine.body]
    split
    · exact hs
    · have hsteps := Nat.one_le_iff_ne_zero.1 (samples_spec s.params.glide s.rate.glideMaxSamples).1
      exact State.setVoice_all s _ _ hs (hP.congr (hP.glide _ _ hsteps (hslot f)) rfl rfl rfl)
  | synthBlock f => exact hP.synthBlock hs _ _
  | _ => exact hs.of_voices (body_slots _ s rfl).1

theorem SlotInvariant.of_step {t : State} (hs : AllSlots P s) (h : Machine.step s = .next t) : AllSlots P t := by
  refine step_keeps (AllSlots P) ?pending ?raise ?respond ?bus ?body s t hs h
  case pending => exact fun _ _ hs => hs
  case raise => exact fun _ _ hs => hs
  case respond => exact fun s w hs => hs.of_voices (s.respond_voices w)
  case bus => exact fun a s hs => hs.of_voices (by rw [(busAccess_frame a s).1])
  case body => exact fun i _ _ hs => hP.body i hs

end

/-! ## Glides (10_state.md R44) -/

/-- A glide that runs has a step left. -/
def GlideCounted (v : Voice) : Prop := v.glideEn = true → v.glideRem ≠ 0

theorem glideStep_counted (v : Voice) : GlideCounted (glideStep v) := by
  intro hrun
  cases hv : v.glideEn with
  | false => rw [glideStep_idle v hv] at hrun; exact absurd (hv.symm.trans hrun) nofun
  | true =>
    obtain ⟨hcount, hleft⟩ := glideStep_count v hv
    rw [hcount]
    exact hleft.1 hrun

theorem glideCounted_invariant : SlotInvariant GlideCounted where
  congr hv hen hrem _ := by unfold GlideCounted; rwa [hen, hrem]
  fresh v hen _ := fun hrun => absurd (hen.symm.trans hrun) nofun
  cancel v _ := nofun
  glide v n hn _ := fun _ => hn
  step v _ := glideStep_counted v
  advance fs bend v hv := hv

/-! ## Phases (42_oscillator.md R193, 46_ring_modulator.md R265) -/

/-- The phase of a slot lies in [0.0, 1.0). -/
def PhaseInUnit (v : Voice) : Prop := fLe fZero v.phase = true ∧ fLt v.phase fOne = true

theorem phaseInUnit_invariant : SlotInvariant PhaseInUnit where
  congr hv _ _ hphase := by unfold PhaseInUnit; rwa [hphase]
  fresh v _ hphase := by unfold PhaseInUnit; rw [hphase]; decide
  cancel v hv := hv
  glide v n _ hv := hv
  step v hv := by unfold PhaseInUnit; rwa [glideStep_frame]
  advance fs bend v _ := oscAdvance_phase fs bend v

/-- RM_PHASE lies in [0.0, TWO_PI_F). -/
def RmPhaseInRange (s : State) : Prop := fLe fZero s.rm.phase = true ∧ fLt s.rm.phase fTwoPi = true

theorem RmPhaseInRange.of_zero {s : State} (h : s.rm.phase = fZero) : RmPhaseInRange s := by
  unfold RmPhaseInRange
  rw [h]
  decide

theorem RmPhaseInRange.of_rm {s t : State} (hs : RmPhaseInRange s) (h : t.rm.phase = s.rm.phase) : RmPhaseInRange t := by
  unfold RmPhaseInRange
  rwa [h]

/-- The commands that step or reset RM_PHASE. -/
def writesRmPhase (op : Opcode) : Bool :=
  match op with
  | .init | .rmBlock | .synthBlock => true
  | _ => false

theorem body_rm_phase (i : Instr) (s : State) (h : writesRmPhase i.opcode = false) :
    (body i s).rm.phase = s.rm.phase := by
  cases i with
  | init f | rmBlock f | synthBlock f => exact absurd h nofun
  | voiceStart f | voiceRelease f | voiceKill f | voiceSetFreq f | voiceSetVolume f | voiceSetMute f | voiceGlide f =>
    rw [body_voice_frame _ s rfl]
  | filtBlock f => dsimp only [body]; rw [(filtBlock_writes _ _ s).frame]
  | get f => dsimp only [body]; split <;> simp
  | lfoPeek f => simp [body, lfoPeek]
  | setLfoEnable f => dsimp only [body]; split <;> rfl
  | _ => rfl

theorem synthBlock_rmPhaseInRange (nc n : Nat) {s : State} (hs : RmPhaseInRange s) :
    RmPhaseInRange (synthBlock nc n s) := by
  rcases synthBlock_idle_or_active nc n s with ⟨_, h⟩ | ⟨_, h⟩ <;> rw [h]
  · exact hs.of_rm (by rw [State.respond_rm, (clearRegion_writes nc n s).frame])
  · have hrendered : RmPhaseInRange (renderedState nc n (waveSel s.rm) s) :=
      hs.of_rm (by rw [(renderedState_frame nc n _ s).1])
    exact RmPhaseInRange.of_rm (rmApply_phase nc n _ hrendered) (by rw [State.respond_rm])

theorem body_rmPhaseInRange (i : Instr) {s : State} (hs : RmPhaseInRange s) : RmPhaseInRange (body i s) := by
  cases i with
  | init f => exact .of_zero rfl
  | rmBlock f => exact rmApply_phase _ _ s hs
  | synthBlock f => exact synthBlock_rmPhaseInRange _ _ hs
  | _ => exact hs.of_rm (body_rm_phase _ s rfl)

theorem step_rmPhaseInRange {s t : State} (hs : RmPhaseInRange s) (h : step s = .next t) : RmPhaseInRange t := by
  refine step_keeps RmPhaseInRange ?pending ?raise ?respond ?bus ?body s t hs h
  case pending => exact fun _ _ hs => hs
  case raise => exact fun _ _ hs => hs
  case respond => exact fun s w hs => hs.of_rm (by rw [s.respond_rm])
  case bus => exact fun a s hs => hs.of_rm (by rw [busAccess_rm])
  case body => exact fun i _ _ hs => body_rmPhaseInRange i hs

/-- Settles O51: two properties of every slot that each unit keeps, and the range of RM_PHASE. -/
theorem stepKeepsGlidesCountedAndPhasesInRange : Obligations.StepKeepsGlidesCountedAndPhasesInRange := by
  refine ⟨fun c m => ⟨?glides, ?phases, ?rmPhase⟩, fun s t hs h => ?stepGlides, fun s t hs h => ?stepPhases⟩
  case glides => exact glideCounted_invariant.replicate _ rfl rfl rfl
  case phases => exact phaseInUnit_invariant.replicate _ rfl rfl rfl
  case rmPhase => exact RmPhaseInRange.of_zero rfl
  case stepGlides => exact glideCounted_invariant.of_step hs h
  case stepPhases =>
    obtain ⟨hslots, hrm⟩ := hs
    exact ⟨phaseInUnit_invariant.of_step hslots h, step_rmPhaseInRange hrm h⟩

end Sys2Proof.Machine
end

section
/-! The host bus (20_memory.md R71 to R74, R84): what each access does, and the settlement of O45 to O48. -/

namespace Sys2Proof.Machine

open Sys2Proof.Claims

/-! ## The bus map (R71) -/

/-- The address of a location. -/
def Location.address (cfg : Config) : Location → Nat
  | .cmd => 0x0
  | .resp => 0x8
  | .respCount => 0xC
  | .statusMirror => 0x10
  | .buf c i => bufAddr cfg c i

/-- The block has the location: BUF has MAX_CHANNELS × MAX_BLOCK samples. -/
def Location.present (cfg : Config) : Location → Prop
  | .buf c i => c < cfg.maxChannels ∧ i < cfg.maxBlock
  | _ => True

theorem locate_bufAddr {cfg : Config} {c i : Nat} (hc : c < cfg.maxChannels) (hi : i < cfg.maxBlock) :
    locate cfg (bufAddr cfg c i) = some (.buf c i) := by
  have hk : c * cfg.maxBlock + i < cfg.maxChannels * cfg.maxBlock := by nlinarith
  have hpos : 0 < cfg.maxBlock := by omega
  have hindex : (bufAddr cfg c i - bufBase) / 4 = c * cfg.maxBlock + i := by unfold bufAddr; omega
  have hdiv : (c * cfg.maxBlock + i) / cfg.maxBlock = c := by
    rw [Nat.mul_comm, Nat.mul_add_div hpos, Nat.div_eq_of_lt hi, Nat.add_zero]
  have hmod : (c * cfg.maxBlock + i) % cfg.maxBlock = i := by
    rw [Nat.mul_comm, Nat.mul_add_mod, Nat.mod_eq_of_lt hi]
  unfold locate
  dsimp only
  rw [hindex, if_pos hk, hdiv, hmod]
  unfold bufAddr bufBase
  split_ifs <;> first | omega | rfl

/-- An aligned access to BUF is to a sample the block has. -/
theorem buf_of_locate {cfg : Config} {a c i : Nat} (h : locate cfg a = some (.buf c i)) (ha : a % 4 = 0) :
    c < cfg.maxChannels ∧ i < cfg.maxBlock ∧ a = bufAddr cfg c i := by
  unfold locate at h
  dsimp only at h
  split_ifs at h with _ _ _ _ hbase hk <;> simp only [Option.some.injEq, Location.buf.injEq, reduceCtorEq] at h
  obtain ⟨rfl, rfl⟩ := h
  have hpos : 0 < cfg.maxBlock := Nat.pos_of_ne_zero fun h0 => by simp [h0] at hk
  refine ⟨(Nat.div_lt_iff_lt_mul hpos).2 hk, Nat.mod_lt _ hpos, ?_⟩
  have hsplit := Nat.div_add_mod' ((a - bufBase) / 4) cfg.maxBlock
  unfold bufAddr
  unfold bufBase at *
  omega

/-- An access addresses a location exactly when it is a whole aligned one of that location (R73). -/
theorem target_iff {cfg : Config} {addr : BitVec 32} {w : Width} {l : Location} :
    target cfg addr w = some l ↔ l.present cfg ∧ w.bytes = l.bytes ∧ addr.toNat = l.address cfg := by
  have haligned : target cfg addr w = some l ↔
      locate cfg addr.toNat = some l ∧ w.bytes = l.bytes ∧ addr.toNat % l.bytes = 0 := by
    unfold target
    cases locate cfg addr.toNat with
    | none => simp
    | some m =>
      simp only [Option.ite_none_right_eq_some, Option.some.injEq]
      constructor
      · rintro ⟨⟨hw, ha⟩, rfl⟩
        exact ⟨rfl, hw, hw ▸ ha⟩
      · rintro ⟨rfl, hw, ha⟩
        exact ⟨⟨hw, hw.symm ▸ ha⟩, rfl⟩
  rw [haligned]
  constructor
  · rintro ⟨hl, hw, ha⟩
    cases l with
    | buf c i =>
      obtain ⟨hc, hi, ha⟩ := buf_of_locate hl ha
      exact ⟨⟨hc, hi⟩, hw, ha⟩
    | _ =>
      refine ⟨trivial, hw, ?_⟩
      unfold locate at hl
      dsimp only [Location.bytes, Location.address] at *
      split_ifs at hl <;> first | omega | exact absurd hl nofun
  · rintro ⟨hp, hw, ha⟩
    rw [ha]
    cases l with
    | buf c i =>
      obtain ⟨hc, hi⟩ := hp
      exact ⟨locate_bufAddr hc hi, hw, by simp only [Location.address, Location.bytes, bufAddr, bufBase]; omega⟩
    | _ => exact ⟨rfl, hw, by simp only [Location.address, Location.bytes]⟩

theorem Width.eq_w4 {w : Width} (h : w.bytes = 4) : w = .w4 := by
  cases w <;> first | rfl | exact absurd h (by decide)

theorem Width.eq_w8 {w : Width} (h : w.bytes = 8) : w = .w8 := by
  cases w <;> first | rfl | exact absurd h (by decide)

/-! ## What an access does -/

theorem hostRead_resp {addr : BitVec 32} {w : Width} {s : State} {word : Word} {rest : List Word}
    (h : target s.cfg addr w = some .resp) (hf : s.fifo = word :: rest) :
    hostRead addr w s = (word.setWidth 64, { s with fifo := rest }) := by
  simp only [hostRead, h, hf]

theorem hostRead_respCount {addr : BitVec 32} {w : Width} {s : State} (h : target s.cfg addr w = some .respCount) :
    hostRead addr w s = (BitVec.ofNat 64 (s.fifo.length % 2 ^ 32), s) := by
  simp only [hostRead, h]

theorem hostRead_statusMirror {addr : BitVec 32} {w : Width} {s : State}
    (h : target s.cfg addr w = some .statusMirror) : hostRead addr w s = (s.status.setWidth 64, s) := by
  simp only [hostRead, h]

theorem hostRead_buf {addr : BitVec 32} {w : Width} {s : State} {c i : Nat}
    (h : target s.cfg addr w = some (.buf c i)) : hostRead addr w s = ((s.readBuf c i).setWidth 64, s) := by
  simp only [hostRead, h]

theorem hostWrite_buf {addr : BitVec 32} {w : Width} {d : BitVec 64} {s : State} {c i : Nat}
    (h : target s.cfg addr w = some (.buf c i)) : hostWrite addr w d s = s.writeBuf c i (d.setWidth 32) := by
  simp only [hostWrite, h]

/-- A read outside the map is refused (R73). -/
theorem hostRead_refused {addr : BitVec 32} {w : Width} {s : State} (h : ¬admittedAccess s (.read addr w)) :
    hostRead addr w s = refusedRead s := by
  unfold admittedAccess at h
  unfold hostRead
  split
  case h_1 hl =>
    obtain ⟨_, hw, ha⟩ := target_iff.1 hl
    split
    case h_1 hf => exact absurd ⟨Width.eq_w4 hw, .inl ⟨BitVec.eq_of_toNat_eq ha, by simp [hf]⟩⟩ h
    case h_2 => rfl
  case h_2 hl =>
    obtain ⟨_, hw, ha⟩ := target_iff.1 hl
    exact absurd ⟨Width.eq_w4 hw, .inr (.inl (BitVec.eq_of_toNat_eq ha))⟩ h
  case h_3 hl =>
    obtain ⟨_, hw, ha⟩ := target_iff.1 hl
    exact absurd ⟨Width.eq_w4 hw, .inr (.inr (.inl (BitVec.eq_of_toNat_eq ha)))⟩ h
  case h_4 c i hl =>
    obtain ⟨⟨hc, hi⟩, hw, ha⟩ := target_iff.1 hl
    exact absurd ⟨Width.eq_w4 hw, .inr (.inr (.inr ⟨c, i, hc, hi, ha⟩))⟩ h
  case h_5 => rfl
  case h_6 => rfl

/-- A write outside the map carries no command and is refused (R73). -/
theorem hostWrite_refused {addr : BitVec 32} {w : Width} {d : BitVec 64} {s : State}
    (h : ¬admittedAccess s (.write addr w d)) :
    commandOf s.cfg (.write addr w d) = none ∧ hostWrite addr w d s = s.raise .badAcc := by
  unfold admittedAccess at h
  constructor
  · refine if_neg fun hl => ?_
    obtain ⟨_, hw, ha⟩ := target_iff.1 hl
    exact h (.inl ⟨BitVec.eq_of_toNat_eq ha, Width.eq_w8 hw⟩)
  · unfold hostWrite
    split
    case h_1 c i hl =>
      obtain ⟨⟨hc, hi⟩, hw, ha⟩ := target_iff.1 hl
      exact absurd (.inr ⟨Width.eq_w4 hw, c, i, hc, hi, ha⟩) h
    case h_2 => rfl

/-- Everything a read can do to the state: pop the FIFO, raise BADACC, or nothing. -/
theorem hostRead_cases (addr : BitVec 32) (w : Width) (s : State) :
    (∃ word rest, s.fifo = word :: rest ∧ (hostRead addr w s).2 = { s with fifo := rest }) ∨
      (hostRead addr w s).2 = s.raise .badAcc ∨ (hostRead addr w s).2 = s := by
  unfold hostRead
  split
  case h_1 =>
    split
    case h_1 word rest hf => exact .inl ⟨word, rest, hf, rfl⟩
    case h_2 => exact .inr (.inl rfl)
  case h_2 | h_3 | h_4 => exact .inr (.inr rfl)
  case h_5 | h_6 => exact .inr (.inl rfl)

/-- Everything a write without a command can do to the state: store a sample, or raise BADACC. -/
theorem hostWrite_cases (addr : BitVec 32) (w : Width) (d : BitVec 64) (s : State) :
    (∃ c i, hostWrite addr w d s = s.writeBuf c i (d.setWidth 32)) ∨ hostWrite addr w d s = s.raise .badAcc := by
  unfold hostWrite
  split
  case h_1 c i _ => exact .inl ⟨c, i, rfl⟩
  case h_2 => exact .inr rfl

/-! ## Steps -/

/-- A step with a read pending carries it out and records the answer. -/
theorem step_read {s : State} {addr : BitVec 32} {w : Width} {rest : List HostAccess}
    (hp : s.pending = .read addr w :: rest) :
    step s = .next (busAccess (.read addr w) { s with pending := rest }) :=
  step_busAccess hp rfl

theorem busAccess_read {s t : State} {addr : BitVec 32} {w : Width} {r : BitVec 64} (h : hostRead addr w s = (r, t)) :
    busAccess (.read addr w) s = { t with replies := t.replies ++ [r] } := by
  simp only [busAccess, h]

/-- Settles O45: RESP is at 0x8, and its read pops the FIFO or is refused. -/
theorem respReadPopsTheOldestWord : Obligations.RespReadPopsTheOldestWord := by
  intro s rest hp
  rw [step_read hp]
  have htarget : ∀ c : Config, target c 0x8 .w4 = some .resp := fun c => target_iff.2 ⟨trivial, rfl, rfl⟩
  refine ⟨fun w ws hf => ?_, fun hf => ?_⟩
  · rw [busAccess_read (hostRead_resp (s := { s with pending := rest }) (htarget _) hf)]
  · have hempty : hostRead 0x8 .w4 { s with pending := rest } = refusedRead { s with pending := rest } :=
      hostRead_refused (by simp [admittedAccess, hf]; omega)
    rw [busAccess_read hempty]
    rfl

/-- Settles O46: `hostRead_refused` and `hostWrite_refused`. -/
theorem refusedAccessesOnlyRaiseBadAcc : Obligations.RefusedAccessesOnlyRaiseBadAcc := by
  refine fun s rest => ⟨fun a w hp h => ?_, fun a w d hp h => ?_⟩
  · rw [step_read hp, busAccess_read (hostRead_refused (s := { s with pending := rest }) h)]
    rfl
  · obtain ⟨hcommand, hwrite⟩ := hostWrite_refused (s := { s with pending := rest }) h
    rw [step_busAccess hp hcommand]
    exact congrArg _ hwrite

/-- Settles O47: each of the three reads leaves the state as it was. -/
theorem otherReadsHaveNoSideEffect : Obligations.OtherReadsHaveNoSideEffect := by
  refine fun s rest => ⟨fun hp hcount => ?_, fun hp => ?_, fun a c i hc hi ha hp => ?_⟩ <;> rw [step_read hp]
  · have htarget : target s.cfg 0xC .w4 = some .respCount := target_iff.2 ⟨trivial, rfl, rfl⟩
    rw [busAccess_read (hostRead_respCount (s := { s with pending := rest }) htarget), Nat.mod_eq_of_lt hcount]
  · have htarget : target s.cfg 0x10 .w4 = some .statusMirror := target_iff.2 ⟨trivial, rfl, rfl⟩
    rw [busAccess_read (hostRead_statusMirror (s := { s with pending := rest }) htarget)]
  · have htarget : target s.cfg a .w4 = some (.buf c i) := target_iff.2 ⟨⟨hc, hi⟩, rfl, ha⟩
    rw [busAccess_read (hostRead_buf (s := { s with pending := rest }) htarget)]
    rfl

/-- Settles O48: the step is `writeBuf` at the sample's address, where a word lies little-endian. -/
theorem bufWriteStoresThePattern : Obligations.BufWriteStoresThePattern := by
  intro s rest a d c i hc hi ha hwf hp
  have htarget : target s.cfg a .w4 = some (.buf c i) := target_iff.2 ⟨⟨hc, hi⟩, rfl, ha⟩
  have haddr : a.toNat = bufAddr s.cfg c i := ha
  have hcommand : commandOf s.cfg (.write a .w4 d) = none := if_neg (by simp [htarget])
  refine ⟨{ s with pending := rest }.writeBuf c i (d.setWidth 32), ?step, rfl, ?word, fun k hk => ?bytes,
    fun b hb => ?others⟩
  case step =>
    rw [step_busAccess hp hcommand]
    exact congrArg _ (hostWrite_buf (s := { s with pending := rest }) htarget)
  case word => exact State.readBuf_writeBuf_same _ c i _ hwf
  case bytes =>
    rw [haddr, State.writeBuf_buf, Memory.readByte_writeWord _ _ _ _ hk hwf]
    refine BitVec.eq_of_getLsbD_eq fun j hj => ?_
    simp [hj, show 8 * k + j < 32 by omega]
  case others => exact State.readByte_writeBuf_outside _ c i b _ (haddr ▸ hb)

end Sys2Proof.Machine
end

section
/-! Memory stays canonical, STATUS[30:6] zero, the FIFO within RESP_DEPTH and one FD per channel (10_state.md R33, R48, R51),
and the settlement of O53. -/

namespace Sys2Proof.Machine

/-! ## STATUS[30:6] -/

/-- The bits of STATUS that read as zero (R33). -/
def reservedBits (status : Word) : Word := status &&& 0x7FFFFFC0

theorem reservedBits_or (a b : Word) : reservedBits (a ||| b) = reservedBits a ||| reservedBits b :=
  BitVec.and_or_distrib_right

/-- Clearing bits sets none. -/
theorem reservedBits_and {a : Word} (h : reservedBits a = 0) (b : Word) : reservedBits (a &&& b) = 0 := by
  unfold reservedBits at *
  rw [BitVec.and_assoc, BitVec.and_comm b, ← BitVec.and_assoc, h]
  exact BitVec.zero_and

theorem reservedBits_event (e : Event) : reservedBits (BitVec.twoPow 32 e.code) = 0 := by cases e <;> decide

/-! ## What keeps the storage sound -/

theorem StorageSound.raise {s : State} (hs : StorageSound s) (e : Event) : StorageSound (s.raise e) := by
  obtain ⟨hwf, hstatus, hfifo, hdelays⟩ := hs
  refine ⟨hwf, ?_, hfifo, hdelays⟩
  exact (reservedBits_or _ _).trans (by rw [reservedBits_event, show reservedBits s.status = 0 from hstatus]; rfl)

/-- A response is queued only where the FIFO has room (R51). -/
theorem StorageSound.respond {s : State} (hs : StorageSound s) (w : Word) : StorageSound (s.respond w) := by
  unfold State.respond
  split
  case isTrue hroom =>
    obtain ⟨hwf, hstatus, _, hdelays⟩ := hs
    exact ⟨hwf, hstatus, by simpa using hroom, hdelays⟩
  case isFalse => exact hs.raise _

theorem initState_storageSound (fs : F) {s : State} (hs : StorageSound s) : StorageSound (initState fs s) := by
  obtain ⟨hwf, hstatus, hfifo, _⟩ := hs
  refine ⟨hwf, ?_, hfifo, List.length_replicate⟩
  exact (reservedBits_or _ _).trans (by rw [reservedBits_and hstatus]; decide)

theorem body_storageSound (i : Instr) (s : State) (hs : StorageSound s) : StorageSound (body i s) := by
  have ⟨hwf, hstatus, hfifo, hdelays⟩ := hs
  cases i with
  | init f => exact initState_storageSound _ hs
  | stopAll f => exact ⟨hwf, hstatus, hfifo, List.length_replicate⟩
  | clearStatus f => exact ⟨hwf, reservedBits_and hstatus _, hfifo, hdelays⟩
  | get f =>
    dsimp only [body]
    split
    · exact hs.respond _
    · exact hs
  | lfoPeek f => exact StorageSound.respond (s := (lfoPeek s).2) hs _
  | voiceStart f | voiceRelease f | voiceKill f | voiceSetFreq f | voiceSetVolume f | voiceSetMute f | voiceGlide f =>
    rw [body_voice_frame _ s rfl]; exact hs
  | setLfoEnable f => dsimp only [body]; split <;> exact hs
  | rmBlock f =>
    have hw := rmApply_writes (operandChannels f) (operandSize f) s
    dsimp only [body]
    rw [hw.frame]
    exact ⟨hw.wf hwf, hstatus, hfifo, hdelays⟩
  | filtBlock f =>
    have hw := filtBlock_writes (operandChannels f) (operandSize f) s
    dsimp only [body]
    rw [hw.frame]
    exact ⟨hw.wf hwf, hstatus, hfifo, hw.delays.trans hdelays⟩
  | synthBlock f =>
    dsimp only [body]
    rcases synthBlock_idle_or_active (operandChannels f) (operandSize f) s with ⟨_, h⟩ | ⟨_, h⟩ <;> rw [h]
    · have hclear := clearRegion_writes (operandChannels f) (operandSize f) s
      refine StorageSound.respond ?_ 0
      rw [hclear.frame]
      exact ⟨hclear.wf hwf, hstatus, hfifo, hdelays⟩
    · obtain ⟨hframe, hrendered, _⟩ := renderedState_frame (operandChannels f) (operandSize f) (waveSel s.rm) s
      refine StorageSound.respond ?_ 1
      generalize renderedState _ _ _ s = u at *
      have hrm := rmApply_writes (operandChannels f) (operandSize f) u
      rw [hrm.frame, hframe]
      exact ⟨hframe ▸ hrm.wf (hrendered hwf), hstatus, hfifo, hdelays⟩
  | _ => exact hs

/-- A host access pops the FIFO, stores a sample or raises BADACC at most (20_memory.md R72, R73). -/
theorem busAccess_storageSound (a : HostAccess) (s : State) (hs : StorageSound s) : StorageSound (busAccess a s) := by
  have ⟨hwf, hstatus, hfifo, hdelays⟩ := hs
  cases a with
  | read addr w =>
    dsimp only [busAccess]
    rcases hostRead_cases addr w s with ⟨word, rest, hcons, h⟩ | h | h <;> rw [h]
    · rw [hcons] at hfifo
      exact ⟨hwf, hstatus, (Nat.le_succ _).trans hfifo, hdelays⟩
    · exact hs.raise .badAcc
    · exact hs
  | write addr w d =>
    dsimp only [busAccess]
    rcases hostWrite_cases addr w d s with ⟨c, i, h⟩ | h <;> rw [h]
    · exact ⟨State.writeBuf_wf s c i _ hwf, hstatus, hfifo, hdelays⟩
    · exact hs.raise .badAcc

/-- Settles O53: every part of a step keeps the four facts. -/
theorem stepKeepsStorageSound : Obligations.StepKeepsStorageSound := by
  refine step_keeps StorageSound ?pending ?raise ?respond ?bus ?body
  case pending => exact fun _ _ hs => hs
  case raise => exact fun _ e hs => hs.raise e
  case respond => exact fun _ w hs => hs.respond w
  case bus => exact busAccess_storageSound
  case body => exact fun i s _ hs => body_storageSound i s hs

end Sys2Proof.Machine
end

section
/-! The cutoffs stay at or below the Nyquist limit (47_filter.md R293), power-on meets the invariants (10_state.md R68), and
the settlement of O56 and O52. -/

namespace Sys2Proof.Machine

/-! ## The invariant, on a legal block -/

/-- A block with a legal configuration, legal laws and its cutoffs in range. -/
structure CutoffLegal (s : State) : Prop where
  config : configLegal s.cfg = true
  laws   : LawsLegal s.cfg
  range  : CutoffInRange s

/-- With CUTOFF and LFO_DEPTH kept, the range of TEMP_CUTOFF is all that is left to show. -/
theorem CutoffLegal.of_tempCutoff {s t : State} (hs : CutoffLegal s) (hsame : SameRate s t)
    (hcutoff : t.filt.cutoff = s.filt.cutoff) (hdepth : t.lfo.depth = s.lfo.depth)
    (htemp : s.ready = true →
      fLe s.cfg.filterMinCutoff t.filt.tempCutoff = true ∧ fLe t.filt.tempCutoff s.rate.nyqLimit = true) :
    CutoffLegal t := by
  refine ⟨hsame.cfg ▸ hs.config, hsame.cfg ▸ hs.laws, ?_⟩
  unfold CutoffInRange
  rw [hsame.ready, hsame.cfg, hsame.rate, hcutoff, hdepth]
  intro hready
  obtain ⟨hcmin, hcmax, _, _, hrest⟩ := hs.range hready
  obtain ⟨htmin, htmax⟩ := htemp hready
  exact ⟨hcmin, hcmax, htmin, htmax, hrest⟩

theorem CutoffLegal.of_same {s t : State} (hs : CutoffLegal s) (hsame : SameRate s t)
    (hcutoff : t.filt.cutoff = s.filt.cutoff) (htemp : t.filt.tempCutoff = s.filt.tempCutoff)
    (hdepth : t.lfo.depth = s.lfo.depth) : CutoffLegal t :=
  hs.of_tempCutoff hsame hcutoff hdepth fun hready => by
    obtain ⟨_, _, htmin, htmax, _⟩ := hs.range hready
    exact htemp ▸ ⟨htmin, htmax⟩

/-- NYQ_LIMIT is not below FILTER_MIN_CUTOFF, and finite. -/
theorem CutoffLegal.nyqLimit {s : State} (hs : CutoffLegal s) (hready : s.ready = true) :
    fLe s.cfg.filterMinCutoff s.rate.nyqLimit = true ∧ isFinite s.rate.nyqLimit = true := by
  obtain ⟨_, _, _, _, hmin, hmax, _⟩ := configLegal_filter hs.config
  obtain ⟨hcmin, hcmax, _, _, hnyq, _⟩ := hs.range hready
  have hle := fLe_trans hcmin hcmax
  exact ⟨hle, isFinite_between hmin hmax hle hnyq⟩

/-! ## The commands that write the cutoffs or the depth -/

/-- An accepted F operand is no NaN (40_control.md R120). -/
theorem operand_not_nan {i : Instr} {s : State} (hop : i.opcode.hasFOperand = true)
    (hn : s.rejection i.opcode i.fields = none) : isNaN i.fields.arg = false := by
  obtain ⟨_, _, _, hnan⟩ := (s.rejection_none_iff _ _).1 hn
  exact hnan hop

/-- INIT starts both cutoffs at NYQ_LIMIT, which the clamped sample rate keeps in range. -/
theorem initState_cutoffLegal {f : Fields} {s : State} (hs : CutoffLegal s) (hf : isNaN f.arg = false) :
    CutoffLegal (initState (fClamp f.arg s.cfg.fsMin s.cfg.fsMax) s) := by
  obtain ⟨_, _, _, hfs, _⟩ := configLegal_filter hs.config
  obtain ⟨hlo, hhi, _⟩ := fClamp_spec hf hfs
  obtain ⟨hmin, hmax, hhalf⟩ := nyqLimit_spec hs.config hlo hhi
  have hself := fLe_refl (fLe_ordered hmin).2.1
  have hdepth : inRange fZero fOne fZero = true := by decide
  exact ⟨hs.config, hs.laws, fun _ => ⟨hmin, hself, hmin, hself, hmax, hhalf, hdepth⟩⟩

theorem setCutoff_cutoffLegal {f : Fields} {s : State} (hs : CutoffLegal s) (hf : isNaN f.arg = false) :
    CutoffLegal (body (.setCutoff f) s) := by
  refine ⟨hs.config, hs.laws, fun hready => ?_⟩
  obtain ⟨_, _, _, _, hrest⟩ := hs.range hready
  obtain ⟨hlo, hhi, _⟩ := fClamp_spec hf (hs.nyqLimit hready).1
  exact ⟨hlo, hhi, hlo, hhi, hrest⟩

theorem setLfoDepth_cutoffLegal {f : Fields} {s : State} (hs : CutoffLegal s) (hf : isNaN f.arg = false) :
    CutoffLegal (body (.setLfoDepth f) s) := by
  refine ⟨hs.config, hs.laws, fun hready => ?_⟩
  obtain ⟨hcmin, hcmax, htmin, htmax, hnyq, hhalf, _⟩ := hs.range hready
  obtain ⟨hlo, hhi, _⟩ := fClamp_spec hf (by decide : fLe fZero fOne = true)
  have hfinite := isFinite_between (by decide) (by decide) hlo hhi
  exact ⟨hcmin, hcmax, htmin, htmax, hnyq, hhalf, inRange_iff.2 ⟨hfinite, hlo, hhi⟩⟩

theorem setLfoEnable_cutoffLegal {f : Fields} {s : State} (hs : CutoffLegal s) : CutoffLegal (body (.setLfoEnable f) s) := by
  dsimp only [body]
  split
  · refine hs.of_tempCutoff ⟨rfl, rfl, rfl⟩ rfl rfl fun hready => ?_
    obtain ⟨hcmin, hcmax, _⟩ := hs.range hready
    exact ⟨hcmin, hcmax⟩
  · exact hs.of_same ⟨rfl, rfl, rfl⟩ rfl rfl rfl

/-- A sweep step clamps what LFO_SWEEP returns (R289). -/
theorem sweepStep_cutoffLegal {s : State} (hs : CutoffLegal s) : CutoffLegal (sweepStep s) := by
  refine hs.of_tempCutoff ⟨rfl, rfl, rfl⟩ rfl rfl fun hready => ?_
  obtain ⟨hmin, hfinite⟩ := hs.nyqLimit hready
  obtain ⟨_, _, _, _, _, _, hdepth⟩ := hs.range hready
  exact sweptCutoff_spec hs.config hs.laws hmin hfinite hdepth _

theorem filtFrame_cutoffLegal (nc i : Nat) {s : State} (hs : CutoffLegal s) : CutoffLegal (filtFrame nc i s) := by
  refine forUpTo_keep CutoffLegal _ _ _ ?_ fun c t _ ht => ht.of_same ⟨rfl, rfl, rfl⟩ rfl rfl rfl
  split
  · exact sweepStep_cutoffLegal hs
  · exact hs

/-! ## Every command -/

/-- Only INIT and SET_LFO_DEPTH write LFO_DEPTH (10_state.md R39). -/
theorem body_lfo_depth (i : Instr) (s : State) (hinit : i.opcode ≠ .init) (hdepth : i.opcode ≠ .setLfoDepth) :
    (body i s).lfo.depth = s.lfo.depth := by
  cases i with
  | init f => exact absurd rfl hinit
  | setLfoDepth f => exact absurd rfl hdepth
  | voiceStart f | voiceRelease f | voiceKill f | voiceSetFreq f | voiceSetVolume f | voiceSetMute f | voiceGlide f =>
    rw [body_voice_frame _ s rfl]
  | rmBlock f => dsimp only [body]; rw [(rmApply_writes _ _ s).frame]
  | filtBlock f => dsimp only [body]; rw [(filtBlock_writes _ _ s).lfo]
  | synthBlock f => dsimp only [body]; rw [(synthBlock_frame _ _ s).1]
  | get f => dsimp only [body]; split <;> simp
  | lfoPeek f => simp [body, lfoPeek]
  | setLfoEnable f => dsimp only [body]; split <;> rfl
  | _ => rfl

theorem body_cutoffLegal (i : Instr) (s : State) (hn : s.rejection i.opcode i.fields = none) (hs : CutoffLegal s) :
    CutoffLegal (body i s) := by
  cases i with
  | init f => exact initState_cutoffLegal hs (operand_not_nan rfl hn)
  | setCutoff f => exact setCutoff_cutoffLegal hs (operand_not_nan rfl hn)
  | setLfoDepth f => exact setLfoDepth_cutoffLegal hs (operand_not_nan rfl hn)
  | setLfoEnable f => exact setLfoEnable_cutoffLegal hs
  | setResonance f => exact hs.of_same ⟨rfl, rfl, rfl⟩ rfl rfl rfl
  | filtBlock f => exact forUpTo_keep CutoffLegal _ _ _ hs fun i t _ ht => filtFrame_cutoffLegal _ i ht
  | _ =>
    exact hs.of_same (body_sameRate _ s nofun) (by rw [body_filt _ s rfl]) (by rw [body_filt _ s rfl])
      (body_lfo_depth _ s nofun nofun)

theorem step_cutoffLegal {s t : State} (hs : CutoffLegal s) (h : step s = .next t) : CutoffLegal t := by
  refine step_keeps CutoffLegal ?pending ?raise ?respond ?bus ?body s t hs h
  case pending => exact fun _ _ hs => ⟨hs.config, hs.laws, hs.range⟩
  case raise => exact fun s e hs => hs.of_same (raise_sameRate s e) rfl rfl rfl
  case respond =>
    exact fun s w hs => hs.of_same (respond_sameRate s w) (by rw [s.respond_filt]) (by rw [s.respond_filt])
      (by rw [s.respond_lfo])
  case bus =>
    intro a s hs
    have hframe := (busAccess_frame a s).1
    exact hs.of_same (busAccess_sameRate a s) (by rw [hframe]) (by rw [hframe]) (by rw [hframe])
  case body => exact body_cutoffLegal

/-! ## Power-on -/

/-- Power-on leaves READY at 0, so the invariants of the registers after INIT hold. -/
theorem powerOn_not_ready (c : Config) (m : Memory) : ¬(State.powerOn c m).ready = true :=
  (by decide : ¬(0 : Word).getLsbD 31 = true)

theorem powerOn_cutoffInRange (c : Config) (m : Memory) : CutoffInRange (State.powerOn c m) :=
  fun hready => absurd hready (powerOn_not_ready c m)

theorem powerOn_registryExact (c : Config) (m : Memory) : RegistryExact (State.powerOn c m) :=
  .of_empty List.length_replicate rfl fun v hv => by rw [List.eq_of_mem_replicate hv]; rfl

theorem powerOn_storageSound (c : Config) {m : Memory} (h : m.wf = true) : StorageSound (State.powerOn c m) :=
  ⟨h, BitVec.zero_and, Nat.zero_le _, List.length_replicate⟩

/-- Settles O56: the commands that write the cutoffs clamp them, and no other command, response, event or host access
touches them. -/
theorem cutoffNeverExceedsTheNyquistLimit : Obligations.CutoffNeverExceedsTheNyquistLimit :=
  ⟨powerOn_cutoffInRange, fun _ _ hconfig hlaws hs h => (step_cutoffLegal ⟨hconfig, hlaws, hs⟩ h).range⟩

/-- Settles O52: each invariant at power-on. -/
theorem powerOnIsNotReady : Obligations.PowerOnIsNotReady := fun c m =>
  ⟨rfl, rfl, rfl, rfl, powerOn_registryExact c m, powerOn_storageSound c, powerOn_coeffsCurrent c m,
    powerOn_derivedCurrent c m, powerOn_cutoffInRange c m, rfl⟩

end Sys2Proof.Machine
end

section
/-! Which commands are rejected and how (40_control.md R120, 60_exceptions.md R331, R334), the format table (30_encoding.md
R92), and the settlement of O5 to O8. -/

namespace Sys2Proof.Machine

open Sys2Proof.Claims

/-! ## The first failing check (R120) -/

theorem allowedBeforeInit_iff (i : Instr) : allowedBeforeInit i.opcode i.fields = true ↔ beforeInit i := by
  unfold beforeInit
  cases i <;> simp [Instr.opcode, Instr.fields, allowedBeforeInit]

section
variable {i : Instr} {s : State}

theorem rejection_noInit (hready : s.ready = false) (hi : ¬beforeInit i) :
    s.rejection i.opcode i.fields = some .noInit := by
  have hallowed := Bool.eq_false_iff.2 (mt (allowedBeforeInit_iff i).1 hi)
  simp [State.rejection, hready, hallowed]

/-- READY lets the command through to the next check. -/
theorem not_noInit (h : s.ready = true ∨ beforeInit i) :
    (!s.ready && !allowedBeforeInit i.opcode i.fields) = false := by
  rcases h with h | h
  · simp [h]
  · simp [(allowedBeforeInit_iff i).2 h]

theorem rejection_badOp (hmay : s.ready = true ∨ beforeInit i) (hwf : wellFormed s.cfg i = false) :
    s.rejection i.opcode i.fields = some .badOp := by
  unfold State.rejection
  rw [not_noInit hmay]
  by_cases hrsv : i.fields.rsv = 0
  · have hformat : formatOK s.cfg i.opcode i.fields = false := by simpa [wellFormed, hrsv] using hwf
    simp [hrsv, hformat]
  · rw [if_neg Bool.false_ne_true, if_pos (bne_iff_ne.2 hrsv)]

theorem rejection_nanArg (hmay : s.ready = true ∨ beforeInit i) (hwf : wellFormed s.cfg i = true)
    (hop : i.opcode.hasFOperand = true) (hnan : isNaN i.fields.arg = true) :
    s.rejection i.opcode i.fields = some .nanArg := by
  obtain ⟨hrsv, hformat⟩ : i.fields.rsv = 0 ∧ formatOK s.cfg i.opcode i.fields = true := by
    simpa [wellFormed] using hwf
  unfold State.rejection
  rw [not_noInit hmay]
  simp [hrsv, hformat, hop, operandF, hnan]

end

/-! ## What a rejection does (R331) -/

theorem reject_of_not_responding {i : Instr} (hi : ¬responding i) (s : State) (e : Event) :
    s.reject e i.opcode = s.raise e := by
  rw [State.reject, if_neg (mt (responds_iff_responding i).1 hi)]

theorem reject_of_responding {i : Instr} (hi : responding i) (s : State) (e : Event) :
    s.reject e i.opcode = (s.raise e).respond rejectWord := by
  rw [State.reject, if_pos ((responds_iff_responding i).2 hi)]

/-- A rejection raises its event, and answers 0xFFFFFFFF for an opcode that responds; nothing else (00_scope.md R12). -/
theorem reject_rejectedWith (i : Instr) (s : State) (e : Event) :
    RejectedWith (BitVec.twoPow 32 e.code) i s (s.reject e i.opcode) := by
  refine ⟨fun hi => reject_of_not_responding hi s e, fun hi hroom => ?_, fun hi hfull => ?_⟩ <;>
    rw [reject_of_responding hi]
  · exact (s.raise e).respond_queued rejectWord hroom
  · rcases (s.raise e).respond_cases rejectWord with ⟨hroom, _⟩ | ⟨_, h⟩
    · exact absurd hroom (Nat.not_lt.2 hfull)
    · exact h

/-- Settles O5: READY is the first check, and NOINIT has bit 3. -/
theorem commandsBeforeInitRaiseNoInit : Obligations.CommandsBeforeInitRaiseNoInit := fun i s hready hi =>
  ⟨_, exec_rejects i s .noInit (rejection_noInit hready hi), reject_rejectedWith i s .noInit⟩

/-- Settles O6: RSV and the format are the next checks, and BADOP has bit 0. -/
theorem malformedCommandsRaiseBadOp : Obligations.MalformedCommandsRaiseBadOp := fun i s hmay hwf =>
  ⟨_, exec_rejects i s .badOp (rejection_badOp hmay hwf), reject_rejectedWith i s .badOp⟩

/-- No opcode with an F operand responds. -/
theorem not_responding_of_hasFOperand {i : Instr} (h : i.opcode.hasFOperand = true) : ¬responding i := by
  unfold responding
  rintro (hi | hi | hi) <;> rw [hi] at h <;> exact absurd h (by decide)

theorem hasFOperand_iff (op : Opcode) : op.hasFOperand = true ↔ op.format = .gf ∨ op.format = .vf := by
  cases op <;> decide

/-- Settles O8: the NaN check is the last one, and NANARG has bit 1. -/
theorem nanOperandsRaiseNanArg : Obligations.NanOperandsRaiseNanArg := by
  intro i s hready hwf hformat hnan
  have hop := (hasFOperand_iff i.opcode).2 hformat
  have hmay : s.ready = true ∨ beforeInit i := hready.imp_right fun hinit => .inr (.inl hinit)
  rw [exec_rejects i s .nanArg (rejection_nanArg hmay hwf hop hnan),
    reject_of_not_responding (not_responding_of_hasFOperand hop)]
  rfl

/-! ## The format table (30_encoding.md R92) -/

theorem wellFormed_iff (c : Config) (i : Instr) :
    wellFormed c i = true ↔ i.fields.rsv = 0 ∧ formatOK c i.opcode i.fields = true := by
  simp [wellFormed]

/-- The selector bytes that R54 lists. -/
theorem ofCode_isSome_iff (b : BitVec 8) :
    (Selector.ofCode b).isSome = true ↔ b.toNat ≤ 0x1D ∨ (0x20 ≤ b.toNat ∧ b.toNat ≤ 0x31) := by
  revert b
  decide

/-- The SLOT column of R54, by the selector's byte. -/
theorem slotCount_eq (c : Config) (r : Selector) :
    r.slotCount c =
      if r.code.toNat = 0x0B then 2
      else if 0x18 ≤ r.code.toNat ∧ r.code.toNat ≤ 0x1B then c.maxChannels
      else if 0x20 ≤ r.code.toNat then c.numVoices
      else 1 := by
  cases r <;> rfl

/-- An ARG with a zero upper part is its low byte. -/
theorem arg_low (a : BitVec 32) : a.extractLsb' 8 24 = 0 ↔ a.toNat < 0x100 := by
  have hlt := a.isLt
  rw [← BitVec.toNat_inj, BitVec.extractLsb'_toNat, Nat.shiftRight_eq_div_pow, show BitVec.toNat (0 : BitVec 24) = 0 from rfl]
  omega

theorem selector_eq_some_iff (f : Fields) (r : Selector) : f.selector = some r ↔ f.arg.toNat = r.code.toNat := by
  constructor
  · intro h
    unfold Fields.selector at h
    split_ifs at h with hhigh
    have hlt := (arg_low f.arg).1 hhigh
    rw [Selector.code_of_ofCode h, BitVec.extractLsb'_toNat]
    simp only [Nat.shiftRight_zero]
    omega
  · refine fun h => selector_of_arg (BitVec.eq_of_toNat_eq ?_)
    have hlt := r.code.isLt
    rw [h, BitVec.toNat_setWidth, Nat.mod_eq_of_lt (by omega)]

/-- GET is well formed exactly for the selectors of R54 with a SLOT they take. -/
theorem formatOK_get (c : Config) (f : Fields) :
    formatOK c .get f = true ↔ ∃ r : Selector, f.arg.toNat = r.code.toNat ∧ f.slot.toNat < r.slotCount c := by
  simp only [formatOK, Opcode.format]
  simp only [← selector_eq_some_iff]
  cases f.selector <;> simp

/-- The rows of R54 by selector number. -/
theorem exists_selector_iff (c : Config) (n slot : Nat) :
    (∃ r : Selector, n = r.code.toNat ∧ slot < r.slotCount c) ↔
      n < 0x100 ∧
        ((n = 0x0B ∧ slot < 2) ∨ (0x18 ≤ n ∧ n ≤ 0x1B ∧ slot < c.maxChannels) ∨
          (0x20 ≤ n ∧ n ≤ 0x31 ∧ slot < c.numVoices) ∨
            (n ≠ 0x0B ∧ ¬(0x18 ≤ n ∧ n ≤ 0x1B) ∧ n ≤ 0x1D ∧ slot = 0)) := by
  constructor
  · rintro ⟨r, rfl, hslot⟩
    have hcode := (ofCode_isSome_iff r.code).1 (by rw [Selector.ofCode_code]; rfl)
    rw [slotCount_eq] at hslot
    generalize r.code.toNat = n at *
    split_ifs at hslot <;> omega
  · rintro ⟨hn, hrow⟩
    have hbyte : (BitVec.ofNat 8 n).toNat = n := by simp; omega
    have hsome := (ofCode_isSome_iff (BitVec.ofNat 8 n)).2 (by omega)
    obtain ⟨r, hr⟩ := Option.isSome_iff_exists.1 hsome
    have hcode := Selector.code_of_ofCode hr
    refine ⟨r, by rw [hcode, hbyte], ?_⟩
    rw [slotCount_eq, hcode, hbyte]
    split_ifs <;> omega

theorem slot_eq_zero_iff (f : Fields) : f.slot.toNat = 0 ↔ f.slot = 0 := by
  rw [← BitVec.toNat_inj]
  rfl

theorem formatOK_global {c : Config} {op : Opcode} {f : Fields}
    (h : op.format = .z ∨ op.format = .gf ∨ op.format = .gu) : formatOK c op f = true ↔ f.slot = 0 := by
  unfold formatOK
  rcases h with h | h | h <;> rw [h] <;> exact beq_iff_eq

theorem formatOK_voice {c : Config} {op : Opcode} {f : Fields}
    (h : op.format = .v ∨ op.format = .vf ∨ op.format = .vu) :
    formatOK c op f = true ↔ f.slot.toNat < c.numVoices := by
  unfold formatOK
  rcases h with h | h | h <;> rw [h] <;> exact decide_eq_true_iff

theorem formatOK_block {c : Config} {op : Opcode} {f : Fields} (h : op.format = .b) :
    formatOK c op f = true ↔ f.slot.toNat ≤ c.maxChannels ∧ f.arg.toNat ≤ c.maxBlock := by
  unfold formatOK
  rw [h]
  simp only [Bool.and_eq_true, decide_eq_true_eq]

/-- Settles O7: the formats of R92, each opcode with its own; GET by the selectors of R54. -/
theorem wellFormedIsTheFormatTable : Obligations.WellFormedIsTheFormatTable := by
  intro c i
  rw [wellFormed_iff]
  refine and_congr_right fun _ => ?_
  cases i with
  | get f =>
    dsimp only [Instr.opcode, Instr.fields]
    rw [formatOK_get, exists_selector_iff, slot_eq_zero_iff]
  | voiceStart f | voiceSetFreq f | voiceSetVolume f | voiceGlide f => exact formatOK_voice (.inr (.inl rfl))
  | voiceRelease f | voiceKill f => exact formatOK_voice (.inl rfl)
  | voiceSetMute f => exact formatOK_voice (.inr (.inr rfl))
  | rmBlock f | filtBlock f | synthBlock f => exact formatOK_block rfl
  | nop f | stopAll f | lfoPeek f => exact formatOK_global (.inl rfl)
  | clearStatus f | setLfoEnable f => exact formatOK_global (.inr (.inr rfl))
  | _ => exact formatOK_global (.inr (.inl rfl))

end Sys2Proof.Machine
end

section
/-! The control commands and the parameters (40_control.md, 41_voice.md section 2, 46_ring_modulator.md section 1, 47_filter.md
section 2, 48_lfo.md section 1), and the settlement of O10 to O13, O16 to O18, O20 and O21. -/

namespace Sys2Proof.Machine

open Sys2Proof.Claims

/-! ## What an accepted command of each format does -/

/-- An accepted command that processes no samples is its body. -/
theorem exec_body {i : Instr} {s : State} (hn : s.rejection i.opcode i.fields = none)
    (hi : isBlockCommand i.opcode = false) : exec i s = .next (body i s) := by
  rw [exec_runs i s hn, hi]
  rfl

/-- NOP and INIT are accepted before INIT too. -/
theorem rejection_none_early {i : Instr} {s : State} (hi : i.opcode = .nop ∨ i.opcode = .init) (hrsv : i.fields.rsv = 0)
    (hslot : i.fields.slot = 0) (hnan : i.opcode = .init → isNaN i.fields.arg = false) :
    s.rejection i.opcode i.fields = none := by
  refine (s.rejection_none_iff _ _).2 ⟨.inr ?_, hrsv, ?_, fun hop => hnan ?_⟩
  · exact (allowedBeforeInit_iff i).2 (hi.elim .inl fun h => .inr (.inl h))
  · exact (formatOK_global (hi.elim (fun h => .inl (h ▸ rfl)) fun h => .inr (.inl (h ▸ rfl)))).2 hslot
  · exact hi.resolve_left fun h => absurd (h ▸ hop) nofun

theorem exec_global {i : Instr} {s : State} (h : RunsGlobal s i.fields)
    (hi : i.opcode.format = .z ∨ i.opcode.format = .gu) : exec i s = .next (body i s) := by
  refine exec_body (h.rejection_none _ hi) ?_
  cases hop : i.opcode <;> simp_all [Opcode.format, isBlockCommand]

theorem exec_globalF {i : Instr} {s : State} (h : RunsGlobalF s i.fields) (hi : i.opcode.format = .gf) :
    exec i s = .next (body i s) := by
  refine exec_body (h.rejection_none _ hi) ?_
  cases hop : i.opcode <;> simp_all [Opcode.format, isBlockCommand]

/-! ## NOP, INIT, STOP_ALL, CLEAR_STATUS -/

/-- Settles O10: the body of NOP is the identity, and READY does not keep it out. -/
theorem nopChangesNothing : Obligations.NopChangesNothing := fun f _ hrsv hslot =>
  exec_body (i := .nop f) (rejection_none_early (.inl rfl) hrsv hslot nofun) rfl

/-- STATUS after INIT, bit by bit: the sticky bits cleared, READY set, the others kept (R122). -/
theorem getLsbD_initStatus (status : Word) (b : Nat) (hb : b < 32) :
    (initStatus status).getLsbD b = (decide (b = 31) || (decide (6 ≤ b) && status.getLsbD b)) := by
  have hsticky : ∀ b, b < 32 → (~~~stickyMask).getLsbD b = decide (6 ≤ b) := by decide
  have hready : ∀ b, b < 32 → readyMask.getLsbD b = decide (b = 31) := by decide
  rw [initStatus, BitVec.getLsbD_or, BitVec.getLsbD_and, hsticky b hb, hready b hb, Bool.or_comm, Bool.and_comm]

/-- Settles O11: the body of INIT is `initState`, which writes each register. -/
theorem initSetsEveryRegister : Obligations.InitSetsEveryRegister := by
  intro f s hrsv hslot hnan fs nyq k
  refine ⟨initStatus s.status, ?_, getLsbD_initStatus s.status⟩
  exact exec_body (i := .init f) (rejection_none_early (.inr rfl) hrsv hslot fun _ => hnan) rfl

/-- Settles O12: STOP_ALL is `silence` with every slot freed. -/
theorem stopAllSilencesTheBlock : Obligations.StopAllSilencesTheBlock := fun f _ hruns =>
  exec_global (i := .stopAll f) hruns (.inl rfl)

/-- STATUS after CLEAR_STATUS, bit by bit (R125). -/
theorem getLsbD_clearedStatus (status mask : Word) (b : Nat) :
    (clearedStatus status mask).getLsbD b = (status.getLsbD b && !(decide (b < 6) && mask.getLsbD b)) := by
  rcases Nat.lt_or_ge b 32 with hb | hb
  · have hsticky : ∀ b, b < 32 → stickyMask.getLsbD b = decide (b < 6) := by decide
    rw [clearedStatus, BitVec.getLsbD_and, BitVec.getLsbD_not, BitVec.getLsbD_and, hsticky b hb, decide_eq_true hb,
      Bool.true_and, Bool.and_comm (mask.getLsbD b)]
  · rw [BitVec.getLsbD_of_ge _ _ hb, BitVec.getLsbD_of_ge status _ hb, Bool.false_and]

/-- Settles O13: the body of CLEAR_STATUS is `clearedStatus`. -/
theorem clearStatusClearsSelectedStickyBits : Obligations.ClearStatusClearsSelectedStickyBits := fun f s hruns =>
  ⟨_, exec_global (i := .clearStatus f) hruns (.inr rfl), getLsbD_clearedStatus s.status f.arg⟩

/-! ## GET STATUS (R127) -/

/-- GET STATUS is accepted whether READY is set or not. -/
theorem rejection_getStatus {f : Fields} {s : State} (hrsv : f.rsv = 0) (hslot : f.slot = 0) (harg : f.arg = 0) :
    s.rejection .get f = none := by
  refine (s.rejection_none_iff .get f).2 ⟨.inr ?_, hrsv, ?_, nofun⟩
  · exact (allowedBeforeInit_iff (.get f)).2 (.inr (.inr ⟨rfl, hslot, harg⟩))
  · exact (formatOK_get _ f).2 ⟨.status, by rw [harg]; rfl, by rw [hslot]; exact Nat.one_pos⟩

theorem body_get {f : Fields} {r : Selector} (hr : f.selector = some r) (s : State) :
    body (.get f) s = s.respond (s.register (operandSlot f) r) := by
  simp only [body, hr]

/-- Settles O16: selector 0 is STATUS. -/
theorem getStatusWorksBeforeInit : Obligations.GetStatusWorksBeforeInit := by
  intro f s hrsv hslot harg
  have hselector : f.selector = some .status := selector_of_arg harg
  have hn : s.rejection .get f = none := rejection_getStatus hrsv hslot harg
  exact ⟨_, exec_body (i := .get f) hn rfl, body_get hselector s ▸ respond_respondedWith s s.status⟩

/-! ## The parameters -/

/-- Settles O17: each parameter's body. -/
theorem voiceParametersAreClamped : Obligations.VoiceParametersAreClamped := fun f _ hruns =>
  ⟨exec_globalF (i := .setAttack f) hruns rfl, exec_globalF (i := .setDecay f) hruns rfl,
    exec_globalF (i := .setSustain f) hruns rfl, exec_globalF (i := .setRelease f) hruns rfl,
    exec_globalF (i := .setGlide f) hruns rfl, exec_globalF (i := .setPitchBend f) hruns rfl⟩

/-- Settles O18: RM_INCR is computed by the formula of R262. -/
theorem rmRateSetsTheIncrement : Obligations.RmRateSetsTheIncrement := fun f _ hruns =>
  exec_globalF (i := .setRmRate f) hruns rfl

/-- Settles O21: the two bodies. -/
theorem lfoParametersAreClamped : Obligations.LfoParametersAreClamped := fun f _ hruns =>
  ⟨exec_globalF (i := .setLfoRate f) hruns rfl, exec_globalF (i := .setLfoDepth f) hruns rfl⟩

theorem body_setLfoEnable_on {f : Fields} (harg : f.arg ≠ 0) (s : State) :
    body (.setLfoEnable f) s = { s with lfo := { s.lfo with en := true } } := if_neg harg

theorem body_setLfoEnable_off {f : Fields} (harg : f.arg = 0) (s : State) :
    body (.setLfoEnable f) s =
      { s with
        lfo := { s.lfo with en := false }
        filt := updateCoeffs s.cfg s.rate.fs { s.filt with tempCutoff := s.filt.cutoff } } := if_pos harg

/-- Settles O20: a nonzero ARG enables; a zero ARG disables and ends with UpdateCoeffs at CUTOFF. -/
theorem lfoEnableRestoresTheStaticCutoff : Obligations.LfoEnableRestoresTheStaticCutoff := by
  intro f s hruns
  have hexec := exec_global (i := .setLfoEnable f) hruns (.inr rfl)
  refine ⟨fun harg => ?_, fun harg => ?_⟩
  · rw [hexec, body_setLfoEnable_on harg]
  · rw [hexec, body_setLfoEnable_off harg]
    rfl

end Sys2Proof.Machine
end

section
/-! The SET commands are idempotent (40_control.md R131), GET of the voice slots (10_state.md R54), the commands on one slot
(41_voice.md section 3), and the settlement of O15, O23 to O28. -/

namespace Sys2Proof.Machine

open Sys2Proof.Claims

/-! ## SET commands (R131) -/

/-- The twelve SET_* opcodes. -/
def isSetOpcode (op : Opcode) : Bool :=
  match op with
  | .setAttack | .setDecay | .setSustain | .setRelease | .setPitchBend | .setGlide | .setRmRate | .setCutoff
  | .setResonance | .setLfoEnable | .setLfoRate | .setLfoDepth => true
  | _ => false

theorem isSetCommand_iff (i : Instr) : isSetCommand i ↔ isSetOpcode i.opcode = true := by
  unfold isSetCommand
  cases i <;> simp [Instr.opcode, isSetOpcode]

/-- A SET command processes no samples, does not respond and is not INIT. -/
theorem isSetOpcode_kind {op : Opcode} (h : isSetOpcode op = true) :
    isBlockCommand op = false ∧ op.responds = false ∧ op ≠ .init := by
  revert h
  cases op <;> decide

section
variable {i : Instr} (hi : isSetOpcode i.opcode = true) (s : State)
include hi

theorem body_set_idempotent : body i (body i s) = body i s := by
  cases i with
  | setAttack f | setDecay f | setSustain f | setRelease f | setPitchBend f | setGlide f | setRmRate f | setCutoff f
  | setResonance f | setLfoRate f | setLfoDepth f => rfl
  | setLfoEnable f =>
    by_cases harg : f.arg = 0
    · simp only [body_setLfoEnable_off harg]
      rfl
    · simp only [body_setLfoEnable_on harg]
  | _ => exact absurd hi nofun

/-- A SET command neither reads nor writes the slots, BUF, RM_PHASE and LFO_ACC. -/
theorem body_set_withOtherSound (vs : List Voice) (m : Memory) (p acc : F) :
    body i (withOtherSound s vs m p acc) = withOtherSound (body i s) vs m p acc := by
  cases i with
  | setAttack f | setDecay f | setSustain f | setRelease f | setPitchBend f | setGlide f | setRmRate f | setCutoff f
  | setResonance f | setLfoRate f | setLfoDepth f => rfl
  | setLfoEnable f =>
    by_cases harg : f.arg = 0
    · simp only [body_setLfoEnable_off harg]
      rfl
    · simp only [body_setLfoEnable_on harg]
      rfl
  | _ => exact absurd hi nofun

end

/-- The checks of R120 read READY and the configuration alone. -/
theorem rejection_congr {s t : State} (hcfg : t.cfg = s.cfg) (hready : t.ready = s.ready) (op : Opcode) (f : Fields) :
    t.rejection op f = s.rejection op f := by
  unfold State.rejection
  rw [hcfg, hready]

theorem withOtherSound_self (s : State) : withOtherSound s s.voices s.buf s.rm.phase s.lfo.acc = s := rfl

/-- A state that other slots, samples, carrier phase and accumulator leave as it is has those of `s`. -/
theorem withOtherSound_fields {s t : State} (h : withOtherSound t s.voices s.buf s.rm.phase s.lfo.acc = t) :
    t.voices = s.voices ∧ t.buf = s.buf ∧ t.rm.phase = s.rm.phase ∧ t.lfo.acc = s.lfo.acc := by
  rw [← h]
  exact ⟨rfl, rfl, rfl, rfl⟩

/-- Raising an event twice is raising it once: the bits are sticky (60_exceptions.md R330). -/
theorem raise_raise (s : State) (e : Event) : (s.raise e).raise e = s.raise e := by
  unfold State.raise
  rw [BitVec.or_assoc, BitVec.or_self]

/-- Settles O23: a rejected SET command raises one sticky bit; an accepted one writes its register from the operand. -/
theorem setCommandsAreIdempotent : Obligations.SetCommandsAreIdempotent := by
  intro i s t hset h
  have hi := (isSetCommand_iff i).1 hset
  obtain ⟨hplain, hquiet, hinit⟩ := isSetOpcode_kind hi
  have hsame := exec_sameRate hinit h
  have hagain : t.rejection i.opcode i.fields = s.rejection i.opcode i.fields :=
    rejection_congr hsame.cfg hsame.ready _ _
  have hother : ∀ vs m p acc,
      (withOtherSound s vs m p acc).rejection i.opcode i.fields = s.rejection i.opcode i.fields :=
    fun _ _ _ _ => rejection_congr rfl rfl _ _
  have hresult : exec i t = .next t ∧
      ∀ vs m p acc, exec i (withOtherSound s vs m p acc) = .next (withOtherSound t vs m p acc) := by
    rcases exec_cases i s t h with ⟨e, he, rfl⟩ | ⟨hn, hblock, rfl⟩ | ⟨_, hblock, _⟩
    · have hraise : ∀ u : State, u.reject e i.opcode = u.raise e := fun u => by simp [State.reject, hquiet]
      refine ⟨?_, fun vs m p acc => ?_⟩
      · rw [exec_rejects i _ e (hagain.trans he), hraise, hraise, raise_raise]
      · rw [exec_rejects i _ e ((hother vs m p acc).trans he), hraise, hraise]
        rfl
    · refine ⟨?_, fun vs m p acc => ?_⟩
      · rw [exec_body (hagain.trans hn) hblock, body_set_idempotent hi]
      · rw [exec_body ((hother vs m p acc).trans hn) hblock, body_set_withOtherSound hi]
    · exact absurd (hplain.symm.trans hblock) nofun
  obtain ⟨htwice, hrest⟩ := hresult
  have hkept : withOtherSound t s.voices s.buf s.rm.phase s.lfo.acc = t :=
    Host.Outcome.next.inj ((hrest s.voices s.buf s.rm.phase s.lfo.acc).symm.trans h)
  obtain ⟨hvoices, hbuf, hphase, hacc⟩ := withOtherSound_fields hkept
  exact ⟨htwice, hvoices, hbuf, hphase, hacc, hrest⟩

/-! ## GET of a slot (10_state.md R43, R46, R54) -/

/-- V_STATE, bit by bit (R46). -/
theorem getLsbD_stateWord (v : Voice) (b : Nat) :
    v.stateWord.getLsbD b =
      ((decide (b = 10) && v.decayEn) || (decide (b = 9) && v.glideEn) || (decide (b = 8) && v.muted) ||
        (decide (b < 3) && v.state.code.getLsbD b)) := by
  unfold Voice.stateWord
  show BitVec.getLsbD (w := 21 + 1 + 1 + 1 + 5 + 3) (_ ++ _ ++ _ ++ _ ++ _ ++ _) b = _
  simp only [BitVec.getLsbD_append, BitVec.getLsbD_ofBool]
  by_cases hcode : b < 3
  · simp [hcode, show b ≠ 10 by omega, show b ≠ 9 by omega, show b ≠ 8 by omega]
  by_cases hzero : b < 8
  · simp [hcode, show b - 3 < 5 by omega, show b ≠ 10 by omega, show b ≠ 9 by omega, show b ≠ 8 by omega]
  by_cases hmuted : b = 8
  · subst hmuted; simp
  by_cases hglide : b = 9
  · subst hglide; simp
  by_cases hdecay : b = 10
  · subst hdecay; simp
  · simp [*, show ¬b - 3 < 5 by omega, show ¬b - 3 - 5 < 1 by omega, show ¬b - 3 - 5 - 1 < 1 by omega,
      show ¬b - 3 - 5 - 1 - 1 < 1 by omega]

/-- Settles O15: each clause is `getAnswers_register` at its selector, envLevel and regPos by the slot's state. -/
theorem getReadsTheVoiceSlots : Obligations.GetReadsTheVoiceSlots := by
  intro s k hk
  have get (r : Selector) (h : r.slotCount s.cfg = s.cfg.numVoices := by rfl) : GetAnswers s r.code k (s.register k r) :=
    getAnswers_register s r k (h.symm ▸ hk)
  have env {x : F} (h : (s.voice k).envLevel = x) : GetAnswers s 0x26 k x := h ▸ get .vEnv
  have pos {x : Word} (h : s.regPos k = x) : GetAnswers s 0x2E k x := h ▸ get .vRegPos
  refine ⟨get .vFreq, get .vBaseFreq, get .vVolume, get .vPhase, get .vPwmCnt, fun h => env (by rw [Voice.envLevel, h]),
    fun h => env (by rcases h with h | h <;> rw [Voice.envLevel, h]), fun h => env (by rw [Voice.envLevel, h]),
    fun h => ⟨env (by rw [Voice.envLevel, h]; rfl), pos (if_pos h)⟩, fun h => pos (if_neg h), get .vSustain,
    get .vAttackInc, get .vDecayInc, get .vReleaseInc, ⟨_, get .vGlideRem, glideRegister_spec _⟩, get .vGlideInc,
    get .vGlideTarget, get .vAttackVal, get .vCurVal, get .vRelVal, ⟨_, get .vState, getLsbD_stateWord _⟩⟩

/-! ## The commands on one slot -/

theorem exec_voice {i : Instr} {s : State} (h : RunsVoice s i.fields)
    (hi : i.opcode.format = .v ∨ i.opcode.format = .vu) : exec i s = .next (body i s) := by
  refine exec_body (h.rejection_none _ hi) ?_
  cases hop : i.opcode <;> simp_all [Opcode.format, isBlockCommand]

theorem exec_voiceF {i : Instr} {s : State} (h : RunsVoiceF s i.fields) (hi : i.opcode.format = .vf) :
    exec i s = .next (body i s) := by
  refine exec_body (h.rejection_none _ hi) ?_
  cases hop : i.opcode <;> simp_all [Opcode.format, isBlockCommand]

/-- Settles O24: `startedVoice` writes every field but volume. -/
theorem voiceStartSeedsTheSlot : Obligations.VoiceStartSeedsTheSlot := fun _ _ hruns =>
  exec_voiceStart hruns

theorem body_voiceRelease_idle {f : Fields} {s : State}
    (h : (s.voice f.slot.toNat).state = .free ∨ (s.voice f.slot.toNat).state = .release) :
    body (.voiceRelease f) s = s := if_pos h

theorem body_voiceRelease_starts {f : Fields} {s : State}
    (hstate : ¬((s.voice f.slot.toNat).state = .free ∨ (s.voice f.slot.toNat).state = .release))
    (hzero : ¬(fEq s.params.release fZero || fEq (s.voice f.slot.toNat).sustain fZero) = true) :
    body (.voiceRelease f) s =
      s.setVoice f.slot.toNat (releasedVoice s.params s.rate.envMaxSamples (s.voice f.slot.toNat)) :=
  (if_neg hstate).trans (if_neg hzero)

/-- A zero release time or a zero sustain level retires a sounding slot (R162). -/
theorem body_voiceRelease_retires_of_zero {f : Fields} {s : State}
    (hstate : ¬((s.voice f.slot.toNat).state = .free ∨ (s.voice f.slot.toNat).state = .release))
    (hzero : (fEq s.params.release fZero || fEq (s.voice f.slot.toNat).sustain fZero) = true) :
    body (.voiceRelease f) s = s.retire f.slot.toNat :=
  (if_neg hstate).trans (if_pos hzero)

/-- Settles O25: the three branches of R162. -/
theorem voiceReleaseSeedsOrRetires : Obligations.VoiceReleaseSeedsOrRetires := by
  intro f s hruns k v n
  rw [exec_voiceRelease hruns]
  refine ⟨fun h => ?idle, fun hfree hrelease hzero => ?retires, fun hfree hrelease hrate hsustain => ?starts⟩
  case idle => rw [body_voiceRelease_idle h]
  case retires =>
    rw [body_voiceRelease_retires_of_zero (not_or.2 ⟨hfree, hrelease⟩) (Bool.or_eq_true_iff.2 hzero)]
    rfl
  case starts =>
    rw [body_voiceRelease_starts (not_or.2 ⟨hfree, hrelease⟩) (by rw [hrate]; exact Bool.eq_false_iff.1 hsustain)]
    rfl

theorem body_voiceKill_free {f : Fields} {s : State} (h : (s.voice f.slot.toNat).state = .free) :
    body (.voiceKill f) s = s := if_pos h

theorem body_voiceKill_active {f : Fields} {s : State} (h : (s.voice f.slot.toNat).state ≠ .free) :
    body (.voiceKill f) s = s.retire f.slot.toNat := if_neg h

/-- Settles O26: an active slot is retired. -/
theorem voiceKillRetires : Obligations.VoiceKillRetires := by
  intro f s hruns k
  have hexec := exec_voice (i := .voiceKill f) hruns (.inl rfl)
  refine ⟨fun h => ?_, fun h => ?_⟩
  · rw [hexec, body_voiceKill_free h]
  · rw [hexec, body_voiceKill_active h]
    rfl

/-- VOICE_SET_MUTE stores whether ARG is nonzero (R167). -/
theorem body_voiceSetMute (f : Fields) (s : State) :
    body (.voiceSetMute f) s =
      s.setVoice f.slot.toNat { s.voice f.slot.toNat with muted := decide (f.arg ≠ 0) } := by
  have hmuted : (operandU f != 0) = decide (f.arg ≠ 0) := by
    rw [bne, decide_not]
    rfl
  dsimp only [body]
  rw [hmuted]
  rfl

/-- Settles O27: each command's body. -/
theorem voiceSetCommandsWriteTheirFields : Obligations.VoiceSetCommandsWriteTheirFields := by
  intro f s k
  refine ⟨fun hruns => exec_voiceF (i := .voiceSetFreq f) hruns rfl,
    fun hruns => exec_voiceF (i := .voiceSetVolume f) hruns rfl, fun hruns => ?_⟩
  rw [exec_voice (i := .voiceSetMute f) hruns (.inr rfl), body_voiceSetMute]
  rfl

theorem body_voiceGlide_free {f : Fields} {s : State} (h : (s.voice f.slot.toNat).state = .free) :
    body (.voiceGlide f) s = s := if_pos h

theorem body_voiceGlide_active {f : Fields} {s : State} (h : (s.voice f.slot.toNat).state ≠ .free) :
    body (.voiceGlide f) s =
      s.setVoice f.slot.toNat
        (glidingVoice (clampFreq s f) (samples s.params.glide s.rate.glideMaxSamples) (s.voice f.slot.toNat)) :=
  if_neg h

/-- Settles O28: an active slot becomes `glidingVoice`. -/
theorem voiceGlideStartsFromTheCurrentFrequency : Obligations.VoiceGlideStartsFromTheCurrentFrequency := by
  intro f s hruns k t n
  have hexec := exec_voiceF (i := .voiceGlide f) hruns rfl
  refine ⟨fun h => ?_, fun h => ?_⟩
  · rw [hexec, body_voiceGlide_free h]
  · rw [hexec, body_voiceGlide_active h]
    rfl

end Sys2Proof.Machine
end

section
/-! The arithmetic and the primitives of 00_scope.md R10 and R11, and the settlement of O9 and O35 to O37. -/

namespace Sys2Proof.Machine

/-! ## The classes of patterns -/

theorem not_nan_of_inf {a : F} (h : isInf a = true) : isNaN a = false := by
  rw [isInf_iff] at h
  rw [← Bool.not_eq_true, isNaN_iff]
  omega

theorem not_finite_of_inf {a : F} (h : isInf a = true) : isFinite a = false := by
  rw [isInf_iff] at h
  rw [← Bool.not_eq_true, isFinite_iff]
  omega

theorem extractLsb'_eq_iff (a : F) (i n : Nat) (x : BitVec n) :
    a.extractLsb' i n = x ↔ a.toNat / 2 ^ i % 2 ^ n = x.toNat := by
  rw [← BitVec.toNat_inj, BitVec.extractLsb'_toNat, Nat.shiftRight_eq_div_pow]

theorem isNaN_iff_fields (a : F) : isNaN a = true ↔ a.extractLsb' 23 8 = 0xFF ∧ a.extractLsb' 0 23 ≠ 0 := by
  rw [ne_eq, extractLsb'_eq_iff, extractLsb'_eq_iff]
  simp [isNaN, fExp, fFrac]

theorem isFinite_iff_fields (a : F) : isFinite a = true ↔ a.extractLsb' 23 8 ≠ 0xFF := by
  rw [ne_eq, extractLsb'_eq_iff]
  simp [isFinite, fExp]

/-- A quiet NaN has bits 30:22 set, whatever its sign and payload (20_memory.md R85). -/
theorem getLsbD_quietNaN (p : BitVec 23) {k : Nat} (h1 : 22 ≤ k) (h2 : k < 31) : (quietNaN p).getLsbD k = true := by
  have hones : ∀ j, j < 9 → (0x1FF : BitVec 9).getLsbD j = true := by decide
  show BitVec.getLsbD (w := 1 + 9 + 22) (p.extractLsb' 22 1 ++ (0x1FF : BitVec 9) ++ p.extractLsb' 0 22) k = true
  rw [BitVec.getLsbD_append, if_neg (by omega), BitVec.getLsbD_append, if_pos (by omega)]
  exact hones _ (by omega)

theorem isNaN_quietNaN (p : BitVec 23) : isNaN (quietNaN p) = true := by
  rw [isNaN_iff_fields]
  constructor
  · refine BitVec.eq_of_getLsbD_eq fun k hk => ?_
    have hones : ∀ j, j < 8 → (0xFF : BitVec 8).getLsbD j = true := by decide
    rw [BitVec.getLsbD_extractLsb', getLsbD_quietNaN p (by omega) (by omega), hones k hk, decide_eq_true hk]
    rfl
  · intro hzero
    have hquiet : ((quietNaN p).extractLsb' 0 23).getLsbD 22 = true := by
      rw [BitVec.getLsbD_extractLsb', getLsbD_quietNaN p (by omega) (by omega)]
      rfl
    rw [hzero] at hquiet
    exact absurd hquiet nofun

theorem isNaN_fNaN (op : FOp) (a b : F) : isNaN (fNaN op a b) = true := isNaN_quietNaN _

/-- A pattern is its sign and its magnitude. -/
theorem eq_fPack (a : F) : a = fPack (fNeg a) (fMag a) := by
  have ha := a.isLt
  refine BitVec.eq_of_toNat_eq ?_
  unfold fPack fMag fNeg
  rw [BitVec.toNat_ofNat, BitVec.msb_eq_decide]
  by_cases h : 2 ^ (32 - 1) ≤ a.toNat
  · rw [decide_eq_true h, if_pos rfl]; omega
  · rw [decide_eq_false h, if_neg Bool.false_ne_true]; omega

/-- There is one infinity of each sign. -/
theorem fInf_fNeg {a : F} (h : isInf a = true) : fInf (fNeg a) = a := by
  rw [isInf_iff] at h
  conv_rhs => rw [eq_fPack a, h]
  rfl

/-! ## Operations on finite operands (R10) -/

theorem fAdd_roundedTo {a b : F} (ha : isFinite a = true) (hb : isFinite b = true) :
    RoundedTo (fAdd a b) (sumNeg (fNeg a) (fNeg b) (valueUnits a + valueUnits b)) (valueUnits a + valueUnits b) 1 := by
  obtain ⟨hnan, hkey⟩ := fAdd_spec a b ha hb
  exact roundedTo_of_key Nat.one_pos hnan (addSigned_neg .add a b (fNeg b) ha hb) hkey

theorem fSub_roundedTo {a b : F} (ha : isFinite a = true) (hb : isFinite b = true) :
    RoundedTo (fSub a b) (sumNeg (fNeg a) (!fNeg b) (valueUnits a - valueUnits b)) (valueUnits a - valueUnits b) 1 := by
  obtain ⟨hnan, hkey⟩ := fSub_spec a b ha hb
  refine roundedTo_of_key Nat.one_pos hnan ((addSigned_neg .sub a b (!fNeg b) ha hb).trans ?_) hkey
  have hminus : (if (!fNeg b) = true then -(fUnits b : Int) else fUnits b) = -valueUnits b := by
    unfold valueUnits
    cases fNeg b <;> simp
  rw [hminus, sub_eq_add_neg]

theorem fMul_finite {a b : F} (ha : isFinite a = true) (hb : isFinite b = true) :
    fMul a b = fPack (fNeg a != fNeg b) (roundUnits (fUnits a * fUnits b) (2 ^ 149)) := by
  simp [fMul, not_nan_of_finite ha, not_nan_of_finite hb, not_inf_of_finite ha, not_inf_of_finite hb]

theorem fDiv_finite {a b : F} (ha : isFinite a = true) (hb : isFinite b = true) (h0 : fUnits b ≠ 0) :
    fDiv a b = fPack (fNeg a != fNeg b) (roundUnits (fUnits a * 2 ^ 149) (fUnits b)) := by
  simp [fDiv, not_nan_of_finite ha, not_nan_of_finite hb, not_inf_of_finite ha, not_inf_of_finite hb, h0]

theorem fMul_roundedTo {a b : F} (ha : isFinite a = true) (hb : isFinite b = true) :
    RoundedTo (fMul a b) (fNeg a != fNeg b) (valueUnits a * valueUnits b) (2 ^ 149) := by
  obtain ⟨hnan, hkey⟩ := fMul_spec a b ha hb
  refine roundedTo_of_key (Nat.two_pow_pos 149) hnan ?_ hkey
  rw [fMul_finite ha hb, fNeg_fPack _ _ (round_lt _ _)]

theorem fDiv_roundedTo {a b : F} (ha : isFinite a = true) (hb : isFinite b = true) (h0 : fUnits b ≠ 0) :
    RoundedTo (fDiv a b) (fNeg a != fNeg b) (if fNeg b then -(valueUnits a * 2 ^ 149) else valueUnits a * 2 ^ 149)
      (fUnits b) := by
  obtain ⟨hnan, hkey⟩ := fDiv_spec a b ha hb h0
  refine roundedTo_of_key (Nat.pos_of_ne_zero h0) hnan ?_ hkey
  rw [fDiv_finite ha hb h0, fNeg_fPack _ _ (round_lt _ _)]

/-- Settles O35: each operation rounds its exact result once. -/
theorem arithmeticRoundsToNearest : Obligations.ArithmeticRoundsToNearest := fun _ _ ha hb =>
  ⟨fAdd_roundedTo ha hb, fSub_roundedTo ha hb, fMul_roundedTo ha hb, fDiv_roundedTo ha hb⟩

/-! ## Operations on special values -/

section
variable {a b : F}

theorem addSigned_nan (op : FOp) (nb : Bool) (h : isNaN a = true ∨ isNaN b = true) :
    isNaN (addSigned op a b nb) = true := by
  rw [addSigned, if_pos (Bool.or_eq_true_iff.2 h)]
  exact isNaN_fNaN op a b

/-- An infinity plus what is no NaN and no infinity of the other sign is that infinity. -/
theorem addSigned_inf_left (op : FOp) (nb : Bool) (ha : isInf a = true) (hb : isNaN b = false)
    (hsign : isInf b = true → fNeg a = nb) : addSigned op a b nb = a := by
  have hkeep : ¬(isInf b && fNeg a != nb) = true := by simpa using hsign
  rw [addSigned, if_neg (by simp [not_nan_of_inf ha, hb]), if_pos ha, if_neg hkeep, fInf_fNeg ha]

theorem addSigned_inf_right (op : FOp) (nb : Bool) (ha : isFinite a = true) (hb : isInf b = true) :
    addSigned op a b nb = fInf nb := by
  rw [addSigned, if_neg (by simp [not_nan_of_finite ha, not_nan_of_inf hb]), if_neg (by simp [not_inf_of_finite ha]),
    if_pos hb]

/-- The sum of infinities of opposite signs is a NaN. -/
theorem addSigned_inf_opposite (op : FOp) (nb : Bool) (ha : isInf a = true) (hb : isInf b = true)
    (hsign : fNeg a ≠ nb) : isNaN (addSigned op a b nb) = true := by
  have hopposite : (isInf b && fNeg a != nb) = true := by simp [hb, hsign]
  rw [addSigned, if_neg (by simp [not_nan_of_inf ha, not_nan_of_inf hb]), if_pos ha, if_pos hopposite]
  exact isNaN_fNaN op a b

theorem fMul_nan (h : isNaN a = true ∨ isNaN b = true) : isNaN (fMul a b) = true := by
  simp only [fMul, if_pos (Bool.or_eq_true_iff.2 h)]
  exact isNaN_fNaN .mul a b

theorem fDiv_nan (h : isNaN a = true ∨ isNaN b = true) : isNaN (fDiv a b) = true := by
  simp only [fDiv, if_pos (Bool.or_eq_true_iff.2 h)]
  exact isNaN_fNaN .div a b

/-- A product with an infinity and no NaN is infinite, unless the other factor is zero. -/
theorem fMul_inf (ha : isNaN a = false) (hb : isNaN b = false) (hinf : isInf a = true ∨ isInf b = true)
    (ha0 : isFinite a = true → fUnits a ≠ 0) (hb0 : isFinite b = true → fUnits b ≠ 0) :
    fMul a b = fInf (fNeg a != fNeg b) := by
  have hzero : ¬(isFinite a && fUnits a == 0 || isFinite b && fUnits b == 0) = true := by
    simpa using ⟨ha0, hb0⟩
  simp only [fMul, ha, hb, Bool.or_self, Bool.false_eq_true, if_false, if_pos (Bool.or_eq_true_iff.2 hinf), if_neg hzero]

/-- The product of an infinity and a zero is a NaN. -/
theorem fMul_inf_zero (ha : isNaN a = false) (hb : isNaN b = false) (hinf : isInf a = true ∨ isInf b = true)
    (hzero : (isFinite a = true ∧ fUnits a = 0) ∨ (isFinite b = true ∧ fUnits b = 0)) : isNaN (fMul a b) = true := by
  have hzero : (isFinite a && fUnits a == 0 || isFinite b && fUnits b == 0) = true := by simpa using hzero
  simp only [fMul, ha, hb, Bool.or_self, Bool.false_eq_true, if_false, if_pos (Bool.or_eq_true_iff.2 hinf), if_pos hzero]
  exact isNaN_fNaN .mul a b

theorem fDiv_inf_finite (ha : isInf a = true) (hb : isFinite b = true) : fDiv a b = fInf (fNeg a != fNeg b) := by
  simp [fDiv, not_nan_of_inf ha, not_nan_of_finite hb, ha, not_inf_of_finite hb]

theorem fDiv_finite_inf (ha : isFinite a = true) (hb : isInf b = true) : fDiv a b = fPack (fNeg a != fNeg b) 0 := by
  simp [fDiv, not_nan_of_finite ha, not_nan_of_inf hb, not_inf_of_finite ha, hb]

theorem fDiv_inf_inf (ha : isInf a = true) (hb : isInf b = true) : isNaN (fDiv a b) = true := by
  simp [fDiv, not_nan_of_inf ha, not_nan_of_inf hb, ha, hb, isNaN_fNaN]

theorem fDiv_zero (ha : isFinite a = true) (hb : isFinite b = true) (h0 : fUnits b = 0) :
    fDiv a b = if fUnits a = 0 then fNaN .div a b else fInf (fNeg a != fNeg b) := by
  simp [fDiv, not_nan_of_finite ha, not_nan_of_finite hb, not_inf_of_finite ha, not_inf_of_finite hb, h0]

end

/-- Settles O36: a clause for NaNs, one for an infinity and a finite operand, one for two infinities, one for a zero
divisor. -/
theorem arithmeticOnSpecialValues : Obligations.ArithmeticOnSpecialValues := by
  refine fun a b => ⟨fun h => ?nan, fun ha hb => ?infFinite, fun ha hb => ?infInf, fun ha hb h0 => ?zero⟩
  case nan => exact ⟨addSigned_nan _ _ h, addSigned_nan _ _ h, fMul_nan h, fDiv_nan h⟩
  case infFinite =>
    have hna := not_nan_of_inf ha
    have hnb := not_nan_of_finite hb
    have hfa : isFinite a = true → fUnits a ≠ 0 := fun h => absurd ((not_finite_of_inf ha).symm.trans h) nofun
    have hib : isInf b = true → ∀ x : Bool, fNeg a = x := fun h => absurd ((not_inf_of_finite hb).symm.trans h) nofun
    refine ⟨addSigned_inf_left _ _ ha hnb (hib · _), (addSigned_inf_right _ _ hb ha).trans (fInf_fNeg ha),
      addSigned_inf_left _ _ ha hnb (hib · _), addSigned_inf_right _ _ hb ha, fDiv_inf_finite ha hb, fDiv_finite_inf hb ha,
      fun h0 => ⟨?_, ?_⟩, fun h0 => ⟨?_, ?_⟩⟩
    · exact fMul_inf hna hnb (.inl ha) hfa fun _ => h0
    · exact fMul_inf hnb hna (.inr ha) (fun _ => h0) hfa
    · exact fMul_inf_zero hna hnb (.inl ha) (.inr ⟨hb, h0⟩)
    · exact fMul_inf_zero hnb hna (.inr ha) (.inl ⟨hb, h0⟩)
  case infInf =>
    have hna := not_nan_of_inf ha
    have hnb := not_nan_of_inf hb
    have hfa : isFinite a = true → fUnits a ≠ 0 := fun h => absurd ((not_finite_of_inf ha).symm.trans h) nofun
    have hfb : isFinite b = true → fUnits b ≠ 0 := fun h => absurd ((not_finite_of_inf hb).symm.trans h) nofun
    refine ⟨fun hsame => ⟨?_, ?_⟩, fun hdiff => ⟨?_, ?_⟩, fMul_inf hna hnb (.inl ha) hfa hfb, fDiv_inf_inf ha hb⟩
    · exact addSigned_inf_left _ _ ha hnb fun _ => hsame
    · exact addSigned_inf_opposite _ _ ha hb (by simp [hsame])
    · exact addSigned_inf_opposite _ _ ha hb hdiff
    · exact addSigned_inf_left _ _ ha hnb fun _ => Bool.eq_not_of_ne hdiff
  case zero =>
    rw [fDiv_zero ha hb h0]
    exact ⟨fun hne => if_neg hne, fun heq => by rw [if_pos heq]; exact isNaN_fNaN .div a b⟩

/-! ## Comparisons (R11) -/

theorem fLt_iff_value {a b : F} (ha : isFinite a = true) (hb : isFinite b = true) :
    fLt a b = true ↔ valueUnits a < valueUnits b := by
  rw [fLt_iff (not_nan_of_finite ha) (not_nan_of_finite hb), ← not_le, ← not_le, fKey_le_iff]

theorem fLe_iff_value {a b : F} (ha : isFinite a = true) (hb : isFinite b = true) :
    fLe a b = true ↔ valueUnits a ≤ valueUnits b := by
  rw [fLe_iff (not_nan_of_finite ha) (not_nan_of_finite hb), fKey_le_iff]

theorem fEq_iff_value {a b : F} (ha : isFinite a = true) (hb : isFinite b = true) :
    fEq a b = true ↔ valueUnits a = valueUnits b := by
  have hkey : fEq a b = true ↔ fKey a = fKey b := by
    simp [fEq, fOrdered, not_nan_of_finite ha, not_nan_of_finite hb]
  rw [hkey, le_antisymm_iff, le_antisymm_iff, fKey_le_iff, fKey_le_iff]

/-- A finite value lies strictly between the infinities. -/
theorem finite_between_infinities {a : F} (ha : isFinite a = true) :
    fLt a 0x7F800000 = true ∧ fLt 0xFF800000 a = true := by
  have hna := not_nan_of_finite ha
  have hmag := (isFinite_iff a).1 ha
  obtain ⟨hlow, hhigh⟩ := fKey_bound a
  have htop : fKey 0x7F800000 = 0x7F800000 := by decide
  have hbottom : fKey 0xFF800000 = -0x7F800000 := by decide
  rw [fLt_iff hna (by decide), fLt_iff (by decide) hna, htop, hbottom]
  omega

theorem not_ordered_of_nan {a b : F} (h : isNaN a = true ∨ isNaN b = true) : fOrdered a b = false := by
  rcases h with h | h <;> simp [fOrdered, h]

/-! ## clamp, min, max, toF (R11) -/

/-- `clamp` of values that are no NaN (R11, 40_control.md R121). -/
theorem fClamp_eq {v lo hi : F} (hv : isNaN v = false) (hlo : isNaN lo = false) (hhi : isNaN hi = false) :
    fClamp v lo hi = if fLt v lo then lo else if fLt hi v then hi else v := by
  simp [fClamp, hv, hlo, hhi]

/-- −0.0 is at the place of +0.0, so a bound of +0.0 keeps it. -/
theorem fClamp_negZero {hi : F} (h : fLe 0x00000000 hi = true) : fClamp 0x80000000 0x00000000 hi = 0x80000000 := by
  obtain ⟨_, hhi, hle⟩ := fLe_ordered h
  have habove : ¬fLt hi 0x80000000 = true := by
    rw [fLt_iff hhi (by decide)]
    have hzero : fKey 0x00000000 = 0 := by decide
    have hnegZero : fKey 0x80000000 = 0 := by decide
    omega
  rw [fClamp_eq (by decide) (by decide) hhi, if_neg (by decide), if_neg habove]

/-- An infinite operand lies beyond both bounds. -/
theorem fClamp_infinities {lo hi : F} (hlo : isFinite lo = true) (hhi : isFinite hi = true) :
    fClamp 0x7F800000 lo hi = hi ∧ fClamp 0xFF800000 lo hi = lo := by
  have hnlo := not_nan_of_finite hlo
  have hnhi := not_nan_of_finite hhi
  obtain ⟨hloTop, hloBottom⟩ := finite_between_infinities hlo
  have hhiTop := (finite_between_infinities hhi).1
  have hnot : ¬fLt 0x7F800000 lo = true := by
    have hlt := (fLt_ordered hloTop).2.2
    rw [fLt_iff (by decide) hnlo]
    omega
  rw [fClamp_eq (by decide) hnlo hnhi, fClamp_eq (by decide) hnlo hnhi, if_neg hnot, if_pos hhiTop, if_pos hloBottom]
  exact ⟨rfl, rfl⟩

/-- Settles O9: `fClamp_eq` by its three branches, and the infinities beyond every finite bound. -/
theorem infiniteOperandsClampToBounds : Obligations.InfiniteOperandsClampToBounds := by
  refine ⟨fun v lo hi hv hlo hhi => ?_, fun hi h => fClamp_negZero h, fun lo hi hlo hhi _ => fClamp_infinities hlo hhi⟩
  rw [fClamp_eq hv hlo hhi]
  exact ⟨fun h => if_pos h, fun h h' => by rw [h, h']; rfl, fun h h' => by rw [h, h']; rfl⟩

theorem fMin_eq {a b : F} (ha : isNaN a = false) (hb : isNaN b = false) : fMin a b = if fLe a b then a else b := by
  simp [fMin, ha, hb]

theorem fMax_eq {a b : F} (ha : isNaN a = false) (hb : isNaN b = false) : fMax a b = if fLe b a then a else b := by
  simp [fMax, ha, hb]

/-- `toF` rounds a natural once. -/
theorem toF_roundedTo (n : Nat) : RoundedTo (toF n) false ((n : Int) * 2 ^ 149) 1 := by
  refine roundedTo_of_key Nat.one_pos (isNaN_fPack_round _ _ _) (fNeg_fPack _ _ (round_lt _ _)) ?_
  rw [toF, fKey_pack_round _ _ _ Nat.one_pos]
  norm_cast

/-- Settles O37: each primitive's own lemma. -/
theorem primitivesFollowTheirDefinitions : Obligations.PrimitivesFollowTheirDefinitions := by
  refine ⟨fun a => ⟨isNaN_iff_fields a, isFinite_iff_fields a⟩,
    fun a b ha hb => ⟨fLt_iff_value ha hb, fLe_iff_value ha hb, fEq_iff_value ha hb⟩,
    fun a ha => finite_between_infinities ha, fun a b h => ?nan, fun a b ha hb => ⟨fMin_eq ha hb, fMax_eq ha hb⟩,
    fun v hv h0 => floorN_spec hv h0, fun a b ha hb ha0 hb0 => fMod_spec ha hb ha0 hb0, fun a b hb => fMod_range a hb,
    toF_roundedTo⟩
  case nan => simp [fLt, fLe, fEq, not_ordered_of_nan h]

end Sys2Proof.Machine
end

section
/-! The units of a slot and the sweep (43_envelope.md, 44_portamento.md, 45_render.md R241, 47_filter.md R289), and the
settlement of O30 to O34. -/

namespace Sys2Proof.Machine

open Sys2Proof.Claims

/-! ## The envelope step, state by state (43_envelope.md R212) -/

section
variable {v : Voice}

theorem envStep_attack (h : v.state = .attack) : envStep v = envAttack v := by simp only [envStep, h]

theorem envStep_decay (h : v.state = .decay) : envStep v = envDecay v := by simp only [envStep, h]

theorem envStep_sustain (h : v.state = .sustain) : envStep v = ⟨v, v.currentValue, true⟩ := by simp only [envStep, h]

theorem envStep_release (h : v.state = .release) : envStep v = envRelease v := by simp only [envStep, h]

theorem envAttack_rising (h : fLe fOne (fAdd v.attackValue v.attackInc) = false) :
    envAttack v =
      ⟨{ v with attackValue := fAdd v.attackValue v.attackInc }, fAdd v.attackValue v.attackInc, true⟩ :=
  if_neg (Bool.eq_false_iff.1 h)

theorem envAttack_peak_decay (h : fLe fOne (fAdd v.attackValue v.attackInc) = true) (hd : v.decayEn = true) :
    envAttack v = ⟨{ v with attackValue := fOne, state := .decay, currentValue := fOne }, fOne, true⟩ :=
  (if_pos h).trans (if_pos hd)

theorem envAttack_peak_sustain (h : fLe fOne (fAdd v.attackValue v.attackInc) = true) (hd : v.decayEn = false) :
    envAttack v = ⟨{ v with attackValue := fOne, state := .sustain, currentValue := v.sustain }, fOne, true⟩ :=
  (if_pos h).trans (if_neg (Bool.eq_false_iff.1 hd))

theorem envDecay_ends (h : fLe (fSub v.currentValue v.decayInc) v.sustain = true) :
    envDecay v = ⟨{ v with currentValue := v.sustain, state := .sustain }, v.sustain, true⟩ := if_pos h

theorem envDecay_falling (h : fLe (fSub v.currentValue v.decayInc) v.sustain = false) :
    envDecay v =
      ⟨{ v with currentValue := fSub v.currentValue v.decayInc }, fSub v.currentValue v.decayInc, true⟩ :=
  if_neg (Bool.eq_false_iff.1 h)

theorem envRelease_ends (h : fLt (fSub v.releaseValue v.releaseInc) fZero = true) :
    envRelease v = ⟨{ v with releaseValue := fSub v.releaseValue v.releaseInc }, fZero, false⟩ := if_pos h

theorem envRelease_falling (h : fLt (fSub v.releaseValue v.releaseInc) fZero = false) :
    envRelease v =
      ⟨{ v with releaseValue := fSub v.releaseValue v.releaseInc }, fSub v.releaseValue v.releaseInc, true⟩ :=
  if_neg (Bool.eq_false_iff.1 h)

end

/-- Settles O31: the branches of each state's step. -/
theorem envelopeStepFollowsItsState : Obligations.EnvelopeStepFollowsItsState := by
  refine fun v => ⟨fun hs => ?attack, fun hs => ?decay, envStep_sustain, fun hs => ?release⟩
  case attack =>
    rw [envStep_attack hs]
    exact ⟨envAttack_rising, envAttack_peak_decay, envAttack_peak_sustain⟩
  case decay =>
    rw [envStep_decay hs]
    exact ⟨envDecay_ends, envDecay_falling⟩
  case release =>
    rw [envStep_release hs]
    exact ⟨envRelease_ends, envRelease_falling⟩

/-! ## Amplitudes (R213) -/

/-- A value of [0.0, 1.0] by its place in the order. -/
theorem inUnit_of_key {v : F} (hnan : isNaN v = false) (h0 : 0 ≤ fKey v) (h1 : fKey v ≤ fKey fOne) :
    inRange fZero fOne v = true := by
  have hlow : fLe fZero v = true := (fLe_iff (by decide) hnan).2 (by rw [show fKey fZero = 0 by decide]; exact h0)
  have hhigh : fLe v fOne = true := (fLe_iff hnan (by decide)).2 h1
  exact inRange_iff.2 ⟨isFinite_between (by decide) (by decide) hlow hhigh, hlow, hhigh⟩

theorem inUnit_key {v : F} (h : inRange fZero fOne v = true) : isFinite v = true ∧ 0 ≤ fKey v ∧ fKey v ≤ fKey fOne := by
  obtain ⟨hfinite, hlow, hhigh⟩ := inRange_iff.1 h
  have hzero : fKey fZero = 0 := by decide
  exact ⟨hfinite, hzero ▸ (fLe_ordered hlow).2.2, (fLe_ordered hhigh).2.2⟩

theorem zero_inUnit : inRange fZero fOne fZero = true := by decide

theorem one_inUnit : inRange fZero fOne fOne = true := by decide

/-- A sum of values from 0.0 up is at least 0.0. -/
theorem fAdd_key_nonneg {a b : F} (ha : isFinite a = true) (hb : isFinite b = true) (ha0 : 0 ≤ fKey a)
    (hb0 : 0 ≤ fKey b) : 0 ≤ fKey (fAdd a b) := by
  have hzero : fKey fZero = 0 := by decide
  have hsum : fKey (fAdd fZero fZero) = 0 := by decide +kernel
  have hle := fAdd_key_le (a := fZero) (b := fZero) (by decide) (by decide) ha hb (by omega) (by omega)
  omega

/-- Taking away at least 0.0 leaves at most the value. -/
theorem fSub_key_le_left {a b : F} (ha : isFinite a = true) (hb : isFinite b = true) (hb0 : 0 ≤ fKey b) :
    fKey (fSub a b) ≤ fKey a := by
  have hzero : fKey fZero = 0 := by decide
  have hle := fSub_key_le ha hb ha (d := fZero) (by decide) le_rfl (by omega)
  have hself : fKey (fSub a fZero) = fKey a := by
    rw [(fSub_spec a fZero ha (by decide)).2, show valueUnits fZero = 0 by decide, sub_zero, signedRound_value a ha]
  omega

theorem envAttack_inUnit {v : Voice} (hvalue : inRange fZero fOne v.attackValue = true)
    (hinc : inRange fZero fOne v.attackInc = true) : inRange fZero fOne (envAttack v).amp = true := by
  obtain ⟨hfinite, hvalue0, _⟩ := inUnit_key hvalue
  obtain ⟨hfinite', hinc0, _⟩ := inUnit_key hinc
  have hnan := (fAdd_spec _ _ hfinite hfinite').1
  cases hpeak : fLe fOne (fAdd v.attackValue v.attackInc) with
  | false =>
    rw [envAttack_rising hpeak]
    have hbelow := (fLt_ordered (fLt_of_not_fLe (by decide) hnan hpeak)).2.2
    exact inUnit_of_key hnan (fAdd_key_nonneg hfinite hfinite' hvalue0 hinc0) hbelow.le
  | true =>
    cases hd : v.decayEn with
    | false => rw [envAttack_peak_sustain hpeak hd]; exact one_inUnit
    | true => rw [envAttack_peak_decay hpeak hd]; exact one_inUnit

theorem envDecay_inUnit {v : Voice} (hvalue : inRange fZero fOne v.currentValue = true)
    (hinc : inRange fZero fOne v.decayInc = true) (hsustain : inRange fZero fOne v.sustain = true) :
    inRange fZero fOne (envDecay v).amp = true := by
  obtain ⟨hfinite, _, hvalue1⟩ := inUnit_key hvalue
  obtain ⟨hfinite', hinc0, _⟩ := inUnit_key hinc
  obtain ⟨hfiniteS, hsustain0, _⟩ := inUnit_key hsustain
  have hnan := (fSub_spec _ _ hfinite hfinite').1
  cases hend : fLe (fSub v.currentValue v.decayInc) v.sustain with
  | true => rw [envDecay_ends hend]; exact hsustain
  | false =>
    rw [envDecay_falling hend]
    have habove := (fLt_ordered (fLt_of_not_fLe hnan (not_nan_of_finite hfiniteS) hend)).2.2
    have hle := fSub_key_le_left hfinite hfinite' hinc0
    show inRange fZero fOne (fSub v.currentValue v.decayInc) = true
    exact inUnit_of_key hnan (by omega) (by omega)

theorem envRelease_inUnit {v : Voice} (hvalue : inRange fMinusOne fOne v.releaseValue = true)
    (hinc : inRange fZero fOne v.releaseInc = true) : inRange fZero fOne (envRelease v).amp = true := by
  obtain ⟨hfinite, _, hhigh⟩ := inRange_iff.1 hvalue
  obtain ⟨hfinite', hinc0, _⟩ := inUnit_key hinc
  have hnan := (fSub_spec _ _ hfinite hfinite').1
  cases hend : fLt (fSub v.releaseValue v.releaseInc) fZero with
  | true => rw [envRelease_ends hend]; exact zero_inUnit
  | false =>
    rw [envRelease_falling hend]
    have hzero : fKey fZero = 0 := by decide
    have hnonneg := (fLe_ordered (fLe_of_not_fLt hnan (by decide) hend)).2.2
    have hle := fSub_key_le_left hfinite hfinite' hinc0
    have hvalue1 := (fLe_ordered hhigh).2.2
    show inRange fZero fOne (fSub v.releaseValue v.releaseInc) = true
    exact inUnit_of_key hnan (by omega) (by omega)

/-- Settles O32: state by state, from the ranges of the registers that state reads. -/
theorem envelopeAmplitudeStaysInUnit : Obligations.EnvelopeAmplitudeStaysInUnit := by
  intro v hfree hlegal
  obtain ⟨hattack, hattackInc, hcurrent, hdecayInc, hsustain, hrelease, hreleaseInc⟩ := hlegal
  cases hs : v.state with
  | free => exact absurd hs hfree
  | attack => rw [envStep_attack hs]; exact envAttack_inUnit hattack hattackInc
  | decay => rw [envStep_decay hs]; exact envDecay_inUnit hcurrent hdecayInc hsustain
  | sustain => rw [envStep_sustain hs]; exact hcurrent
  | release => rw [envStep_release hs]; exact envRelease_inUnit hrelease hreleaseInc

/-! ## One sample of a slot (45_render.md R241 to R243) -/

/-- Settles O30: `slotSample` with the oscillator's definitions written out; the envelope step keeps the volume. -/
theorem slotSampleFollowsTheRenderOrder : Obligations.SlotSampleFollowsTheRenderOrder := by
  refine fun c fs bend w v => ⟨fun hmuted => if_pos hmuted, fun hmuted => ?_⟩
  intro g x e
  have hvolume : e.voice.volume = v.volume := by
    show (envStep (oscAdvance fs bend g)).voice.volume = v.volume
    rw [envStep_frame]
    show (glideStep v).volume = v.volume
    rw [glideStep_frame]
  have hx : oscOutput c w g = x := by cases w <;> rfl
  rw [← hvolume, ← hx]
  exact if_neg (Bool.eq_false_iff.1 hmuted)

/-! ## A glide of N steps (44_portamento.md R231, R232) -/

/-- i glide steps change freq, glideRem and glideEn at most. -/
theorem glideTimes_frame (v : Voice) (i : Nat) :
    glideTimes v i =
      { v with
        freq := (glideTimes v i).freq, glideRem := (glideTimes v i).glideRem, glideEn := (glideTimes v i).glideEn } := by
  induction i with
  | zero => rfl
  | succ i ih =>
    show glideStep (glideTimes v i) =
      { v with
        freq := (glideStep (glideTimes v i)).freq, glideRem := (glideStep (glideTimes v i)).glideRem
        glideEn := (glideStep (glideTimes v i)).glideEn }
    rw [ih]
    exact glideStep_frame _

section
variable {v : Voice} (hen : v.glideEn = true)
include hen

/-- While steps are left the glide runs, and each step takes one. -/
theorem glideTimes_running {i : Nat} (hi : i < v.glideRem) :
    (glideTimes v i).glideEn = true ∧ (glideTimes v i).glideRem = v.glideRem - i := by
  induction i with
  | zero => exact ⟨hen, rfl⟩
  | succ i ih =>
    obtain ⟨hrun, hrem⟩ := ih (by omega)
    obtain ⟨hcount, hleft⟩ := glideStep_count (glideTimes v i) hrun
    exact ⟨hleft.2 (by omega), hcount.trans (by omega)⟩

/-- Each step before the last adds glideInc. -/
theorem glideTimes_freq {i : Nat} (hi : i + 1 < v.glideRem) :
    (glideTimes v (i + 1)).freq = fAdd (glideTimes v i).freq v.glideInc := by
  obtain ⟨hrun, hrem⟩ := glideTimes_running hen (i := i) (by omega)
  have hinc : (glideTimes v i).glideInc = v.glideInc := by rw [glideTimes_frame]
  show (glideStep (glideTimes v i)).freq = _
  rw [glideStep_running _ hrun, if_neg (by omega), hinc]

/-- The last step ends the glide on its target (R231). -/
theorem glideTimes_last (hrem : v.glideRem ≠ 0) :
    (glideTimes v v.glideRem).glideEn = false ∧ (glideTimes v v.glideRem).freq = v.glideTarget ∧
      (glideTimes v v.glideRem).glideRem = 0 := by
  obtain ⟨n, hn⟩ := Nat.exists_eq_succ_of_ne_zero hrem
  obtain ⟨hrun, hleft⟩ := glideTimes_running hen (i := n) (by omega)
  have htarget : (glideTimes v n).glideTarget = v.glideTarget := by rw [glideTimes_frame]
  rw [hn]
  show (glideStep (glideTimes v n)).glideEn = _ ∧ (glideStep (glideTimes v n)).freq = _ ∧
    (glideStep (glideTimes v n)).glideRem = _
  rw [glideStep_running _ hrun, if_pos (by omega), htarget]
  exact ⟨rfl, rfl, rfl⟩

/-- After its last step the slot holds its frequency. -/
theorem glideTimes_ended (hrem : v.glideRem ≠ 0) {i : Nat} (hi : v.glideRem ≤ i) :
    glideTimes v i = glideTimes v v.glideRem := by
  induction i, hi using Nat.le_induction with
  | base => rfl
  | succ i _ ih =>
    refine (congrArg glideStep ih).trans (glideStep_idle _ ?_)
    exact (glideTimes_last hen hrem).1

end

/-- Settles O33: the step, its frame, and by induction on the steps the run of a glide. -/
theorem glideEndsOnItsTarget : Obligations.GlideEndsOnItsTarget := by
  refine fun v => ⟨glideStep_idle v, glideStep_running v, glideTimes_frame v, fun hen hrem =>
    ⟨fun i hi => glideTimes_running hen hi, fun i hi => glideTimes_freq hen hi, fun i hi => ?_⟩⟩
  rw [glideTimes_ended hen hrem hi]
  exact glideTimes_last hen hrem

/-! ## The sweep (47_filter.md R289, R294) -/

theorem lfoSweep_linear {c : Config} (h : c.lfoSweep = .linear) (u depth lo hi : F) :
    lfoSweep c u depth lo hi = fAdd lo (fMul (fMul u depth) (fSub hi lo)) := by
  simp only [lfoSweep, h]

/-- Settles O34: `sweepStep` with the default LFO_SWEEP and LfoPeek (`lfoPeek_eq`) written out. -/
theorem sweepStepFollowsTheLfo : Obligations.SweepStepFollowsTheLfo := by
  intro s hlinear idx sum acc u lo cut k
  have hcut : sweptCutoff s (s.cfg.lfoRom.getD idx 0) = cut := by
    unfold sweptCutoff
    dsimp only
    rw [lfoSweep_linear hlinear]
  unfold sweepStep
  rw [lfoPeek_eq]
  dsimp only
  rw [hcut]
  rfl

end Sys2Proof.Machine
end

section
/-! The block commands' frames and responses (45_render.md, 46_ring_modulator.md section 2), and the settlement of O38 and O42
to O44. -/

namespace Sys2Proof.Machine

open Sys2Proof.Claims

/-! ## RM_BLOCK (46_ring_modulator.md R265, R266) -/

/-- With a nonzero rate the non-finite check looks at channels 0 and 1 (60_exceptions.md R333). -/
theorem checkedChannels_rmBlock {s : State} (hrate : fEq s.rm.rate fZero = false) (nc : Nat) :
    s.checkedChannels .rmBlock nc = min nc 2 :=
  if_neg (Bool.eq_false_iff.1 hrate)

theorem RmWrites.checkFinite_frame {k n : Nat} {s t : State} (h : RmWrites k n s t) (op : Opcode) (c m : Nat) :
    t.checkFinite op c m = { s with buf := t.buf, rm := t.rm, status := (t.checkFinite op c m).status } := by
  refine (t.checkFinite_frame op c m).trans ?_
  generalize (t.checkFinite op c m).status = status
  rw [h.frame]

/-- Settles O38: the recurrence is `rmApply_run`; the non-finite check that follows touches STATUS alone. -/
theorem rmBlockIsTheFeedbackRecurrence : Obligations.RmBlockIsTheFeedbackRecurrence := by
  intro f s hruns hwf hrate k n
  have ⟨_, _, hn⟩ := hruns
  have hwrites := rmApply_writes f.slot.toNat n s
  obtain ⟨hread, hrm⟩ := rmApply_run (nc := f.slot.toNat) hwf hn hrate
  refine ⟨_, exec_rmBlock hruns, ?frame, fun c i hc hi => ?sample, ?rm, fun a ha => ?outside, ?flags⟩
  case frame =>
    rw [State.checkFinite_buf, State.checkFinite_rm]
    exact hwrites.checkFinite_frame .rmBlock f.slot.toNat n
  case sample => rw [State.checkFinite_readBuf, hread c i hc hi]
  case rm => rw [State.checkFinite_rm, hrm]
  case outside => rw [State.checkFinite_buf]; exact hwrites.outside a ha
  case flags =>
    have hstatus : (rmApply f.slot.toNat n s).status = s.status := by rw [hwrites.frame]
    have hchannels := checkedChannels_rmBlock (hwrites.rate.symm ▸ hrate) f.slot.toNat
    have hflags := (rmApply f.slot.toNat n s).checkFinite_flags .rmBlock f.slot.toNat n
    rw [hchannels, hstatus] at hflags
    exact hflags

/-! ## SYNTH_BLOCK (45_render.md R240, R246) -/

theorem exec_synthBlock_body {f : Fields} {s : State} (h : RunsBlock s f) :
    exec (.synthBlock f) s =
      .next ((synthBlock f.slot.toNat f.arg.toNat s).checkFinite .synthBlock f.slot.toNat f.arg.toNat) :=
  exec_runs (.synthBlock f) s (h.rejection_none .synthBlock rfl)

/-- SYNTH_BLOCK ends with its response, of 1 exactly when a slot was active; STATUS and the FIFO are untouched before. -/
theorem synthBlock_eq_respond (nc n : Nat) (s : State) :
    ∃ u : State, synthBlock nc n s = u.respond (if s.regList = [] then 0 else 1) ∧ u.cfg = s.cfg ∧
      u.status = s.status ∧ u.fifo = s.fifo := by
  rcases synthBlock_idle_or_active nc n s with ⟨hidle, h⟩ | ⟨hactive, h⟩
  · have hframe := (clearRegion_writes nc n s).frame
    exact ⟨_, by rw [h, if_pos hidle], by rw [hframe], by rw [hframe], by rw [hframe]⟩
  · have hframe := (rmApply_writes nc n (renderedState nc n (waveSel s.rm) s)).frame
    have hrendered := (renderedState_frame nc n (waveSel s.rm) s).1
    refine ⟨_, by rw [h, if_neg hactive], ?_, ?_, ?_⟩ <;> rw [hframe, hrendered]

/-- Settles O42: `synthBlock_frame` for what is kept, `synthBlock_eq_respond` for the response. -/
theorem synthBlockFrameAndResponse : Obligations.SynthBlockFrameAndResponse := by
  intro f s hruns nc n
  obtain ⟨hframe, hrate, hincr, _, _, houtside⟩ := synthBlock_frame nc n s
  obtain ⟨u, hu, hcfg, hstatus, hfifo⟩ := synthBlock_eq_respond nc n s
  have hflags := State.checkFinite_flags (synthBlock nc n s) .synthBlock nc n
  have hresponse := u.respond_cases (if s.regList = [] then 0 else 1)
  rw [← hu, hcfg, hstatus, hfifo] at hresponse
  refine ⟨_, exec_synthBlock_body hruns, ?frame, ?rate, ?incr, fun hroom => ?queued, fun hfull => ?lost,
    fun a ha => ?outside⟩
  case frame =>
    refine (State.checkFinite_frame ..).trans ?_
    rw [State.checkFinite_buf, State.checkFinite_voices, State.checkFinite_regList, State.checkFinite_rm,
      State.checkFinite_fifo]
    generalize (State.checkFinite _ _ _ _).status = status
    rw [hframe]
  case rate => rw [State.checkFinite_rm]; exact hrate
  case incr => rw [State.checkFinite_rm]; exact hincr
  case queued =>
    rcases hresponse with ⟨_, h⟩ | ⟨hfull, _⟩
    · have hsame : (synthBlock nc n s).status = s.status := by rw [h]
      exact ⟨by rw [State.checkFinite_fifo, h], hsame ▸ hflags⟩
    · omega
  case lost =>
    rcases hresponse with ⟨hroom, _⟩ | ⟨_, h⟩
    · omega
    · have hsame : (synthBlock nc n s).status = s.status ||| 0x20 := by rw [h]
      exact ⟨by rw [State.checkFinite_fifo, h], hsame ▸ hflags⟩
  case outside => rw [State.checkFinite_buf]; exact houtside a ha

/-! ## SYNTH_BLOCK without an active slot (R240) -/

/-- The non-finite check does nothing on a finite region. -/
theorem checkFinite_of_finite {s : State} {op : Opcode} {nc n : Nat}
    (h : ∀ c i, c < s.checkedChannels op nc → i < n → isFinite (s.readBuf c i) = true) : s.checkFinite op nc n = s := by
  refine if_neg fun hbad => ?_
  obtain ⟨c, i, hc, hi, hnot⟩ := (s.regionNonFinite_iff _ _).1 hbad
  exact absurd ((h c i hc hi).symm.trans hnot) nofun

@[simp] theorem State.respond_readBuf (s : State) (w : Word) (c i : Nat) : (s.respond w).readBuf c i = s.readBuf c i := by
  simp [State.readBuf]

/-- Settles O43: the region is cleared, so it is finite, and the response is all that follows. -/
theorem synthBlockWithoutVoicesClears : Obligations.SynthBlockWithoutVoicesClears := by
  intro f s hruns hwf hempty
  have ⟨_, _, hn⟩ := hruns
  have hclear := clearRegion_writes f.slot.toNat f.arg.toNat s
  have hzero : ∀ c i, c < f.slot.toNat → i < f.arg.toNat →
      (clearRegion f.slot.toNat f.arg.toNat s).readBuf c i = fZero := fun c i hc hi => clearRegion_readBuf hwf hn hc hi
  have hidle : synthBlock f.slot.toNat f.arg.toNat s = (clearRegion f.slot.toNat f.arg.toNat s).respond 0 :=
    (synthBlock_idle_or_active _ _ s).resolve_right (fun h => h.1 hempty) |>.2
  have hexec := exec_synthBlock_body hruns
  rw [hidle] at hexec
  generalize clearRegion f.slot.toNat f.arg.toNat s = u at *
  have hfinite : (u.respond 0).checkFinite .synthBlock f.slot.toNat f.arg.toNat = u.respond 0 := by
    refine checkFinite_of_finite fun c i hc hi => ?_
    rw [State.respond_readBuf, hzero c i hc hi]
    decide
  rw [hfinite] at hexec
  have hframe := hclear.frame
  have hfifo : u.fifo = s.fifo := by rw [hframe]
  have hstatus : u.status = s.status := by rw [hframe]
  have hresponse := u.respond_cases 0
  rw [hclear.cfg, hfifo, hstatus] at hresponse
  refine ⟨_, hexec, ?frame, fun c i hc hi => ?cleared, fun a ha => ?outside, fun hroom => ?queued, fun hfull => ?lost⟩
  case frame =>
    rw [State.respond_buf]
    refine (u.respond_frame 0).trans ?_
    generalize (u.respond 0).status = status
    generalize (u.respond 0).fifo = fifo
    rw [hframe]
  case cleared => rw [State.respond_readBuf]; exact hzero c i hc hi
  case outside => rw [State.respond_buf]; exact hclear.outside a ha
  case queued =>
    rcases hresponse with ⟨_, h⟩ | ⟨hfull, _⟩
    · rw [h]
      exact ⟨rfl, rfl⟩
    · omega
  case lost =>
    rcases hresponse with ⟨hroom, _⟩ | ⟨_, h⟩
    · omega
    · rw [h]
      exact ⟨rfl, rfl⟩

/-! ## SYNTH_BLOCK of no samples (R247) -/

theorem clearRegion_zero (nc : Nat) (s : State) : clearRegion nc 0 s = s :=
  forUpTo_keep (· = s) nc _ s rfl fun _ _ _ ht => ht

theorem renderSlot_zero (nc : Nat) (w : Wave) (k : Nat) (s : State) : renderSlot nc 0 w k s = (s, true) :=
  ite_self _

/-- No slot dies in a block of no samples, so none is disposed. -/
theorem renderSlots_zero (nc : Nat) (w : Wave) (ks : List Nat) (s : State) : renderSlots nc 0 w ks s = (s, []) := by
  induction ks with
  | nil => rfl
  | cons k ks ih =>
    unfold renderSlots
    rw [renderSlot_zero]
    simp [ih]

theorem rmApply_zero (nc : Nat) (s : State) : rmApply nc 0 s = s := ite_self _

theorem synthBlock_zero (nc : Nat) (s : State) :
    synthBlock nc 0 s = s.respond (if s.regList = [] then 0 else 1) := by
  rcases synthBlock_cases nc 0 s with ⟨hidle, h⟩ | ⟨hactive, h⟩
  · rw [h, clearRegion_zero, if_pos hidle]
  · rw [h, clearRegion_zero, renderSlots_zero, rmApply_zero, if_neg hactive]
    rfl

/-- Settles O44: every loop over samples is empty, the non-finite check included. -/
theorem synthBlockOfNoSamplesOnlyResponds : Obligations.SynthBlockOfNoSamplesOnlyResponds := by
  intro f s hruns hzero
  have hn : f.arg.toNat = 0 := by rw [hzero]; rfl
  refine ⟨_, exec_synthBlock_body hruns, ?_⟩
  rw [hn, synthBlock_zero, checkFinite_of_finite fun c i _ hi => absurd hi (Nat.not_lt_zero i)]
  exact respond_respondedWith s _

end Sys2Proof.Machine
end

section
/-! What power-on leaves unspecified is unobservable (10_state.md R68, 70_reset_and_hazards.md R360), and the settlement of
O49. -/

namespace Sys2Proof.Machine

open Sys2Proof.Claims

/-! ## States with other unspecified registers -/

/-- The specified part of `s` with the other registers of `u`. -/
def withUnspecified (s u : State) : State :=
  { u with
    cfg := s.cfg, status := s.status, fifo := s.fifo, buf := s.buf, pending := s.pending, replies := s.replies }

theorem SameSpecified.eq_withUnspecified {s t : State} (h : SameSpecified s t) : t = withUnspecified s t := by
  obtain ⟨hcfg, hstatus, hfifo, hbuf, hpending, hreplies⟩ := h
  unfold withUnspecified
  rw [hcfg, hstatus, hfifo, hbuf, hpending, hreplies]

theorem sameSpecified_withUnspecified (s u : State) : SameSpecified s (withUnspecified s u) :=
  ⟨rfl, rfl, rfl, rfl, rfl, rfl⟩

/-! ## Operations that do not look at the unspecified registers -/

theorem respond_withUnspecified (s u : State) (w : Word) :
    (withUnspecified s u).respond w = withUnspecified (s.respond w) u := by
  have hroom : (withUnspecified s u).fifo.length < (withUnspecified s u).cfg.respDepth ↔
      s.fifo.length < s.cfg.respDepth := Iff.rfl
  unfold State.respond
  rw [if_congr hroom rfl rfl]
  split <;> rfl

theorem reject_withUnspecified (s u : State) (e : Event) (op : Opcode) :
    (withUnspecified s u).reject e op = withUnspecified (s.reject e op) u := by
  unfold State.reject
  split
  · exact respond_withUnspecified (s.raise e) u rejectWord
  · rfl

theorem hostRead_withUnspecified (addr : BitVec 32) (w : Width) (s u : State) :
    hostRead addr w (withUnspecified s u) = ((hostRead addr w s).1, withUnspecified (hostRead addr w s).2 u) := by
  have hcfg : (withUnspecified s u).cfg = s.cfg := rfl
  have hfifo : (withUnspecified s u).fifo = s.fifo := rfl
  cases hl : target s.cfg addr w with
  | none => simp only [hostRead, hcfg, hl]; rfl
  | some l =>
    cases l with
    | resp => cases hf : s.fifo <;> simp only [hostRead, hcfg, hl, hfifo, hf] <;> rfl
    | _ => simp only [hostRead, hcfg, hl]; rfl

theorem hostWrite_withUnspecified (addr : BitVec 32) (w : Width) (d : BitVec 64) (s u : State) :
    hostWrite addr w d (withUnspecified s u) = withUnspecified (hostWrite addr w d s) u := by
  have hcfg : (withUnspecified s u).cfg = s.cfg := rfl
  cases hl : target s.cfg addr w with
  | none => simp only [hostWrite, hcfg, hl]; rfl
  | some l => cases l <;> simp only [hostWrite, hcfg, hl] <;> rfl

theorem busAccess_withUnspecified (a : HostAccess) (s u : State) :
    busAccess a (withUnspecified s u) = withUnspecified (busAccess a s) u := by
  cases a with
  | read addr w => rw [busAccess_read (hostRead_withUnspecified addr w s u)]; rfl
  | write addr w d => exact hostWrite_withUnspecified addr w d s u

/-! ## Commands before INIT -/

/-- What a command or an access leads to from the two states: the same state, or again states that differ at most in the
unspecified registers, with READY still 0. -/
def SameOutcome (u s' t' : State) : Prop := s' = t' ∨ (t' = withUnspecified s' u ∧ s'.ready = false)

/-- NOP leaves both states, INIT makes them equal, and GET STATUS answers the same. -/
theorem body_withUnspecified {i : Instr} {s : State} (hi : beforeInit i) (hready : s.ready = false) (u : State) :
    SameOutcome u (body i s) (body i (withUnspecified s u)) := by
  cases i with
  | nop f => exact .inr ⟨rfl, hready⟩
  | init f => exact .inl rfl
  | get f =>
    obtain ⟨_, _, harg⟩ : Opcode.get = .get ∧ f.slot = 0 ∧ f.arg = 0 := (hi.resolve_left nofun).resolve_left nofun
    have hselector : f.selector = some .status := selector_of_arg harg
    rw [body_get hselector, body_get hselector]
    exact .inr ⟨respond_withUnspecified s u s.status, (s.ready_respond _).trans hready⟩
  | _ => exact absurd ((allowedBeforeInit_iff _).2 hi) nofun

theorem beforeInit_not_block {i : Instr} (hi : beforeInit i) : isBlockCommand i.opcode = false := by
  rcases hi with h | h | ⟨h, _⟩ <;> rw [h] <;> rfl

theorem exec_withUnspecified {i : Instr} {s s' : State} (hready : s.ready = false) (h : exec i s = .next s') (u : State) :
    ∃ t', exec i (withUnspecified s u) = .next t' ∧ SameOutcome u s' t' := by
  have hcheck : (withUnspecified s u).rejection i.opcode i.fields = s.rejection i.opcode i.fields :=
    rejection_congr rfl rfl _ _
  cases hr : s.rejection i.opcode i.fields with
  | some e =>
    rw [exec_rejects i s e hr] at h
    obtain rfl := Host.Outcome.next.inj h
    exact ⟨_, exec_rejects i _ e (hcheck.trans hr),
      .inr ⟨reject_withUnspecified s u e _, (s.ready_reject e _).trans hready⟩⟩
  | none =>
    have hi : beforeInit i := (accepted_of_rejection_none hr).1.resolve_left (Bool.eq_false_iff.1 hready)
    rw [exec_body hr (beforeInit_not_block hi)] at h
    obtain rfl := Host.Outcome.next.inj h
    exact ⟨_, exec_body (hcheck.trans hr) (beforeInit_not_block hi), body_withUnspecified hi hready u⟩

theorem runCommand_withUnspecified {w : CommandWord} {s s' : State} (hready : s.ready = false)
    (h : runCommand w s = .next s') (u : State) :
    ∃ t', runCommand w (withUnspecified s u) = .next t' ∧ SameOutcome u s' t' := by
  by_cases hw : reservedByte (w.extractLsb' 0 8)
  · rw [runCommand_reserved hw] at h
    obtain rfl := Host.Outcome.next.inj h
    exact ⟨_, runCommand_reserved hw _, .inr ⟨rfl, (s.ready_raise .badOp).trans hready⟩⟩
  · obtain ⟨i, hi⟩ := decode_of_not_reservedByte hw
    rw [runCommand_decoded hi] at h ⊢
    exact exec_withUnspecified hready h u

/-! ## Steps -/

theorem step_withUnspecified {s s' : State} (hready : s.ready = false) (h : step s = .next s') (u : State) :
    ∃ t', step (withUnspecified s u) = .next t' ∧ SameOutcome u s' t' := by
  cases hp : s.pending with
  | nil =>
    rw [step_idle hp] at h
    obtain rfl := Host.Outcome.next.inj h
    exact ⟨_, step_idle (s := withUnspecified s u) hp, .inr ⟨rfl, hready⟩⟩
  | cons a rest =>
    cases hc : commandOf s.cfg a with
    | none =>
      rw [step_busAccess hp hc] at h
      obtain rfl := Host.Outcome.next.inj h
      refine ⟨_, step_busAccess (s := withUnspecified s u) hp hc, .inr ⟨?_, ?_⟩⟩
      · exact busAccess_withUnspecified a { s with pending := rest } u
      · exact (busAccess_frame a { s with pending := rest }).2.trans hready
    | some w =>
      rw [step_command hp hc] at h
      rw [step_command (s := withUnspecified s u) hp hc]
      exact runCommand_withUnspecified (s := { s with pending := rest }) hready h u

/-- Settles O49: before INIT every operation reads and writes the specified part alone, and INIT writes all the rest. -/
theorem unspecifiedRegistersAreUnobservable : Obligations.UnspecifiedRegistersAreUnobservable := by
  intro s t s' hst hready h
  obtain ⟨t', ht', hsame⟩ := step_withUnspecified hready h t
  refine ⟨t', hst.eq_withUnspecified ▸ ht', hsame.imp_right ?_⟩
  rintro ⟨rfl, hready'⟩
  exact ⟨sameSpecified_withUnspecified s' t, hready'⟩

end Sys2Proof.Machine
end
